-- ==== Sys2Proof/Word.lean ====
section
/-! DEFINITION. The two word types of TCODEC: a register (10_state R21, 64 bits) and a byte of memory (10_state R20). -/

namespace Sys2Proof

/-- A register of the window, a command word, a memory address: 64 bits (00_scope R6, REG_W and ADDR_W). -/
abbrev Word := BitVec 64

/-- One byte of memory. -/
abbrev Byte := BitVec 8

end Sys2Proof
end

