-- ==== Sys2Proof/Syntax.lean ====
section
/-! DEFINITION. The seven commands (30_encoding R81), one constructor per row of the opcode table, and the three reasons
why a command word is none of them (30_encoding R83). -/

namespace Sys2Proof

/-- A command of TCODEC. `n` is the N field of the command word, the source's `trits_per_val` (30_encoding R80, R82). Every
other operand comes from a latched register (10_state R36), never from the command word. -/
inductive Instr where
  /-- SENC n: scalar encode (40_scalar R103). -/
  | senc (n : Nat)
  /-- SDEC n: scalar decode (40_scalar R104). -/
  | sdec (n : Nat)
  /-- PACK: pack five trits into a byte (41_packer R122). -/
  | pack
  /-- UNPACK: unpack a byte into five trits (41_packer R123). -/
  | unpack
  /-- REQB n: the packed size of a matrix (42_matrix R148). -/
  | reqb (n : Nat)
  /-- MENC n: encode a matrix (42_matrix R150). -/
  | menc (n : Nat)
  /-- MDEC n: decode a packed buffer (42_matrix R160). -/
  | mdec (n : Nat)
deriving DecidableEq, Repr

/-- Why a command word is illegal (30_encoding R83), in the order the tests are made. -/
inductive IllegalWord where
  /-- OP is 0x0 or 0x8 .. 0xF. -/
  | reservedOp
  /-- Bits 63:11 are not all 0. -/
  | reservedBits
  /-- PACK or UNPACK with a non-zero N field. -/
  | nonzeroN
deriving DecidableEq, Repr

end Sys2Proof
end

