-- ==== Sys2Proof/WellFormed.lean ====
section
/-! DEFINITION. Which terms of Instr are commands of the hardware: the N field has 7 bits (30_encoding R80, R82). Whether
a value of N is LEGAL for a command is no matter of well-formedness: the command's own rule says so at run time (R82). -/

namespace Sys2Proof

/-- `n` fits the 7-bit N field of the command word (30_encoding R80). -/
def fitsN (n : Nat) : Bool := decide (n < 128)

/-- The command is one that a command word can hold. -/
def Instr.wellFormed : Instr → Bool
  | .senc n => fitsN n
  | .sdec n => fitsN n
  | .pack => true
  | .unpack => true
  | .reqb n => fitsN n
  | .menc n => fitsN n
  | .mdec n => fitsN n

end Sys2Proof
end

