-- ==== Sys2Proof/Decode.lean ====
section
/-! DEFINITION. The decoder, total on every 64-bit word (30_encoding R80 to R83, R89), the encoder written from the same
table (R80, R81), and the decoder as the opcode table's words see it. -/

namespace Sys2Proof

/-- The OP field, bits 3:0 (30_encoding R80). -/
def opField (w : Word) : Nat := (w.extractLsb' 0 4).toNat

/-- The N field, bits 10:4, an unsigned integer 0..127 (30_encoding R80, R82). -/
def nField (w : Word) : Nat := (w.extractLsb' 4 7).toNat

/-- The RSV field, bits 63:11, must be 0 (30_encoding R80). -/
def rsvField (w : Word) : Nat := (w.extractLsb' 11 53).toNat

/-- The reserved operation codes (30_encoding R81, R83 test 1). -/
def isReservedOp (op : Nat) : Bool := op == 0 || decide (8 ≤ op)

/-- The command that a word holds, or why it holds none; the three tests in the order of 30_encoding R83, then the opcode
map of R81. -/
def decode (w : Word) : Except IllegalWord Instr :=
  if isReservedOp (opField w) then .error .reservedOp
  else if rsvField w ≠ 0 then .error .reservedBits
  else if (opField w = 3 ∨ opField w = 4) ∧ nField w ≠ 0 then .error .nonzeroN
  else match opField w with
    | 1 => .ok (.senc (nField w))
    | 2 => .ok (.sdec (nField w))
    | 3 => .ok .pack
    | 4 => .ok .unpack
    | 5 => .ok (.reqb (nField w))
    | 6 => .ok (.menc (nField w))
    | 7 => .ok (.mdec (nField w))
    | _ => .error .reservedOp

/-- The OP code of a command (30_encoding R81). -/
def opCode : Instr → Nat
  | .senc _ => 1
  | .sdec _ => 2
  | .pack => 3
  | .unpack => 4
  | .reqb _ => 5
  | .menc _ => 6
  | .mdec _ => 7

/-- The N field of a command: its `n`, and 0 for PACK and UNPACK (30_encoding R81). -/
def nCode : Instr → Nat
  | .senc n => n
  | .sdec n => n
  | .pack => 0
  | .unpack => 0
  | .reqb n => n
  | .menc n => n
  | .mdec n => n

/-- The command word of a command, `OP | (N << 4)` with the reserved bits 0 (30_encoding R80). -/
def encode (i : Instr) : Word := BitVec.ofNat 64 (opCode i) ||| (BitVec.ofNat 64 (nCode i) <<< 4)

/-- The command that the decoder reads from a row's word: the `nbits` bits of `w`, every bit above them 0. A command word is
one 64-bit register write, so bit 0 of `w` is bit 0 of the word. -/
def decodeTableWord (nbits w : Nat) : Option Instr :=
  match decode (BitVec.ofNat 64 (w % 2 ^ nbits)) with
  | .ok i => some i
  | .error _ => none

end Sys2Proof
end

