-- ==== Sys2Proof/Config.lean ====
section
/-! DEFINITION. The fixed parameters of 00_scope R6, and the free values: opaque constants that stand for what the spec
calls 'a draw', 'any value' or 'unspecified'. Nothing can be proved of a free value, so a statement holds whatever it is. -/

namespace Sys2Proof.Config

/-- GROUP of 00_scope R6: trits in a packed byte. -/
def group : Nat := 5

/-- TPV_MAX of 00_scope R6: the largest `n` a command accepts. -/
def tpvMax : Nat := 64

/-- DIM_MAX of 00_scope R6: the largest legal ROWS and COLS. -/
def dimMax : Int := 2 ^ 31 - 1

/-- The size of the memory space in bytes (10_state R20). -/
def memSize : Nat := 2 ^ 64

/-- The size of the register window in bytes (10_state R20). -/
def windowSize : Nat := 256

/-- The constant of register ID (10_state R24). -/
def idValue : Word := 0x0540000154434F44#64

/-- FREE VALUE (log 7): the byte a MENC or MDEC that ends with BUS_ERROR WRITE leaves at a writable address of its write
footprint (42_matrix R158, R167). First argument the draw's number, second the address. -/
opaque writeErrorByte : Nat → Nat → Byte

/-- FREE VALUE (log 7): which failing address BUS_ERROR WRITE reports (42_matrix R158, R167; 93 I23), as an index that is
taken modulo the number of failing addresses. -/
opaque writeErrorChoice : Nat → Nat

/-- FREE VALUE (log 8): what the engine reads from a byte of its read footprint that the host wrote while BUSY = 1
(20_memory R70, R72). -/
opaque racedReadByte : Nat → Nat → Byte

/-- FREE VALUE (log 8): what a race leaves at an address of the write footprint at completion (20_memory R72). -/
opaque racedWriteByte : Nat → Nat → Byte

/-- FREE VALUE (log 8): what a host read of the write footprint returns while BUSY = 1 (20_memory R72). -/
opaque racedHostByte : Nat → Nat → Byte

/-- FREE VALUE (log 10): what a reset during a command leaves at a writable address of that command's write footprint
(70_reset_and_hazards R221). -/
opaque resetByte : Nat → Nat → Byte

end Sys2Proof.Config
end

