-- ==== Sys2Proof/Machine/State.lean ====
section
/-! DEFINITION. Everything the spec gives TCODEC as plain data: the registers of 10_state R22, the engine's latches of
10_state R39, memory, and the model's own fields for what surrounds the block. -/

namespace Sys2Proof.Machine

/-- Memory (10_state R20): the listed bytes, in the canonical form that `Memory.wf` states. An address that is not listed
reads as `unlistedByte` (Machine/Ops.lean; log 1). -/
abbrev Memory := List Host.Cell

/-- The fields of register STATUS (10_state R26); its reserved bits read as zero and hold nothing (log 14). -/
structure Status where
  /-- Bit 0: a command runs. -/
  busy : Bool
  /-- Bit 1: a command has completed. -/
  done : Bool
  /-- Bit 2: a CMD write was ignored. -/
  ovr : Bool
  /-- Bits 7:4: status code of the last completed command. -/
  err : BitVec 4
  /-- Bits 15:8: detail code of the last completed command. -/
  detail : BitVec 8
deriving DecidableEq, Repr

/-- The latched copies `lat[...]` of a command's argument registers (30_encoding R85). -/
structure Latches where
  cmd : Word
  arg : Word
  tinLo : Word
  tinHi : Word
  rows : Word
  cols : Word
  srcAddr : Word
  srcLen : Word
  dstAddr : Word
  dstLen : Word
deriving DecidableEq, Repr

/-- The engine's hidden state (10_state R39), and the model's record of the races of 20_memory R72 (log 8). -/
structure Engine where
  /-- The latched operands. -/
  lat : Latches
  /-- MODEL: the addresses of the running command's read footprint that the host wrote while BUSY = 1. -/
  racedReads : List Nat
  /-- MODEL: the host wrote a byte of the running command's write footprint while BUSY = 1. -/
  racedWrite : Bool
deriving DecidableEq, Repr

/-- The direction of a memory-port access (20_memory R68). -/
inductive Dir where
  | read
  | write
deriving DecidableEq, Repr

/-- The sizes of a memory-port access (00_scope R11, 20_memory R66). -/
inductive AccessSize where
  /-- One byte. -/
  | one
  /-- Four bytes. -/
  | four
deriving DecidableEq, Repr

/-- Accesses for which BusOK is false (20_memory R68): those of one size and direction whose address is one of `count`
addresses from `first` on. A list of these describes every predicate on accesses (log 4). -/
structure BusHole where
  first : Nat
  count : Nat
  size : AccessSize
  dir : Dir
deriving DecidableEq, Repr

/-- MODEL: the platform's OPEN parameters (00_scope R6; log 4, log 5). -/
structure Platform where
  /-- TCODEC_BASE: the address of the register window. -/
  tcodecBase : Word
  /-- Where BusOK is false beside the register window (20_memory R69). -/
  holes : List BusHole
deriving DecidableEq, Repr

/-- MODEL: one thing that the host or the platform does, or the engine's turn (log 2). -/
inductive Input where
  /-- The host reads `size` bytes at a host-bus address (10_state R21). -/
  | regRead (addr : Word) (size : Nat)
  /-- The host writes `size` bytes at a host-bus address (10_state R21). -/
  | regWrite (addr : Word) (size : Nat) (value : Word)
  /-- The host reads a byte of memory by its own means (20_memory R72; log 13). -/
  | memRead (addr : Word)
  /-- A host write of a byte of memory becomes visible (20_memory R70, R72; log 13). -/
  | memWrite (addr : Word) (value : Byte)
  /-- The engine completes its command here (70_reset R240). -/
  | engine
  /-- The platform's reset (70_reset R220). -/
  | reset
  /-- The platform changes BusOK (20_memory R68: not while a command runs). -/
  | busMap (holes : List BusHole)
deriving DecidableEq, Repr

/-- MODEL: what the last host access was answered (log 12). -/
inductive Response where
  /-- No access was answered since reset, or the last one was not addressed to TCODEC. -/
  | none
  /-- A register read returned this value. -/
  | data (value : Word)
  /-- A register write was taken (or ignored without an error response, 10_state R23). -/
  | written
  /-- The error response of the host port (10_state R21). -/
  | error
  /-- A host read of memory returned this byte. -/
  | byte (value : Byte)
  /-- A host write of memory was performed. -/
  | stored
deriving DecidableEq, Repr

/-- TCODEC, its memory and what surrounds it. -/
structure State where
  /-- CMD (10_state R25): the last accepted command word. -/
  cmd : Word
  /-- STATUS (10_state R26). -/
  status : Status
  /-- CTRL (10_state R28): its one field, bit 0 IRQ_EN. -/
  irqEn : Bool
  /-- ARG (10_state R29). -/
  arg : Word
  /-- TIN_LO (10_state R30). -/
  tinLo : Word
  /-- TIN_HI (10_state R30). -/
  tinHi : Word
  /-- TOUT_LO (10_state R31). -/
  toutLo : Word
  /-- TOUT_HI (10_state R31). -/
  toutHi : Word
  /-- RESULT (10_state R32). -/
  result : Word
  /-- ROWS (10_state R33). -/
  rows : Word
  /-- COLS (10_state R33). -/
  cols : Word
  /-- SRC_ADDR (10_state R34). -/
  srcAddr : Word
  /-- SRC_LEN (10_state R34). -/
  srcLen : Word
  /-- DST_ADDR (10_state R34). -/
  dstAddr : Word
  /-- DST_LEN (10_state R34). -/
  dstLen : Word
  /-- ERR_ADDR (10_state R35). -/
  errAddr : Word
  /-- The engine's hidden state (10_state R39). -/
  engine : Engine
  /-- Memory (10_state R20). -/
  mem : Memory
  /-- MODEL: the OPEN parameters (log 4, log 5). -/
  platform : Platform
  /-- MODEL: what the host and the platform still do, first to last (log 2). -/
  inputs : List Input
  /-- MODEL: the answer to the last host access (log 12). -/
  response : Response
  /-- MODEL: how many draws have been made (log 6). -/
  draws : Nat
deriving DecidableEq, Repr

/-- No command of TCODEC, no host access and no reset stops the machine (60_exceptions R185, R197; log 19), so there is no
fault. -/
inductive Fault where
deriving DecidableEq, Repr

/-- Why a step can refuse. -/
inductive Refusal where
  /-- Raised by exec's own arms for an instruction that has no meaning yet; no arm of this model does. Safe: the run stops. -/
  | notModelled (mnemonic : String)
deriving DecidableEq, Repr

/-- STATUS after reset (10_state R26): every field 0. -/
def Status.reset : Status := { busy := false, done := false, ovr := false, err := 0#4, detail := 0#8 }

/-- 'No latch holds a value' (70_reset R220), written as zeros (log 20). -/
def Latches.empty : Latches :=
  { cmd := 0#64, arg := 0#64, tinLo := 0#64, tinHi := 0#64, rows := 0#64, cols := 0#64, srcAddr := 0#64, srcLen := 0#64,
    dstAddr := 0#64, dstLen := 0#64 }

/-- The engine with no command in flight: the hidden state is empty (10_state R39, 70_reset R220). -/
def Engine.idle : Engine := { lat := Latches.empty, racedReads := [], racedWrite := false }

/-- The platform that State.reset stands on (log 4, log 5): TCODEC_BASE 0, BusOK true for every access that does not
touch the register window. -/
def Platform.default : Platform := { tcodecBase := 0#64, holes := [] }

/-- The machine right after reset (10_state R22, R41; 70_reset R220). -/
def State.reset : State :=
  { cmd := 0#64, status := Status.reset, irqEn := false, arg := 0#64, tinLo := 0#64, tinHi := 0#64, toutLo := 0#64,
    toutHi := 0#64, result := 0#64, rows := 0#64, cols := 0#64, srcAddr := 0#64, srcLen := 0#64, dstAddr := 0#64,
    dstLen := 0#64, errAddr := 0#64, engine := Engine.idle, mem := [], platform := Platform.default, inputs := [],
    response := .none, draws := 0 }

end Sys2Proof.Machine
end

