-- ==== Sys2Proof/Machine/Flags.lean ====
section
/-! DEFINITION. The STATUS register: its word as the host reads it, its write-1-to-clear bits, the codes of 60_exceptions
R180 and the interrupt line (10_state R26 to R28, R38; 60_exceptions R180, R181, R195). -/

namespace Sys2Proof.Machine

/-- The detail codes of INVALID_ARGUMENT (60_exceptions R180). -/
inductive ArgDetail where
  | nullSrc
  | nullDst
  | rowsRange
  | colsRange
  | nRange
  | capacity
  | misaligned
  | rangeWrap
  | overlap
  | badTrit
  | nanValue
  | sizeOverflow
deriving DecidableEq, Repr

/-- How a command ends: one row of the table of 60_exceptions R180, with the value ERR_ADDR takes. -/
inductive Verdict where
  /-- OK. -/
  | ok
  /-- INVALID_ARGUMENT; `addr` is the trit index of BAD_TRIT, the element's address of MENC's NAN_VALUE; the other details
  have no address, and `errAddr` gives 0 for them. -/
  | invalidArgument (why : ArgDetail) (addr : Word)
  /-- BUFFER_EXHAUSTED. -/
  | bufferExhausted
  /-- BUS_ERROR, with the address of the failing access. -/
  | busError (dir : Dir) (addr : Word)
  /-- ILLEGAL_COMMAND. -/
  | illegalCommand (why : IllegalWord)
deriving DecidableEq, Repr

/-- The DETAIL code of an INVALID_ARGUMENT (60_exceptions R180). -/
def argDetailCode : ArgDetail → BitVec 8
  | .nullSrc => 0x01#8
  | .nullDst => 0x02#8
  | .rowsRange => 0x03#8
  | .colsRange => 0x04#8
  | .nRange => 0x05#8
  | .capacity => 0x06#8
  | .misaligned => 0x07#8
  | .rangeWrap => 0x08#8
  | .overlap => 0x09#8
  | .badTrit => 0x0A#8
  | .nanValue => 0x0B#8
  | .sizeOverflow => 0x0C#8

/-- The ERR code (60_exceptions R180). -/
def Verdict.err : Verdict → BitVec 4
  | .ok => 0#4
  | .invalidArgument _ _ => 1#4
  | .bufferExhausted => 2#4
  | .busError _ _ => 3#4
  | .illegalCommand _ => 4#4

/-- The DETAIL code (60_exceptions R180). -/
def Verdict.detail : Verdict → BitVec 8
  | .ok => 0#8
  | .invalidArgument why _ => argDetailCode why
  | .bufferExhausted => 0#8
  | .busError .read _ => 1#8
  | .busError .write _ => 2#8
  | .illegalCommand .reservedOp => 1#8
  | .illegalCommand .reservedBits => 2#8
  | .illegalCommand .nonzeroN => 3#8

/-- The value of ERR_ADDR: the index of BAD_TRIT, the address of NAN_VALUE (0 from SENC) and of BUS_ERROR, and 0 for every
other outcome (10_state R35, 60_exceptions R180). -/
def Verdict.errAddr : Verdict → Word
  | .ok => 0#64
  | .invalidArgument .badTrit index => index
  | .invalidArgument .nanValue addr => addr
  | .invalidArgument _ _ => 0#64
  | .bufferExhausted => 0#64
  | .busError _ addr => addr
  | .illegalCommand _ => 0#64

/-- STATUS as the host reads it: BUSY bit 0, DONE bit 1, OVR bit 2, bit 3 zero, ERR bits 7:4, DETAIL bits 15:8, the rest
zero (10_state R26). -/
def Status.word (st : Status) : Word :=
  ((0#48 ++ st.detail ++ st.err ++ 0#1 ++ BitVec.ofBool st.ovr ++ BitVec.ofBool st.done ++ BitVec.ofBool st.busy : BitVec 64))

/-- A host write of `w` to STATUS: bit 1 clears DONE, bit 2 clears OVR, every other bit is ignored (10_state R27). -/
def Status.clear (st : Status) (w : Word) : Status :=
  { st with done := st.done && !w.getLsbD 1, ovr := st.ovr && !w.getLsbD 2 }

/-- STATUS at acceptance: BUSY 1, DONE 0, ERR and DETAIL 0; OVR stays (30_encoding R84). -/
def Status.accepted (st : Status) : Status := { st with busy := true, done := false, err := 0#4, detail := 0#8 }

/-- STATUS at completion: the verdict's codes, BUSY 0, DONE 1; OVR stays (60_exceptions R181). -/
def Status.finished (st : Status) (v : Verdict) : Status :=
  { st with busy := false, done := true, err := v.err, detail := v.detail }

/-- STATUS when a CMD write is ignored: OVR is set and nothing else changes (30_encoding R84). -/
def Status.overrun (st : Status) : Status := { st with ovr := true }

/-- CTRL as the host reads it: bit 0 IRQ_EN, the rest zero (10_state R28). -/
def ctrlWord (irqEn : Bool) : Word := BitVec.setWidth 64 (BitVec.ofBool irqEn)

/-- The interrupt line: `irq = CTRL.IRQ_EN AND STATUS.DONE`, a level (60_exceptions R195). -/
def State.irq (s : State) : Bool := s.irqEn && s.status.done

end Sys2Proof.Machine
end

