-- ==== Sys2Proof/Machine/Ternary.lean ====
section
/-! DEFINITION. Trits, balanced-ternary integers and packed bytes: 00_scope R14, 30_encoding R86 and R87, 40_scalar R100
to R102, 41_packer R120 and R121. -/

namespace Sys2Proof.Machine

/-- A trit: 'an integer constrained to exactly one of {-1, 0, +1}' (00_scope R14). -/
inductive Trit where
  | neg
  | zero
  | pos
deriving DecidableEq, Repr

/-- The integer a trit is (00_scope R14). -/
def Trit.val : Trit → Int
  | .neg => -1
  | .zero => 0
  | .pos => 1

/-- The unsigned base-3 digit `trit + 1` (00_scope R15, 41_packer R120). -/
def Trit.digit : Trit → Nat
  | .neg => 0
  | .zero => 1
  | .pos => 2

/-- The trit of a base-3 digit, `digit - 1` (41_packer R121); only 0, 1 and 2 are digits. -/
def Trit.ofDigit : Nat → Trit
  | 0 => .neg
  | 1 => .zero
  | _ => .pos

/-- The 2-bit code of a trit in TIN and TOUT (30_encoding R86). -/
def Trit.code : Trit → BitVec 2
  | .neg => 0b11#2
  | .zero => 0b00#2
  | .pos => 0b01#2

/-- The trit of a 2-bit code; code 0b10 is no trit (30_encoding R86). -/
def Trit.ofCode (c : BitVec 2) : Option Trit :=
  if c = 0b00#2 then some .zero
  else if c = 0b01#2 then some .pos
  else if c = 0b11#2 then some .neg
  else none

/-- `bt_value(t)`, the sum of `t[i]·3^i`, least significant trit first (40_scalar R100). -/
def btValue : List Trit → Int
  | [] => 0
  | t :: ts => t.val + 3 * btValue ts

/-- `max_val(n) = (3^n - 1) / 2`, exact (40_scalar R101). -/
def maxVal (n : Nat) : Nat := (3 ^ n - 1) / 2

/-- `bt_digits(k, n)`: the `n` trits of an integer, least significant first, by exact division (40_scalar R102,
90_conflicts C1). -/
def btDigits : Int → Nat → List Trit
  | _, 0 => []
  | k, n + 1 =>
    if k % 3 = 0 then .zero :: btDigits (k / 3) n
    else if k % 3 = 1 then .pos :: btDigits ((k - 1) / 3) n
    else .neg :: btDigits ((k + 1) / 3) n

/-- The codes of a trit sequence, trit 0 in the two least significant bits (30_encoding R87). -/
def tritCodes : List Trit → Nat
  | [] => 0
  | t :: ts => t.code.toNat + 4 * tritCodes ts

/-- The LO register of a trit vector: trits 0..31 (10_state R30, 30_encoding R87). -/
def tritsLo (ts : List Trit) : Word := BitVec.ofNat 64 (tritCodes (ts.take 32))

/-- The HI register of a trit vector: trits 32..63; positions past the sequence hold code 0b00 (10_state R30, 30_encoding
R87). -/
def tritsHi (ts : List Trit) : Word := BitVec.ofNat 64 (tritCodes (ts.drop 32))

/-- The code of trit `i` of the vector in two registers: bits 2i+1:2i of LO for i ≤ 31, bits 2(i-32)+1:2(i-32) of HI for
32 ≤ i ≤ 63 (10_state R30). -/
def tritCodeAt (lo hi : Word) (i : Nat) : BitVec 2 :=
  if i < 32 then lo.extractLsb' (2 * i) 2 else hi.extractLsb' (2 * (i - 32)) 2

/-- The trits `i .. i + count - 1` of a vector, lowest first, or the index of the lowest one with code 0b10 (40_scalar
R104, 41_packer R122). -/
def readTrits (lo hi : Word) (i : Nat) : Nat → Except Nat (List Trit)
  | 0 => .ok []
  | count + 1 =>
    match Trit.ofCode (tritCodeAt lo hi i) with
    | none => .error i
    | some t =>
      match readTrits lo hi (i + 1) count with
      | .error j => .error j
      | .ok ts => .ok (t :: ts)

/-- The number a packed byte holds, the sum of `(t[j] + 1)·3^j` over the trits given, t[0] least significant (41_packer
R120). -/
def digitSum : List Trit → Nat
  | [] => 0
  | t :: ts => t.digit + 3 * digitSum ts

/-- `pack5(t[0..4])` as a byte (41_packer R120). -/
def pack5 (ts : List Trit) : Byte := BitVec.ofNat 8 (digitSum ts)

/-- `unpack5(b)[j] = ((b div 3^j) mod 3) - 1` for j in 0 .. 4, for every byte (41_packer R121, R126). -/
def unpack5 (b : Byte) : List Trit := (List.range 5).map fun j => Trit.ofDigit (b.toNat / 3 ^ j % 3)

end Sys2Proof.Machine
end

