-- ==== Sys2Proof/Machine/Float.lean ====
section
/-! DEFINITION. The floating-point primitives of 00_scope R13, exactly: every finite binary32 is an integer times 2^-149,
so a finite value is held as that integer and no rational arithmetic is rounded before the spec rounds it (00_scope R9).
With them the scalar codec's `enc` and `dec` (40_scalar R103, R104). -/

namespace Sys2Proof.Machine

/-- `f32(b)`: NaN, an infinity, or a rational, held as the integer `scaled` whose value is `scaled / 2^149` (00_scope R13). -/
inductive F32 where
  | nan
  | inf (negative : Bool)
  | finite (scaled : Int)
deriving DecidableEq, Repr

/-- What a finite value is multiplied by to make it an integer: the least positive binary32 is 2^-149. -/
def f32Scale : Nat := 2 ^ 149

/-- 2^149 times the magnitude of the binary32 whose exponent and fraction fields together are the number `p` (00_scope R13):
subnormals for exponent 0, else an implicit leading one. -/
def f32Magnitude (p : Nat) : Nat :=
  if p / 2 ^ 23 = 0 then p % 2 ^ 23 else (2 ^ 23 + p % 2 ^ 23) * 2 ^ (p / 2 ^ 23 - 1)

/-- The value of a 32-bit pattern read as IEEE 754 binary32 (00_scope R13): sign b[31], exponent b[30:23], fraction b[22:0]. -/
def f32 (b : BitVec 32) : F32 :=
  if b.extractLsb' 23 8 = 255#8 then
    if b.extractLsb' 0 23 ≠ 0#23 then .nan else .inf (b.getLsbD 31)
  else
    .finite (if b.getLsbD 31 then -(f32Magnitude (b.extractLsb' 0 31).toNat : Int)
      else (f32Magnitude (b.extractLsb' 0 31).toNat : Int))

/-- `round_haz(num / den)`: the nearest integer, ties away from zero, `sign(q)·((|q| + 1/2) div 1)` (00_scope R13). -/
def roundHaz (num : Int) (den : Nat) : Int := num.sign * (((2 * num.natAbs + den) / (2 * den) : Nat) : Int)

/-- The largest `p' ≤ p + 2^bits - 1` from `p` on, found bit by bit, whose magnitude is at most `num / den`: rounding
towards zero onto the binary32 patterns, whose magnitudes rise with the pattern. -/
def f32Floor (num den : Nat) : Nat → Nat → Nat
  | 0, p => p
  | bits + 1, p =>
    f32Floor num den bits (if f32Magnitude (p + 2 ^ bits) * den ≤ num * f32Scale then p + 2 ^ bits else p)

/-- The pattern, sign apart, nearest to `num / den`, ties to the pattern whose fraction is even (00_scope R13). -/
def f32Nearest (num den : Nat) : Nat :=
  let lo := f32Floor num den 31 0
  if 2 * (num * f32Scale) < (f32Magnitude lo + f32Magnitude (lo + 1)) * den then lo
  else if (f32Magnitude lo + f32Magnitude (lo + 1)) * den < 2 * (num * f32Scale) then lo + 1
  else if lo % 2 = 0 then lo else lo + 1

/-- `RNE32(num / den)` for |num / den| ≤ 1 and den > 0 (00_scope R13); +0.0 for num = 0. A negative quotient that rounds to
zero would keep its sign (log 15); no command meets one (40_scalar R104). -/
def rne32 (num : Int) (den : Nat) : BitVec 32 :=
  if num < 0 then BitVec.ofNat 32 (2 ^ 31 + f32Nearest num.natAbs den) else BitVec.ofNat 32 (f32Nearest num.natAbs den)

/-- The value clamped to [-1, 1], scaled by 2^149; none for NaN (40_scalar R103: 'clamped to [-1, 1] ... silently
saturated, not rejected'). -/
def F32.clamped : F32 → Option Int
  | .nan => none
  | .inf true => some (-(f32Scale : Int))
  | .inf false => some (f32Scale : Int)
  | .finite z => some (if (f32Scale : Int) < z then (f32Scale : Int) else if z < -(f32Scale : Int) then -(f32Scale : Int) else z)

/-- The integer `k = round_haz(v · max_val(n))` that a binary32 pattern is quantized to; none for NaN (40_scalar R103). -/
def quantize (b : BitVec 32) (n : Nat) : Option Int := (f32 b).clamped.map fun v => roundHaz (v * (maxVal n : Int)) f32Scale

/-- `enc(b, n)`: the trits of a binary32 pattern; none for NaN, which the commands reject (40_scalar R103, 42_matrix R155). -/
def enc (b : BitVec 32) (n : Nat) : Option (List Trit) := (quantize b n).map fun k => btDigits k n

/-- `dec(t) = RNE32(bt_value(t) / max_val(n))` for the `n` trits of `t`: the exact quotient, rounded once (40_scalar R104). -/
def dec (ts : List Trit) : BitVec 32 := rne32 (btValue ts) (maxVal ts.length)

end Sys2Proof.Machine
end

