-- ==== Sys2Proof/Machine/Stream.lean ====
section
/-! DEFINITION. The trit stream and the packed buffer: the closed formulas that the matrix commands follow (42_matrix R140,
R144 to R147, R165), and the source's two streaming loops with their accumulator and cursor (42_matrix R151, R161;
10_state R39), which compute the same. -/

namespace Sys2Proof.Machine

/-- `R = ceil_div(E·n, 5)`, the packed bytes of `elems` elements of `n` trits, exact (42_matrix R140). -/
def requiredBytes (elems n : Nat) : Nat := (elems * n + 4) / 5

/-- `P = 5·R - T`, the pad trits of the last byte (42_matrix R140, R147). -/
def padTrits (elems n : Nat) : Nat := 5 * requiredBytes elems n - elems * n

/-- `wraps(a, len)`: the range [a, a + len) passes the top of the address space (42_matrix R144). -/
def wraps (a len : Nat) : Bool := decide (Config.memSize < a + len)

/-- `overlap(a, la, b, lb)`: the ranges [a, a + la) and [b, b + lb) share a byte (42_matrix R144). -/
def overlap (a la b lb : Nat) : Bool := decide (0 < la ∧ 0 < lb ∧ a < b + lb ∧ b < a + la)

/-- The stream S: the elements' trits in row-major order, each least significant first, then pad trits of value 0 up to a
multiple of five (42_matrix R145). -/
def tritStream (elems : List (List Trit)) : List Trit :=
  elems.flatten ++ List.replicate (5 * ((elems.flatten.length + 4) / 5) - elems.flatten.length) .zero

/-- Byte j of a packed buffer is `pack5(S[5j .. 5j+4])` (42_matrix R146). -/
def packedBytes (elems : List (List Trit)) : List Byte :=
  (List.range ((tritStream elems).length / 5)).map fun j => pack5 (((tritStream elems).drop (5 * j)).take 5)

/-- The stream MDEC forms from the bytes: `S[s] = unpack5(B[s div 5])[s mod 5]` (42_matrix R165). -/
def unpackedStream (bytes : List Byte) : List Trit := bytes.flatMap unpack5

/-- Element e's trits, `t_e[i] = S[e·n + i]` for 0 ≤ i < n (42_matrix R165). -/
def elementTrits (stream : List Trit) (n e : Nat) : List Trit := (stream.drop (e * n)).take n

/-- The binary32 patterns of the `elems` elements that a packed buffer decodes to (42_matrix R165). -/
def decodedElements (bytes : List Byte) (n elems : Nat) : List (BitVec 32) :=
  (List.range elems).map fun e => dec (elementTrits (unpackedStream bytes) n e)

/-- A binary32 pattern as its four bytes, little-endian (20_memory R61, 00_scope R11). -/
def leBytes (b : BitVec 32) : List Byte :=
  [b.extractLsb' 0 8, b.extractLsb' 8 8, b.extractLsb' 16 8, b.extractLsb' 24 8]

/-- Four bytes as a binary32 pattern, the byte at the lowest address in bits 7:0 (20_memory R61, 00_scope R11). -/
def leWord (b0 b1 b2 b3 : Byte) : BitVec 32 := b3 ++ b2 ++ b1 ++ b0

/-- The state of the source's encode loop: the 'sliding 5-slot accumulator' and the bytes emitted so far, whose number is the
output index (10_state R39, 42_matrix R151). -/
structure EncLoop where
  acc : List Trit
  out : List Byte
deriving DecidableEq, Repr

/-- Append one trit; when the accumulator fills, pack it, advance the output index and reset the accumulator (42_matrix
R151). -/
def encLoopPush (l : EncLoop) (t : Trit) : EncLoop :=
  if (l.acc ++ [t]).length = Config.group then { acc := [], out := l.out ++ [pack5 (l.acc ++ [t])] }
  else { acc := l.acc ++ [t], out := l.out }

/-- The end of the loop: if 1..4 trits are left over, pad the remaining slots with trit 0 and emit one final byte
(42_matrix R151). -/
def encLoopFlush (l : EncLoop) : List Byte :=
  if l.acc.length = 0 then l.out
  else l.out ++ [pack5 (l.acc ++ List.replicate (Config.group - l.acc.length) .zero)]

/-- The source's streaming encode loop over the elements in row-major order (42_matrix R151). -/
def encodeLoop (elems : List (List Trit)) : List Byte :=
  encLoopFlush (elems.foldl (fun l ts => ts.foldl encLoopPush l) { acc := [], out := [] })

/-- The state of the source's decode loop: the bytes from the 'pointer into `packedBuffer`' on, and the trits of the most
recently unpacked group from the cursor on (10_state R39, 42_matrix R161). -/
structure DecLoop where
  rest : List Byte
  group : List Trit
deriving DecidableEq, Repr

/-- Pull one trit, unpacking a new byte when the cursor has reached 5; none when the buffer is exhausted (42_matrix R161,
R163). -/
def decLoopPull (l : DecLoop) : Option (Trit × DecLoop) :=
  match l.group with
  | t :: ts => some (t, { rest := l.rest, group := ts })
  | [] =>
    match l.rest with
    | [] => none
    | b :: bs =>
      match unpack5 b with
      | [] => none
      | t :: ts => some (t, { rest := bs, group := ts })

/-- Pull `n` trits, one element (42_matrix R161). -/
def decLoopElement : Nat → DecLoop → Option (List Trit × DecLoop)
  | 0, l => some ([], l)
  | n + 1, l =>
    match decLoopPull l with
    | none => none
    | some (t, l') =>
      match decLoopElement n l' with
      | none => none
      | some (ts, l'') => some (t :: ts, l'')

/-- Pull `elems` elements of `n` trits; none when the buffer runs out (42_matrix R161, R163). -/
def decLoopElements (n : Nat) : Nat → DecLoop → Option (List (List Trit))
  | 0, _ => some []
  | elems + 1, l =>
    match decLoopElement n l with
    | none => none
    | some (ts, l') =>
      match decLoopElements n elems l' with
      | none => none
      | some tss => some (ts :: tss)

/-- The source's streaming decode loop (42_matrix R161). -/
def decodeLoop (bytes : List Byte) (n elems : Nat) : Option (List (List Trit)) :=
  decLoopElements n elems { rest := bytes, group := [] }

end Sys2Proof.Machine
end

