-- ==== Sys2Proof/Machine/Operands.lean ====
section
/-! DEFINITION. The operands of a command, all read from the latches (10_state R36, 00_scope R10), the dimension checks of
42_matrix R142, and the footprints of 20_memory R64. -/

namespace Sys2Proof.Machine

/-- SENC's operand, `lat[ARG][31:0]` (40_scalar R103). -/
def Latches.float (l : Latches) : BitVec 32 := l.arg.extractLsb' 0 32

/-- UNPACK's operand, `lat[ARG][7:0]` (41_packer R123). -/
def Latches.byte (l : Latches) : Byte := l.arg.extractLsb' 0 8

/-- The trits 0 .. count-1 of `lat[TIN]`, or the index of the lowest one that holds code 0b10 (40_scalar R104, 41_packer
R122). -/
def Latches.trits (l : Latches) (count : Nat) : Except Nat (List Trit) := readTrits l.tinLo l.tinHi 0 count

/-- `rows`, a signed 64-bit integer (10_state R33). -/
def Latches.rowCount (l : Latches) : Int := l.rows.toInt

/-- `cols`, a signed 64-bit integer (10_state R33). -/
def Latches.colCount (l : Latches) : Int := l.cols.toInt

/-- `E = rows · cols`, exact (42_matrix R140); no element for a negative product. -/
def Latches.elems (l : Latches) : Nat := (l.rowCount * l.colCount).toNat

/-- SRC_ADDR as an unsigned integer (10_state R34). -/
def Latches.src (l : Latches) : Nat := l.srcAddr.toNat

/-- DST_ADDR as an unsigned integer (10_state R34). -/
def Latches.dst (l : Latches) : Nat := l.dstAddr.toNat

/-- MDEC's `packedSize`, SRC_LEN as an unsigned integer (42_matrix R160). -/
def Latches.len (l : Latches) : Nat := l.srcLen.toNat

/-- MENC's `outBuffer` capacity, DST_LEN as an unsigned integer (42_matrix R150). -/
def Latches.cap (l : Latches) : Nat := l.dstLen.toNat

/-- N is out of the range 1 .. 64 (42_matrix R142, 40_scalar R103). -/
def nOutOfRange (n : Nat) : Bool := decide (n < 1 ∨ Config.tpvMax < n)

/-- A dimension is out of the range 1 .. 2^31 - 1 (42_matrix R142). -/
def dimOutOfRange (d : Int) : Bool := decide (d < 1 ∨ Config.dimMax < d)

/-- `check_dims(n)`: the first dimension check that fails (42_matrix R142). -/
def checkDims (l : Latches) (n : Nat) : Option ArgDetail :=
  if dimOutOfRange l.rowCount then some .rowsRange
  else if dimOutOfRange l.colCount then some .colsRange
  else if nOutOfRange n then some .nRange
  else none

/-- The read footprint, as its first address and its length (20_memory R64); empty for a command without memory accesses
(R60). -/
def readRange (i : Instr) (l : Latches) : Nat × Nat :=
  match i with
  | .menc _ => (l.src, 4 * l.elems)
  | .mdec n => (l.src, requiredBytes l.elems n)
  | .senc _ => (0, 0)
  | .sdec _ => (0, 0)
  | .pack => (0, 0)
  | .unpack => (0, 0)
  | .reqb _ => (0, 0)

/-- The write footprint, as its first address and its length (20_memory R64); empty for a command without memory accesses
(R60). -/
def writeRange (i : Instr) (l : Latches) : Nat × Nat :=
  match i with
  | .menc _ => (l.dst, l.cap)
  | .mdec _ => (l.dst, 4 * l.elems)
  | .senc _ => (0, 0)
  | .sdec _ => (0, 0)
  | .pack => (0, 0)
  | .unpack => (0, 0)
  | .reqb _ => (0, 0)

/-- The address lies in the range. -/
def inRange (r : Nat × Nat) (a : Nat) : Bool := decide (r.1 ≤ a ∧ a < r.1 + r.2)

/-- The write access that covers address `a` of the write footprint: MDEC writes the 4-byte element that holds it, every
other command writes the byte (20_memory R61, R62). -/
def writeAccess (i : Instr) (l : Latches) (a : Nat) : Nat × AccessSize :=
  match i with
  | .mdec _ => (l.dst + 4 * ((a - l.dst) / 4), .four)
  | .menc _ => (a, .one)
  | .senc _ => (a, .one)
  | .sdec _ => (a, .one)
  | .pack => (a, .one)
  | .unpack => (a, .one)
  | .reqb _ => (a, .one)

/-- The addresses of the write accesses of a command, lowest first (42_matrix R158, R167). -/
def writeAddrs (i : Instr) (l : Latches) : List Nat :=
  match i with
  | .menc _ => (List.range l.cap).map fun j => l.dst + j
  | .mdec _ => (List.range l.elems).map fun e => l.dst + 4 * e
  | .senc _ => []
  | .sdec _ => []
  | .pack => []
  | .unpack => []
  | .reqb _ => []

/-- The size of a command's write accesses (20_memory R66). -/
def writeSize (i : Instr) : AccessSize :=
  match i with
  | .mdec _ => .four
  | .menc _ => .one
  | .senc _ => .one
  | .sdec _ => .one
  | .pack => .one
  | .unpack => .one
  | .reqb _ => .one

end Sys2Proof.Machine
end

