-- ==== Sys2Proof/Machine/Ops.lean ====
section
/-! DEFINITION. The named operations: memory and its canonical form, the memory port, completion (which is TCODEC's
exception entry as well, 60_exceptions R197), acceptance, the register window, the host's memory accesses and reset. -/

namespace Sys2Proof.Machine

/-! ### Memory (10_state R20) -/

/-- What an address that is not listed reads as (log 1). -/
def unlistedByte : Byte := 0#8

/-- The byte at an address. -/
def Memory.read : Memory → Nat → Byte
  | [], _ => unlistedByte
  | (c, x) :: m, a => if a = c then x else Memory.read m a

/-- The list with the byte at `a` replaced, in canonical form. -/
def Memory.put : Memory → Nat → Byte → Memory
  | [], a, b => if b = unlistedByte then [] else [(a, b)]
  | (c, x) :: m, a, b =>
    if a < c then (if b = unlistedByte then (c, x) :: m else (a, b) :: (c, x) :: m)
    else if a = c then (if b = unlistedByte then m else (a, b) :: m)
    else (c, x) :: Memory.put m a b

/-- Write one byte; there is no byte at or past 2^64 (10_state R20). -/
def Memory.write (m : Memory) (a : Nat) (b : Byte) : Memory := if a < Config.memSize then Memory.put m a b else m

/-- Write `f a` at every address `a` of [base, base + count) for which `f` gives a byte. -/
def Memory.fill (m : Memory) (base : Nat) : Nat → (Nat → Option Byte) → Memory
  | 0, _ => m
  | k + 1, f =>
    match f (base + k) with
    | some b => Memory.write (Memory.fill m base k f) (base + k) b
    | none => Memory.fill m base k f

/-- Write a list of bytes from `base` on. -/
def Memory.writeBytes (m : Memory) (base : Nat) (bytes : List Byte) : Memory :=
  Memory.fill m base bytes.length fun a => bytes[a - base]?

/-- The canonical form: addresses strictly rising and below 2^64, no entry equal to what an unlisted address reads as. -/
def Memory.wf : Memory → Bool
  | [] => true
  | (a, b) :: m =>
    decide (a < Config.memSize) && decide (b ≠ unlistedByte) && m.all (fun c => decide (a < c.1)) && Memory.wf m

/-! ### The memory port (20_memory R60, R68) -/

/-- The bytes of an access. -/
def AccessSize.bytes : AccessSize → Nat
  | .one => 1
  | .four => 4

/-- The access touches the register window, TCODEC_BASE .. TCODEC_BASE + 0xFF (20_memory R69, 10_state R20). DESIGN CHOICE
(log 22): the window of a base above 2^64 - 256 ends at the top of the address space and does not wrap. -/
def touchesWindow (p : Platform) (addr : Nat) (size : AccessSize) : Bool :=
  overlap addr size.bytes p.tcodecBase.toNat Config.windowSize

/-- The hole takes in the access. -/
def BusHole.covers (h : BusHole) (addr : Nat) (size : AccessSize) (dir : Dir) : Bool :=
  decide (h.first ≤ addr ∧ addr < h.first + h.count ∧ h.size = size ∧ h.dir = dir)

/-- `BusOK(addr, size, dir)` (20_memory R68): the platform's predicate, and false on the register window (R69). -/
def busOK (p : Platform) (addr : Nat) (size : AccessSize) (dir : Dir) : Bool :=
  !touchesWindow p addr size && !(p.holes.any fun h => h.covers addr size dir)

/-- The byte the engine reads at an address: what memory holds, or any value where the host wrote it while BUSY = 1
(20_memory R70, R72; log 8). -/
def State.portByte (s : State) (a : Nat) : Byte :=
  if a ∈ s.engine.racedReads then Config.racedReadByte s.draws a else s.mem.read a

/-- `MemRead(a, 4)`: a float element (00_scope R11, 20_memory R61). -/
def State.portFloat (s : State) (a : Nat) : BitVec 32 :=
  leWord (s.portByte a) (s.portByte (a + 1)) (s.portByte (a + 2)) (s.portByte (a + 3))

/-- The write access that covers `a` completes (42_matrix R158, R167; 70_reset R221). -/
def writable (p : Platform) (i : Instr) (l : Latches) (a : Nat) : Bool :=
  busOK p (writeAccess i l a).1 (writeAccess i l a).2 .write

/-- The set F of failing write addresses, lowest first (42_matrix R158, R167). -/
def failingWrites (p : Platform) (i : Instr) (l : Latches) : List Nat :=
  (writeAddrs i l).filter fun x => !busOK p x (writeSize i) .write

/-! ### Completion, the exception entry of TCODEC (60_exceptions R181, R197) -/

/-- `finish(err, detail, addr)`: STATUS and ERR_ADDR take the verdict, BUSY falls, DONE rises, the hidden state is discarded
(60_exceptions R181, 00_scope R12). An error is no trap: this is all that taking one does (60_exceptions R197). -/
def State.finish (v : Verdict) (s : State) : State :=
  { s with status := s.status.finished v, errAddr := v.errAddr, engine := Engine.idle }

/-- The host broke 20_memory R72 during the running command (log 8). -/
def Engine.raced (e : Engine) : Bool := e.racedWrite || !e.racedReads.isEmpty

/-- Memory after a race: any value at every address of the write footprint (20_memory R72; log 8, log 9). -/
def State.racedMem (i : Instr) (s : State) : Memory :=
  s.mem.fill (writeRange i s.engine.lat).1 (writeRange i s.engine.lat).2 fun a => some (Config.racedWriteByte s.draws a)

/-- A race leaves every byte of the write footprint with any value at completion (20_memory R72; log 8, log 9). -/
def State.settle (i : Instr) (s : State) : State := if s.engine.raced then { s with mem := s.racedMem i } else s

/-- Completion of a command that uses memory: races are settled, then `finish`. -/
def State.conclude (i : Instr) (v : Verdict) (s : State) : State := (s.settle i).finish v

/-- Memory after BUS_ERROR WRITE: any value at each address of the write footprint whose access completes, the rest
unchanged (42_matrix R158, R167; log 7). -/
def State.spoiledMem (i : Instr) (s : State) : Memory :=
  s.mem.fill (writeRange i s.engine.lat).1 (writeRange i s.engine.lat).2 fun a =>
    if writable s.platform i s.engine.lat a then some (Config.writeErrorByte s.draws a) else none

/-- The state in which BUS_ERROR WRITE has spoiled the write footprint (42_matrix R158, R167; log 7). -/
def State.spoil (i : Instr) (s : State) : State := { s with mem := s.spoiledMem i }

/-- The failing address that BUS_ERROR WRITE reports, a draw among them (42_matrix R158, R167; 93 I23; log 7). -/
def State.reportedWrite (s : State) (x : Nat) (xs : List Nat) : Nat :=
  (x :: xs).getD (Config.writeErrorChoice s.draws % (xs.length + 1)) x

/-- The last phase of MENC and MDEC: write the whole write footprint and complete with OK, or with BUS_ERROR WRITE when a
write of it fails (42_matrix R156, R158, R165, R167). -/
def State.writeOut (i : Instr) (bytes : List Byte) (s : State) : State :=
  match failingWrites s.platform i s.engine.lat with
  | [] => ({ s with mem := s.mem.writeBytes (writeRange i s.engine.lat).1 bytes } : State).conclude i .ok
  | x :: xs => (s.spoil i).conclude i (.busError .write (BitVec.ofNat 64 (s.reportedWrite x xs)))

/-! ### The return from an exception: the host's acknowledge (60_exceptions R198) -/

/-- A host write of `w` to STATUS acknowledges a completion and restores nothing (60_exceptions R198, 10_state R27). -/
def State.acknowledge (w : Word) (s : State) : State := { s with status := s.status.clear w }

/-! ### Acceptance (30_encoding R84, R85) -/

/-- The latches as acceptance of command word `w` fills them (30_encoding R85). -/
def State.latched (w : Word) (s : State) : Latches :=
  { cmd := w, arg := s.arg, tinLo := s.tinLo, tinHi := s.tinHi, rows := s.rows, cols := s.cols, srcAddr := s.srcAddr,
    srcLen := s.srcLen, dstAddr := s.dstAddr, dstLen := s.dstLen }

/-- Acceptance of command word `w` (30_encoding R84); each command gets a fresh draw number (log 6). -/
def State.accept (w : Word) (s : State) : State :=
  { s with
    cmd := w, status := s.status.accepted, engine := { lat := s.latched w, racedReads := [], racedWrite := false },
    draws := s.draws + 1 }

/-- A host write of `w` to CMD: ignored with OVR while BUSY = 1, else accepted (30_encoding R84). -/
def State.issue (w : Word) (s : State) : State :=
  if s.status.busy then { s with status := s.status.overrun } else s.accept w

/-! ### The register window (10_state R21 to R35) -/

/-- The value a host read of an offset returns; a reserved offset reads as zero (10_state R22, R23). -/
def State.readReg (s : State) (off : Nat) : Word :=
  match off with
  | 0x00 => Config.idValue
  | 0x08 => s.cmd
  | 0x10 => s.status.word
  | 0x18 => ctrlWord s.irqEn
  | 0x20 => s.arg
  | 0x28 => s.tinLo
  | 0x30 => s.tinHi
  | 0x38 => s.toutLo
  | 0x40 => s.toutHi
  | 0x48 => s.result
  | 0x50 => s.rows
  | 0x58 => s.cols
  | 0x60 => s.srcAddr
  | 0x68 => s.srcLen
  | 0x70 => s.dstAddr
  | 0x78 => s.dstLen
  | 0x80 => s.errAddr
  | _ => 0#64

/-- A host write of `v` to an offset; a write to a read-only register or a reserved offset has no effect (10_state R22,
R23). -/
def State.writeReg (s : State) (off : Nat) (v : Word) : State :=
  match off with
  | 0x08 => s.issue v
  | 0x10 => s.acknowledge v
  | 0x18 => { s with irqEn := v.getLsbD 0 }
  | 0x20 => { s with arg := v }
  | 0x28 => { s with tinLo := v }
  | 0x30 => { s with tinHi := v }
  | 0x50 => { s with rows := v }
  | 0x58 => { s with cols := v }
  | 0x60 => { s with srcAddr := v }
  | 0x68 => { s with srcLen := v }
  | 0x70 => { s with dstAddr := v }
  | 0x78 => { s with dstLen := v }
  | _ => s

/-- The offset of a host-bus address in the window TCODEC_BASE .. TCODEC_BASE + 0xFF; none outside it (10_state R20; log 18).
DESIGN CHOICE (log 22): the window of a base above 2^64 - 256 ends at the top of the address space and does not wrap, as
`touchesWindow` has it on the memory port. -/
def Platform.offset (p : Platform) (addr : Word) : Option Nat :=
  if p.tcodecBase.toNat ≤ addr.toNat ∧ addr.toNat < p.tcodecBase.toNat + Config.windowSize then
    some (addr.toNat - p.tcodecBase.toNat)
  else none

/-- A 64-bit access at an 8-byte-aligned offset (10_state R21). DESIGN CHOICE (log 23): the spec gives TCODEC_BASE no
alignment; alignment is that of the offset, which R21's error condition names, whatever the base. -/
def legalAccess (off size : Nat) : Bool := decide (size = 8 ∧ off % 8 = 0)

/-- A host read on the host port (10_state R21): the value, or the error response, which changes no state of TCODEC. -/
def State.hostRead (addr : Word) (size : Nat) (s : State) : State :=
  match s.platform.offset addr with
  | none => { s with response := .none }
  | some off =>
    if legalAccess off size then { s with response := .data (s.readReg off) } else { s with response := .error }

/-- A host write on the host port (10_state R21). -/
def State.hostWrite (addr : Word) (size : Nat) (v : Word) (s : State) : State :=
  match s.platform.offset addr with
  | none => { s with response := .none }
  | some off =>
    if legalAccess off size then { s.writeReg off v with response := .written } else { s with response := .error }

/-! ### The host's own memory accesses (20_memory R70, R72; log 13) -/

/-- The read footprint of the running command; empty with none running or an illegal command word. -/
def State.busyReadRange (s : State) : Nat × Nat :=
  if s.status.busy then
    match decode s.engine.lat.cmd with
    | .ok i => readRange i s.engine.lat
    | .error _ => (0, 0)
  else (0, 0)

/-- The write footprint of the running command; empty with none running or an illegal command word. -/
def State.busyWriteRange (s : State) : Nat × Nat :=
  if s.status.busy then
    match decode s.engine.lat.cmd with
    | .ok i => writeRange i s.engine.lat
    | .error _ => (0, 0)
  else (0, 0)

/-- A host read of a byte of memory: any value in the running command's write footprint (20_memory R72). -/
def State.hostLoad (addr : Word) (s : State) : State :=
  if inRange s.busyWriteRange addr.toNat then
    { s with response := .byte (Config.racedHostByte s.draws addr.toNat), draws := s.draws + 1 }
  else { s with response := .byte (s.mem.read addr.toNat) }

/-- The engine's record of a host write at an address while it runs (20_memory R72; log 8). -/
def State.noteRace (a : Nat) (s : State) : Engine :=
  { s.engine with
    racedReads := if inRange s.busyReadRange a then a :: s.engine.racedReads else s.engine.racedReads,
    racedWrite := s.engine.racedWrite || inRange s.busyWriteRange a }

/-- A host write of a byte of memory becomes visible; in a footprint of the running command it is a race (20_memory R70,
R72). -/
def State.hostStore (addr : Word) (b : Byte) (s : State) : State :=
  { s with mem := s.mem.write addr.toNat b, engine := s.noteRace addr.toNat, response := .stored }

/-! ### The platform (20_memory R68, 70_reset R220, R221) -/

/-- BusOK changes; while a command runs it is fixed, and the change has no effect (20_memory R68; log 4). -/
def State.remap (holes : List BusHole) (s : State) : State :=
  if s.status.busy then s else { s with platform := { s.platform with holes := holes } }

/-- Memory after a reset: an abandoned command's write footprint holds any value where its writes complete, every other byte
is as before (70_reset R221, R222; log 10). -/
def State.resetMem (s : State) : Memory :=
  if s.status.busy then
    match decode s.engine.lat.cmd with
    | .ok i =>
      s.mem.fill (writeRange i s.engine.lat).1 (writeRange i s.engine.lat).2
        (fun a => if writable s.platform i s.engine.lat a then some (Config.resetByte s.draws a) else none)
    | .error _ => s.mem
  else s.mem

/-- Reset (70_reset R220 to R222): every register at its reset value, the engine idle, memory as `resetMem` says. The
platform's parameters and what the host does next are no registers of TCODEC and stay (log 21). -/
def State.doReset (s : State) : State :=
  { State.reset with mem := s.resetMem, platform := s.platform, inputs := s.inputs, draws := s.draws + 1 }

end Sys2Proof.Machine
end

