-- ==== Sys2Proof/Machine/Matrix.lean ====
section
/-! DEFINITION. The matrix codec: REQB, MENC and MDEC (42_matrix R148, R150 to R159, R160 to R168). -/

namespace Sys2Proof.Machine

/-- REQB n (42_matrix R148): the dimension checks, SIZE_OVERFLOW for R ≥ 2^64, else R in RESULT. -/
def execReqb (n : Nat) (s : State) : Host.Outcome State Fault Refusal :=
  match checkDims s.engine.lat n with
  | some why => .next (s.finish (.invalidArgument why 0#64))
  | none =>
    if 2 ^ 64 ≤ requiredBytes s.engine.lat.elems n then .next (s.finish (.invalidArgument .sizeOverflow 0#64))
    else .next (({ s with result := BitVec.ofNat 64 (requiredBytes s.engine.lat.elems n) } : State).finish .ok)

/-- `validate_menc()`: the first check that fails (42_matrix R152). -/
def validateMenc (l : Latches) (n : Nat) : Option ArgDetail :=
  if l.src = 0 then some .nullSrc
  else if l.dst = 0 then some .nullDst
  else match checkDims l n with
    | some why => some why
    | none =>
      if l.cap < requiredBytes l.elems n then some .capacity
      else if l.src % 4 ≠ 0 then some .misaligned
      else if wraps l.src (4 * l.elems) || wraps l.dst l.cap then some .rangeWrap
      else if overlap l.src (4 * l.elems) l.dst l.cap then some .overlap
      else none

/-- `scan_menc()` from element `e` on, for `count` elements: the trits of each, or the failure at the lowest element
(42_matrix R154, R155). -/
def scanMenc (n : Nat) (s : State) (e : Nat) : Nat → Except Verdict (List (List Trit))
  | 0 => .ok []
  | count + 1 =>
    if !busOK s.platform (s.engine.lat.src + 4 * e) .four .read then
      .error (.busError .read (BitVec.ofNat 64 (s.engine.lat.src + 4 * e)))
    else
      match enc (s.portFloat (s.engine.lat.src + 4 * e)) n with
      | none => .error (.invalidArgument .nanValue (BitVec.ofNat 64 (s.engine.lat.src + 4 * e)))
      | some ts =>
        match scanMenc n s (e + 1) count with
        | .error v => .error v
        | .ok tss => .ok (ts :: tss)

/-- What MENC leaves in [dst, dst + cap): the packed bytes, then zeros (42_matrix R156, R157). -/
def mencOutput (l : Latches) (elems : List (List Trit)) : List Byte :=
  packedBytes elems ++ List.replicate (l.cap - (packedBytes elems).length) 0x00#8

/-- MENC n (42_matrix R150): validate, scan, write. -/
def execMenc (n : Nat) (s : State) : Host.Outcome State Fault Refusal :=
  match validateMenc s.engine.lat n with
  | some why => .next (s.conclude (.menc n) (.invalidArgument why 0#64))
  | none =>
    match scanMenc n s 0 s.engine.lat.elems with
    | .error v => .next (s.conclude (.menc n) v)
    | .ok tss => .next (s.writeOut (.menc n) (mencOutput s.engine.lat tss))

/-- `validate_mdec()`: the first check that fails, BUFFER_EXHAUSTED last (42_matrix R162, R163). -/
def validateMdec (l : Latches) (n : Nat) : Option Verdict :=
  if l.src = 0 then some (.invalidArgument .nullSrc 0#64)
  else if l.dst = 0 then some (.invalidArgument .nullDst 0#64)
  else match checkDims l n with
    | some why => some (.invalidArgument why 0#64)
    | none =>
      if l.dst % 4 ≠ 0 then some (.invalidArgument .misaligned 0#64)
      else if wraps l.src l.len || wraps l.dst (4 * l.elems) then some (.invalidArgument .rangeWrap 0#64)
      else if overlap l.src (min l.len (requiredBytes l.elems n)) l.dst (4 * l.elems) then
        some (.invalidArgument .overlap 0#64)
      else if l.len < requiredBytes l.elems n then some .bufferExhausted
      else none

/-- `read_mdec()` from byte `j` on, for `count` bytes: the bytes, or the failure at the lowest one (42_matrix R164). -/
def readMdec (s : State) (j : Nat) : Nat → Except Verdict (List Byte)
  | 0 => .ok []
  | count + 1 =>
    if !busOK s.platform (s.engine.lat.src + j) .one .read then
      .error (.busError .read (BitVec.ofNat 64 (s.engine.lat.src + j)))
    else
      match readMdec s (j + 1) count with
      | .error v => .error v
      | .ok bs => .ok (s.portByte (s.engine.lat.src + j) :: bs)

/-- What MDEC leaves in [dst, dst + 4E): the elements in row-major order, little-endian (42_matrix R165). -/
def mdecOutput (l : Latches) (n : Nat) (bytes : List Byte) : List Byte := (decodedElements bytes n l.elems).flatMap leBytes

/-- MDEC n (42_matrix R160): validate, read, write. -/
def execMdec (n : Nat) (s : State) : Host.Outcome State Fault Refusal :=
  match validateMdec s.engine.lat n with
  | some v => .next (s.conclude (.mdec n) v)
  | none =>
    match readMdec s 0 (requiredBytes s.engine.lat.elems n) with
    | .error v => .next (s.conclude (.mdec n) v)
    | .ok bytes => .next (s.writeOut (.mdec n) (mdecOutput s.engine.lat n bytes))

end Sys2Proof.Machine
end

