-- ==== Sys2Proof/Machine/Packer.lean ====
section
/-! DEFINITION. The byte packer: PACK and UNPACK (41_packer R122, R123). -/

namespace Sys2Proof.Machine

/-- PACK (41_packer R122): BAD_TRIT at the lowest index among trits 0..4, else `pack5` in RESULT. -/
def execPack (s : State) : Host.Outcome State Fault Refusal :=
  match s.engine.lat.trits Config.group with
  | .error i => .next (s.finish (.invalidArgument .badTrit (BitVec.ofNat 64 i)))
  | .ok ts => .next (({ s with result := (pack5 ts).setWidth 64 } : State).finish .ok)

/-- UNPACK (41_packer R123): the five trits of `unpack5` in TOUT, every other position 0b00; it never fails. -/
def execUnpack (s : State) : Host.Outcome State Fault Refusal :=
  .next (({ s with toutLo := tritsLo (unpack5 s.engine.lat.byte), toutHi := tritsHi (unpack5 s.engine.lat.byte) } : State).finish
    .ok)

end Sys2Proof.Machine
end

