-- ==== Sys2Proof/Machine/Scalar.lean ====
section
/-! DEFINITION. The scalar codec: SENC and SDEC (40_scalar R103, R104). -/

namespace Sys2Proof.Machine

/-- SENC n (40_scalar R103): N_RANGE, then NAN_VALUE, else the n trits of `enc` in TOUT, every other position 0b00. -/
def execSenc (n : Nat) (s : State) : Host.Outcome State Fault Refusal :=
  if nOutOfRange n then .next (s.finish (.invalidArgument .nRange 0#64))
  else
    match enc s.engine.lat.float n with
    | none => .next (s.finish (.invalidArgument .nanValue 0#64))
    | some ts => .next (({ s with toutLo := tritsLo ts, toutHi := tritsHi ts } : State).finish .ok)

/-- SDEC n (40_scalar R104): N_RANGE for n > 64; +0.0 for n = 0; BAD_TRIT at the lowest index; else `dec` of the n trits in
RESULT. -/
def execSdec (n : Nat) (s : State) : Host.Outcome State Fault Refusal :=
  if Config.tpvMax < n then .next (s.finish (.invalidArgument .nRange 0#64))
  else if n = 0 then .next (({ s with result := 0#64 } : State).finish .ok)
  else
    match s.engine.lat.trits n with
    | .error i => .next (s.finish (.invalidArgument .badTrit (BitVec.ofNat 64 i)))
    | .ok ts => .next (({ s with result := (dec ts).setWidth 64 } : State).finish .ok)

end Sys2Proof.Machine
end

