-- ==== Sys2Proof/Machine/Dispatch.lean ====
section
/-! DEFINITION. The one dispatch of the commands to their meanings (30_encoding R90). -/

namespace Sys2Proof.Machine

def exec (i : Instr) (s : State) : Host.Outcome State Fault Refusal :=
  match i with
  | .senc n => Sys2Proof.Machine.execSenc n s
  | .sdec n => Sys2Proof.Machine.execSdec n s
  | .pack => Sys2Proof.Machine.execPack s
  | .unpack => Sys2Proof.Machine.execUnpack s
  | .reqb n => Sys2Proof.Machine.execReqb n s
  | .menc n => Sys2Proof.Machine.execMenc n s
  | .mdec n => Sys2Proof.Machine.execMdec n s

end Sys2Proof.Machine
end

