-- ==== Sys2Proof/Machine/Engine.lean ====
section
/-! DEFINITION. What one step does: the engine's turn (30_encoding R90) and the delivery of one input of the host or the
platform. -/

namespace Sys2Proof.Machine

/-- The engine's turn. With a command in flight it decodes `lat[CMD]` and completes it, an illegal word with ILLEGAL_COMMAND
(30_encoding R83, R90); idle, it keeps every register (60_exceptions R207). -/
def runEngine (s : State) : Host.Outcome State Fault Refusal :=
  if s.status.busy then
    match decode s.engine.lat.cmd with
    | .error why => .next (s.finish (.illegalCommand why))
    | .ok i => exec i s
  else .next s

/-- One input takes effect. -/
def deliver (x : Input) (s : State) : Host.Outcome State Fault Refusal :=
  match x with
  | .regRead addr size => .next (s.hostRead addr size)
  | .regWrite addr size v => .next (s.hostWrite addr size v)
  | .memRead addr => .next (s.hostLoad addr)
  | .memWrite addr b => .next (s.hostStore addr b)
  | .engine => runEngine s
  | .reset => .next s.doReset
  | .busMap holes => .next (s.remap holes)

/-- The turn that `inputs` gives: the first input, or the engine when none is left (70_reset R240; log 2). -/
def takeTurn (s : State) : Host.Outcome State Fault Refusal :=
  match s.inputs with
  | [] => runEngine s
  | x :: rest => deliver x { s with inputs := rest }

/-- The state in which command word `w` has just been accepted and the engine moves next (30_encoding R84, R85; log 11). -/
def State.withCommand (s : State) (w : Word) : State :=
  { s.accept w with inputs := if s.inputs.isEmpty then [] else .engine :: s.inputs }

end Sys2Proof.Machine
end

