-- ==== Sys2Proof/Machine/Step.lean ====
section
/-! DEFINITION. One step of the machine, and the placing of a command word where the next step runs it. -/

namespace Sys2Proof.Machine

/-- One step: the host's or the platform's next input, or the engine's turn (00_scope R16, 70_reset R240). -/
def step (s : State) : Host.Outcome State Fault Refusal := takeTurn s

/-- `s` with the `nbits`-bit command word `w` accepted and the engine's turn next: the very next step runs it (log 11). -/
def State.withFetchWord (s : State) (nbits w : Nat) : State := s.withCommand (BitVec.ofNat 64 (w % 2 ^ nbits))

end Sys2Proof.Machine
end

