-- ==== Sys2Proof/Safety.lean ====
section
/-! DEFINITION. What counts as a safe state and a safe run, and the vocabulary of the statements: the conditions under which
the matrix commands pass their checks, the stream of a matrix by index, and values as rationals. -/

namespace Sys2Proof.Machine

/-! ### The invariant -/

/-- The (ERR, DETAIL) pairs of the table of 60_exceptions R180. -/
def statusCodes : List (Nat × Nat) :=
  [(0, 0), (1, 1), (1, 2), (1, 3), (1, 4), (1, 5), (1, 6), (1, 7), (1, 8), (1, 9), (1, 10), (1, 11), (1, 12), (2, 0), (3, 1),
    (3, 2), (4, 1), (4, 2), (4, 3)]

/-- ERR and DETAIL hold a row of the table of 60_exceptions R180; while BUSY = 1, DONE, ERR and DETAIL are 0 (10_state
R26). -/
def Status.legal (st : Status) : Bool :=
  decide ((st.err.toNat, st.detail.toNat) ∈ statusCodes) &&
    (!st.busy || (!st.done && decide (st.err = 0#4) && decide (st.detail = 0#8)))

/-- No trit position of TOUT holds code 0b10 (10_state R31). -/
def State.toutValid (s : State) : Bool := (List.range 64).all fun i => decide (tritCodeAt s.toutLo s.toutHi i ≠ 0b10#2)

/-- With no command in flight the hidden state is discarded; with one, `lat[CMD]` is the word that CMD shows (10_state R25,
R39; 60_exceptions R181), and the recorded races lie in its read footprint. -/
def State.engineLegal (s : State) : Bool :=
  if s.status.busy then
    decide (s.engine.lat.cmd = s.cmd) && s.engine.racedReads.all fun a => inRange s.busyReadRange a
  else decide (s.engine = Engine.idle)

/-- The invariant of TCODEC: STATUS is legal, TOUT holds trits, the engine is idle or runs the command that CMD shows, and
memory is in canonical form. -/
def State.inv (s : State) : Bool := s.status.legal && s.toutValid && s.engineLegal && s.mem.wf

/-! ### Safe runs -/

/-- A run of `k` steps ends in a state: no step faults and none refuses (60_exceptions R185). -/
def State.runsFor (s : State) (k : Nat) (t : State) : Prop := Host.Core.run Sys2Proof.core k s = .next t

/-! ### When the matrix commands pass their checks -/

/-- `E = rows · cols` for dimensions in the legal range, where the signed and the unsigned reading agree. -/
def Latches.area (l : Latches) : Nat := l.rows.toNat * l.cols.toNat

/-- ROWS, COLS and N are in their ranges (42_matrix R142). -/
abbrev Latches.dimsOk (l : Latches) (n : Nat) : Prop :=
  1 ≤ l.rows.toNat ∧ l.rows.toNat ≤ 2 ^ 31 - 1 ∧ 1 ≤ l.cols.toNat ∧ l.cols.toNat ≤ 2 ^ 31 - 1 ∧ 1 ≤ n ∧ n ≤ 64

/-- Every check of `validate_menc` passes (42_matrix R152). -/
abbrev Latches.mencOk (l : Latches) (n : Nat) : Prop :=
  l.src ≠ 0 ∧ l.dst ≠ 0 ∧ l.dimsOk n ∧ l.area * n ≤ 5 * l.cap ∧ l.src % 4 = 0 ∧ l.src + 4 * l.area ≤ 2 ^ 64 ∧
    l.dst + l.cap ≤ 2 ^ 64 ∧ (l.src + 4 * l.area ≤ l.dst ∨ l.dst + l.cap ≤ l.src)

/-- Every check of `validate_mdec` passes (42_matrix R162, R163). -/
abbrev Latches.mdecOk (l : Latches) (n : Nat) : Prop :=
  l.src ≠ 0 ∧ l.dst ≠ 0 ∧ l.dimsOk n ∧ l.dst % 4 = 0 ∧ l.src + l.len ≤ 2 ^ 64 ∧ l.dst + 4 * l.area ≤ 2 ^ 64 ∧
    l.area * n ≤ 5 * l.len ∧
    (l.src + (l.area * n + 4) / 5 ≤ l.dst ∨ l.dst + 4 * l.area ≤ l.src)

/-- Every engine access of MENC completes (20_memory R68). -/
abbrev State.mencBus (s : State) : Prop :=
  (∀ e, e < s.engine.lat.area → busOK s.platform (s.engine.lat.src + 4 * e) .four .read = true) ∧
    ∀ j, j < s.engine.lat.cap → busOK s.platform (s.engine.lat.dst + j) .one .write = true

/-- Every engine access of MDEC completes (20_memory R68). -/
abbrev State.mdecBus (s : State) (n : Nat) : Prop :=
  (∀ j, j < (s.engine.lat.area * n + 4) / 5 → busOK s.platform (s.engine.lat.src + j) .one .read = true) ∧
    ∀ e, e < s.engine.lat.area → busOK s.platform (s.engine.lat.dst + 4 * e) .four .write = true

/-- The host kept 20_memory R72 during the running command. -/
abbrev State.raceFree (s : State) : Prop := s.engine.racedReads = [] ∧ s.engine.racedWrite = false

/-! ### Values -/

/-- The float element that memory holds at an address (20_memory R61). -/
def memFloat (m : Memory) (a : Nat) : BitVec 32 := leWord (m.read a) (m.read (a + 1)) (m.read (a + 2)) (m.read (a + 3))

/-- Trit `p` of the stream of `elems` elements of `n` trits, `ts e` the trits of element e: `S[e·n + i] = t_e[i]`, and 0
past the last element (42_matrix R145). -/
def streamTrit (ts : Nat → List Trit) (elems n p : Nat) : Trit :=
  if p < elems * n then (ts (p / n)).getD (p % n) .zero else .zero

/-- The trit that digit `p mod 5` of byte `p div 5` of a buffer at `base` is: `S[s] = unpack5(B[s div 5])[s mod 5]`, with
`unpack5(b)[j] = ((b div 3^j) mod 3) - 1` (42_matrix R165, 41_packer R121). -/
def bufferTrit (m : Memory) (base p : Nat) : Trit := Trit.ofDigit ((m.read (base + p / 5)).toNat / 3 ^ (p % 5) % 3)

/-- The rational that a scaled finite value is (00_scope R13). -/
def scaledRat (z : Int) : ℚ := (z : ℚ) / 2 ^ 149

/-- The first entry whose condition holds: 'The first check that fails ends the command' (42_matrix R152). -/
def firstFailure {α : Type} : List (Bool × α) → Option α
  | [] => none
  | (c, a) :: rest => if c then some a else firstFailure rest

/-- The checks of REQB in their order, each with its condition as R142 and R148 write it. -/
abbrev Latches.reqbChecks (l : Latches) (n : Nat) : List (Bool × ArgDetail) :=
  [(decide (l.rows.toInt < 1 ∨ 2 ^ 31 - 1 < l.rows.toInt), .rowsRange),
    (decide (l.cols.toInt < 1 ∨ 2 ^ 31 - 1 < l.cols.toInt), .colsRange),
    (decide (n < 1 ∨ 64 < n), .nRange), (decide (5 * (2 ^ 64 - 1) < l.area * n), .sizeOverflow)]

/-- The checks of MENC in their order, each with its condition as the table of R152 writes it. -/
abbrev Latches.mencChecks (l : Latches) (n : Nat) : List (Bool × ArgDetail) :=
  [(decide (l.src = 0), .nullSrc), (decide (l.dst = 0), .nullDst),
    (decide (l.rows.toInt < 1 ∨ 2 ^ 31 - 1 < l.rows.toInt), .rowsRange),
    (decide (l.cols.toInt < 1 ∨ 2 ^ 31 - 1 < l.cols.toInt), .colsRange),
    (decide (n < 1 ∨ 64 < n), .nRange), (decide (5 * l.cap < l.area * n), .capacity), (decide (l.src % 4 ≠ 0), .misaligned),
    (decide (2 ^ 64 < l.src + 4 * l.area ∨ 2 ^ 64 < l.dst + l.cap), .rangeWrap),
    (decide (l.src < l.dst + l.cap ∧ l.dst < l.src + 4 * l.area), .overlap)]

/-- The checks of MDEC in their order, each with its condition as the table of R162 writes it, starvation (R163) last. -/
abbrev Latches.mdecChecks (l : Latches) (n : Nat) : List (Bool × Verdict) :=
  [(decide (l.src = 0), .invalidArgument .nullSrc 0#64), (decide (l.dst = 0), .invalidArgument .nullDst 0#64),
    (decide (l.rows.toInt < 1 ∨ 2 ^ 31 - 1 < l.rows.toInt), .invalidArgument .rowsRange 0#64),
    (decide (l.cols.toInt < 1 ∨ 2 ^ 31 - 1 < l.cols.toInt), .invalidArgument .colsRange 0#64),
    (decide (n < 1 ∨ 64 < n), .invalidArgument .nRange 0#64),
    (decide (l.dst % 4 ≠ 0), .invalidArgument .misaligned 0#64),
    (decide (2 ^ 64 < l.src + l.len ∨ 2 ^ 64 < l.dst + 4 * l.area), .invalidArgument .rangeWrap 0#64),
    (decide (0 < l.len ∧ l.src < l.dst + 4 * l.area ∧ l.dst < l.src + min l.len ((l.area * n + 4) / 5)),
      .invalidArgument .overlap 0#64),
    (decide (5 * l.len < l.area * n), .bufferExhausted)]

end Sys2Proof.Machine
end

