-- ==== Sys2Proof/Certificates/Slice0/Obligations.lean ====
section
/-! DEFINITION. The statements for the provers: encodings, what each command computes and leaves unchanged, the register
window, completion, reset, and the invariant that every step keeps. -/

open Sys2Proof Sys2Proof.Machine

/-! ### Command words (30_encoding) -/

/-- R80, R81: every command that a command word can hold is read back from its word. -/
def Obligations.DecodeEncodeRoundTrip : Prop := ∀ i : Instr, i.wellFormed = true → decode (encode i) = .ok i

/-- R80, R89: no word but its own encoding decodes to a command, so no bit of a word is dropped. -/
def Obligations.DecodedWordEncodesBack : Prop :=
  ∀ (w : Word) (i : Instr), decode w = .ok i → i.wellFormed = true ∧ encode i = w

/-- R83: the illegal words, by the bits of the word, in the order of the three tests. -/
def Obligations.IllegalWordsInOrder : Prop :=
  ∀ w : Word,
    (decode w = .error .reservedOp ↔ w.toNat % 16 = 0 ∨ 8 ≤ w.toNat % 16) ∧
    (decode w = .error .reservedBits ↔ (1 ≤ w.toNat % 16 ∧ w.toNat % 16 < 8) ∧ 2 ^ 11 ≤ w.toNat) ∧
    (decode w = .error .nonzeroN ↔ (w.toNat % 16 = 3 ∨ w.toNat % 16 = 4) ∧ w.toNat < 2 ^ 11 ∧ 16 ≤ w.toNat)

/-- R81, R83 (the inference R89 draws): every word is illegal or selects exactly one command, and each command's words are
those of its mask and match. -/
def Obligations.WordsMatchTheirMasks : Prop :=
  ∀ w : Word,
    ((∃ why, decode w = .error why) ∨ ∃! i, decode w = .ok i) ∧
    ((∃ n, decode w = .ok (.senc n)) ↔ w &&& 0xFFFFFFFFFFFFF80F#64 = 1#64) ∧
    ((∃ n, decode w = .ok (.sdec n)) ↔ w &&& 0xFFFFFFFFFFFFF80F#64 = 2#64) ∧
    (decode w = .ok .pack ↔ w &&& 0xFFFFFFFFFFFFFFFF#64 = 3#64) ∧
    (decode w = .ok .unpack ↔ w &&& 0xFFFFFFFFFFFFFFFF#64 = 4#64) ∧
    ((∃ n, decode w = .ok (.reqb n)) ↔ w &&& 0xFFFFFFFFFFFFF80F#64 = 5#64) ∧
    ((∃ n, decode w = .ok (.menc n)) ↔ w &&& 0xFFFFFFFFFFFFF80F#64 = 6#64) ∧
    ((∃ n, decode w = .ok (.mdec n)) ↔ w &&& 0xFFFFFFFFFFFFF80F#64 = 7#64)

/-- V-E2: command words that the spec writes out decode to the commands it names. -/
def Obligations.SpecWordsDecode : Prop :=
  decode 0x81#64 = .ok (.senc 8) ∧ decode 0x82#64 = .ok (.sdec 8) ∧ decode 0x3#64 = .ok .pack ∧
    decode 0x4#64 = .ok .unpack ∧ decode 0x55#64 = .ok (.reqb 5) ∧ decode 0x86#64 = .ok (.menc 8) ∧
    decode 0x417#64 = .ok (.mdec 65)

/-! ### Shared arithmetic (00_scope R13, 40_scalar, 41_packer, 42_matrix) -/

/-- R13: the value of a binary32 pattern, by its sign, exponent and fraction fields. -/
def Obligations.F32ReadsBinary32 : Prop :=
  ∀ b : BitVec 32,
    ((b.toNat / 2 ^ 23 % 256 = 255 ∧ b.toNat % 2 ^ 23 ≠ 0) → f32 b = .nan) ∧
    ((b.toNat / 2 ^ 23 % 256 = 255 ∧ b.toNat % 2 ^ 23 = 0) → f32 b = .inf (decide (2 ^ 31 ≤ b.toNat))) ∧
    (b.toNat / 2 ^ 23 % 256 = 0 →
      ∃ z, f32 b = .finite z ∧
        scaledRat z = (if 2 ^ 31 ≤ b.toNat then -1 else 1) * ((b.toNat % 2 ^ 23 : ℕ) : ℚ) * (2 : ℚ) ^ (-149 : ℤ)) ∧
    ((1 ≤ b.toNat / 2 ^ 23 % 256 ∧ b.toNat / 2 ^ 23 % 256 < 255) →
      ∃ z, f32 b = .finite z ∧
        scaledRat z = (if 2 ^ 31 ≤ b.toNat then -1 else 1) * ((2 ^ 23 + b.toNat % 2 ^ 23 : ℕ) : ℚ) *
          (2 : ℚ) ^ (((b.toNat / 2 ^ 23 % 256 : ℕ) : ℤ) - 150))

/-- R13, RNE32: the pattern is a binary32 value nearest to the quotient, an even pattern on a tie, and +0.0 for 0. -/
def Obligations.Rne32IsNearestEven : Prop :=
  ∀ (num : Int) (den : Nat), 0 < den → num.natAbs ≤ den →
    (num = 0 → rne32 num den = 0#32) ∧
    ∃ z, f32 (rne32 num den) = .finite z ∧
      ∀ (b : BitVec 32) (z' : Int), f32 b = .finite z' →
        |scaledRat z - (num : ℚ) / (den : ℚ)| ≤ |scaledRat z' - (num : ℚ) / (den : ℚ)| ∧
        (|scaledRat z - (num : ℚ) / (den : ℚ)| = |scaledRat z' - (num : ℚ) / (den : ℚ)| → z' ≠ z →
          (rne32 num den).getLsbD 0 = false)

/-- R13 round_haz, R103: what a pattern is quantized to; saturation, the nearest integer of the exact product, ties away from
zero. -/
def Obligations.QuantizeRoundsTheClampedProduct : Prop :=
  ∀ (b : BitVec 32) (n : Nat),
    (f32 b = .nan → quantize b n = none) ∧
    (f32 b = .inf false → quantize b n = some (maxVal n : Int)) ∧
    (f32 b = .inf true → quantize b n = some (-(maxVal n : Int))) ∧
    ∀ z, f32 b = .finite z → ∃ k : Int, quantize b n = some k ∧
      (1 ≤ scaledRat z → k = (maxVal n : Int)) ∧ (scaledRat z ≤ -1 → k = -(maxVal n : Int)) ∧
      (|scaledRat z| ≤ 1 →
        |(k : ℚ) - scaledRat z * (maxVal n : ℚ)| ≤ 1 / 2 ∧
        (|(k : ℚ) - scaledRat z * (maxVal n : ℚ)| = 1 / 2 → |scaledRat z * (maxVal n : ℚ)| < |(k : ℚ)|))

/-- R100, R102 (the bijection is R100's [from general knowledge]): the value of a trit sequence is `Σ t[i]·3^i`, in the
range ±(3^n - 1)/2, and every integer of the range has exactly one n-trit representation, which is the one that digit
extraction (R102) gives. -/
def Obligations.BalancedTernaryBijection : Prop :=
  (∀ ts : List Trit,
    btValue ts = ∑ i ∈ Finset.range ts.length, (ts.getD i .zero).val * 3 ^ i ∧
      (btValue ts).natAbs ≤ (3 ^ ts.length - 1) / 2) ∧
  ∀ (n : Nat) (k : Int), k.natAbs ≤ (3 ^ n - 1) / 2 →
    (∃! ts : List Trit, ts.length = n ∧ btValue ts = k) ∧ (btDigits k n).length = n ∧ btValue (btDigits k n) = k

/-- R101: max_val is exact, its listed values, and the widths the rule names. -/
def Obligations.MaxValIsExact : Prop :=
  (∀ n, 2 * maxVal n + 1 = 3 ^ n) ∧ maxVal 1 = 1 ∧ maxVal 2 = 4 ∧ maxVal 3 = 13 ∧ maxVal 4 = 40 ∧ maxVal 5 = 121 ∧
    maxVal 8 = 3280 ∧ maxVal 15 = 7174453 ∧ maxVal 16 = 21523360 ∧ maxVal 20 = 1743392200 ∧
    maxVal 40 = 6078832729528464400 ∧ maxVal 64 = 1716841910146256242328924544640 ∧ maxVal 64 < 2 ^ 101 ∧
    2 ^ 100 ≤ maxVal 64 ∧ 2 ^ 63 - 1 < 3 ^ 40

/-- R101, R103 (the inference R105 draws): the quantized integer is always representable, so `enc` loses no digit. -/
def Obligations.EncodedValueInRange : Prop :=
  ∀ (n : Nat) (b : BitVec 32), 1 ≤ n → n ≤ 64 → f32 b ≠ .nan →
    ∃ k ts, quantize b n = some k ∧ k.natAbs ≤ maxVal n ∧ enc b n = some ts ∧ ts.length = n ∧ btValue ts = k

/-- R103, R104 (the inference R106 draws): encoding and decoding a value of [-1, 1] moves it by at most 1/max_val(n). -/
def Obligations.ScalarRoundTripBound : Prop :=
  ∀ (n : Nat) (b : BitVec 32) (z : Int), 1 ≤ n → n ≤ 64 → f32 b = .finite z → |scaledRat z| ≤ 1 →
    ∃ ts z', enc b n = some ts ∧ f32 (dec ts) = .finite z' ∧ |scaledRat z' - scaledRat z| ≤ 1 / (maxVal n : ℚ)

/-- R103, R104 (the inference R107 draws): for n ≤ 15 every trit vector survives decoding and encoding; from n = 16 on the
law fails, at n = 16 for the vector the rule names. -/
def Obligations.TritRoundTripUpTo15 : Prop :=
  (∀ (n : Nat) (ts : List Trit), 1 ≤ n → n ≤ 15 → ts.length = n → enc (dec ts) n = some ts) ∧
    enc (dec (btDigits (-12014049) 16)) 16 = some (btDigits (-12014048) 16) ∧
    ∀ n, 16 ≤ n → n ≤ 64 → ∃ ts : List Trit, ts.length = n ∧ enc (dec ts) n ≠ some ts

/-- R120, R121 (the inference R124 draws): unpacking a packed byte gives the five trits back. -/
def Obligations.UnpackInvertsPack : Prop := ∀ ts : List Trit, ts.length = 5 → unpack5 (pack5 ts) = ts

/-- R125, R121, R126: a packed byte is at most 242; unpacking inverts packing on the bytes below 243, and is that of b - 243
from 243 on. -/
def Obligations.PackedBytesAndOthers : Prop :=
  (∀ ts : List Trit, ts.length = 5 → digitSum ts ≤ 242 ∧ (pack5 ts).toNat = digitSum ts) ∧
  ∀ b : Byte, (b.toNat < 243 → pack5 (unpack5 b) = b) ∧ (243 ≤ b.toNat → unpack5 b = unpack5 (b - 243#8))

/-- R140 (the inference R141 draws): requiredBytes never under-allocates, is minimal, and has the values of the source's
examples. -/
def Obligations.RequiredBytesIsMinimal : Prop :=
  (∀ elems n : Nat, elems * n ≤ 5 * requiredBytes elems n ∧
    (1 ≤ elems * n → 5 * (requiredBytes elems n - 1) < elems * n)) ∧
  requiredBytes (2 * 3) 5 = 6 ∧ requiredBytes (1 * 1) 1 = 1 ∧ requiredBytes (3 * 3) 5 = 9

/-- R145, R146 (the inference R151 draws): the source's streaming encode loop, with its accumulator, emits the bytes of the
closed formula. -/
def Obligations.EncodeLoopIsClosedFormula : Prop := ∀ elems : List (List Trit), encodeLoop elems = packedBytes elems

/-- R161, R163: the source's streaming decode loop, with its pointer and cursor, pulls the trits of the closed formula, and
runs out of input exactly when the buffer has fewer than requiredBytes bytes. -/
def Obligations.DecodeLoopIsClosedFormula : Prop :=
  ∀ (bytes : List Byte) (n elems : Nat),
    (requiredBytes elems n ≤ bytes.length →
      decodeLoop bytes n elems = some ((List.range elems).map fun e => elementTrits (unpackedStream bytes) n e)) ∧
    (bytes.length < requiredBytes elems n → decodeLoop bytes n elems = none)

/-! ### The scalar codec and the byte packer -/

/-- R103, R86: SENC of a value that is no NaN completes with OK; TOUT holds the digits of the quantized integer, each as its
2-bit two's complement, and 0b00 past them; nothing else changes but what completion writes. -/
def Obligations.SencWritesTrits : Prop :=
  ∀ (n : Nat) (s : State) (k : Int), 1 ≤ n → n ≤ 64 → quantize s.engine.lat.float n = some k →
    ∃ lo hi, exec (.senc n) s = .next (({ s with toutLo := lo, toutHi := hi } : State).finish .ok) ∧
      ∀ i, i < 64 → tritCodeAt lo hi i = if i < n then BitVec.ofInt 2 ((btDigits k n).getD i .zero).val else 0b00#2

/-- R103, R188: SENC's errors, N_RANGE before NAN_VALUE; nothing changes but what completion writes. -/
def Obligations.SencErrors : Prop :=
  ∀ (n : Nat) (s : State),
    (n < 1 ∨ 64 < n → exec (.senc n) s = .next (s.finish (.invalidArgument .nRange 0#64))) ∧
    (1 ≤ n → n ≤ 64 → f32 (s.engine.lat.arg.extractLsb' 0 32) = .nan →
      exec (.senc n) s = .next (s.finish (.invalidArgument .nanValue 0#64)))

/-- R104, R86: SDEC of n trits, each in its 2-bit two's complement, completes with OK; RESULT is the exact quotient rounded
once, +0.0 for n = 0; nothing else changes but what completion writes. Trits from n on may hold any code. -/
def Obligations.SdecWritesQuotient : Prop :=
  ∀ (n : Nat) (s : State) (ts : List Trit), n ≤ 64 → ts.length = n →
    (∀ i, i < n → tritCodeAt s.engine.lat.tinLo s.engine.lat.tinHi i = BitVec.ofInt 2 (ts.getD i .zero).val) →
    exec (.sdec n) s = .next (({ s with
      result := if n = 0 then 0#64 else
        (rne32 (∑ i ∈ Finset.range n, (ts.getD i .zero).val * 3 ^ i) (maxVal n)).setWidth 64 } : State).finish .ok)

/-- R104, R122, R188: the errors of the commands that read trits: SDEC's N_RANGE first, then BAD_TRIT with the lowest index
that holds code 0b10, among the n trits of SDEC and the five of PACK; nothing changes but what completion writes. -/
def Obligations.TritOperandErrors : Prop :=
  ∀ s : State,
    (∀ n, 64 < n → exec (.sdec n) s = .next (s.finish (.invalidArgument .nRange 0#64))) ∧
    ∀ j, tritCodeAt s.engine.lat.tinLo s.engine.lat.tinHi j = 0b10#2 →
      (∀ i, i < j → tritCodeAt s.engine.lat.tinLo s.engine.lat.tinHi i ≠ 0b10#2) →
      (∀ n, n ≤ 64 → j < n → exec (.sdec n) s = .next (s.finish (.invalidArgument .badTrit (BitVec.ofNat 64 j)))) ∧
      (j < 5 → exec .pack s = .next (s.finish (.invalidArgument .badTrit (BitVec.ofNat 64 j))))

/-- R120, R122, R86: PACK of five trits, each in its 2-bit two's complement, completes with OK; RESULT is `Σ (t[j] +
1)·3^j`; nothing else changes but what completion writes. -/
def Obligations.PackWritesByte : Prop :=
  ∀ (s : State) (ts : List Trit), ts.length = 5 →
    (∀ i, i < 5 → tritCodeAt s.engine.lat.tinLo s.engine.lat.tinHi i = BitVec.ofInt 2 (ts.getD i .zero).val) →
    exec .pack s = .next (({ s with
      result := BitVec.ofNat 64 (∑ j ∈ Finset.range 5, ((ts.getD j .zero).val + 1) * 3 ^ j).toNat } : State).finish .ok)

/-- R121, R123, R86: UNPACK completes with OK in every state; TOUT holds the five digits of ARG[7:0] less one, each as its
2-bit two's complement, and 0b00 past them;
nothing else changes but what completion writes. -/
def Obligations.UnpackWritesTrits : Prop :=
  ∀ s : State, ∃ lo hi, exec .unpack s = .next (({ s with toutLo := lo, toutHi := hi } : State).finish .ok) ∧
    ∀ i, i < 64 → tritCodeAt lo hi i =
      if i < 5 then BitVec.ofInt 2 (((s.engine.lat.arg.toNat % 256 / 3 ^ i % 3 : ℕ) : ℤ) - 1) else 0b00#2

/-! ### The matrix codec -/

/-- R140, R148: REQB with legal dimensions and a size that fits RESULT completes with OK and that size, the least count of
bytes that hold all trits; nothing else changes but what completion writes. -/
def Obligations.ReqbWritesSize : Prop :=
  ∀ (n : Nat) (s : State) (r : Word), s.engine.lat.dimsOk n →
    s.engine.lat.area * n ≤ 5 * r.toNat → 5 * r.toNat < s.engine.lat.area * n + 5 →
    exec (.reqb n) s = .next (({ s with result := r } : State).finish .ok)

/-- R142, R148: REQB's errors in their order. -/
def Obligations.ReqbErrors : Prop :=
  ∀ (n : Nat) (s : State) (why : ArgDetail),
    firstFailure (s.engine.lat.reqbChecks n) = some why →
    exec (.reqb n) s = .next (s.finish (.invalidArgument why 0#64))

/-- R145, R146, R154, R156, R157: a MENC whose checks and accesses all pass completes with OK; byte j of the output is
`Σ (S[5j+i] + 1)·3^i` of the trit stream of the encoded elements, the rest of the capacity is 0x00, every other byte of
memory and every register but what completion writes is unchanged. -/
def Obligations.MencWritesPackedMatrix : Prop :=
  ∀ (n : Nat) (s : State) (ts : Nat → List Trit),
    s.mem.wf = true → s.raceFree → s.engine.lat.mencOk n → s.mencBus →
    (∀ e, e < s.engine.lat.area → enc (memFloat s.mem (s.engine.lat.src + 4 * e)) n = some (ts e)) →
    ∃ m : Memory, exec (.menc n) s = .next (({ s with mem := m } : State).finish .ok) ∧ m.wf = true ∧
      ∀ a, m.read a =
        if s.engine.lat.dst ≤ a ∧ a < s.engine.lat.dst + (s.engine.lat.area * n + 4) / 5 then
          BitVec.ofNat 8 (∑ i ∈ Finset.range 5,
            (streamTrit ts s.engine.lat.area n (5 * (a - s.engine.lat.dst) + i)).digit * 3 ^ i)
        else if s.engine.lat.dst ≤ a ∧ a < s.engine.lat.dst + s.engine.lat.cap then 0x00#8
        else s.mem.read a

/-- R152, R153: a MENC that fails a check completes with the first one's code and changes nothing but what completion
writes, memory included. -/
def Obligations.MencErrorsInOrder : Prop :=
  ∀ (n : Nat) (s : State) (why : ArgDetail), s.raceFree →
    firstFailure (s.engine.lat.mencChecks n) = some why →
    exec (.menc n) s = .next (s.finish (.invalidArgument why 0#64))

/-- R153, R155: MENC reports the failure at the lowest element, a failing read or a NaN, with its address, and changes
nothing but what completion writes. -/
def Obligations.MencReportsLowestElement : Prop :=
  ∀ (n : Nat) (s : State) (e : Nat), s.raceFree → s.engine.lat.mencOk n → e < s.engine.lat.area →
    (∀ e', e' < e → busOK s.platform (s.engine.lat.src + 4 * e') .four .read = true ∧
      f32 (memFloat s.mem (s.engine.lat.src + 4 * e')) ≠ .nan) →
    (busOK s.platform (s.engine.lat.src + 4 * e) .four .read = false →
      exec (.menc n) s = .next (s.finish (.busError .read (BitVec.ofNat 64 (s.engine.lat.src + 4 * e))))) ∧
    (busOK s.platform (s.engine.lat.src + 4 * e) .four .read = true →
      f32 (memFloat s.mem (s.engine.lat.src + 4 * e)) = .nan →
      exec (.menc n) s = .next (s.finish (.invalidArgument .nanValue (BitVec.ofNat 64 (s.engine.lat.src + 4 * e)))))

/-- R158: a MENC with a failing write reports one of the failing addresses; bytes whose write fails and all memory outside
[dst, dst + cap) are unchanged, and so is every register but what completion writes. -/
def Obligations.MencWriteError : Prop :=
  ∀ (n : Nat) (s : State), s.mem.wf = true → s.raceFree → s.engine.lat.mencOk n →
    (∀ e, e < s.engine.lat.area → busOK s.platform (s.engine.lat.src + 4 * e) .four .read = true ∧
      f32 (memFloat s.mem (s.engine.lat.src + 4 * e)) ≠ .nan) →
    (∃ j, j < s.engine.lat.cap ∧ busOK s.platform (s.engine.lat.dst + j) .one .write = false) →
    ∃ (m : Memory) (j : Nat), j < s.engine.lat.cap ∧ busOK s.platform (s.engine.lat.dst + j) .one .write = false ∧
      exec (.menc n) s = .next (({ s with mem := m } : State).finish
        (.busError .write (BitVec.ofNat 64 (s.engine.lat.dst + j)))) ∧ m.wf = true ∧
      ∀ a, a < s.engine.lat.dst ∨ s.engine.lat.dst + s.engine.lat.cap ≤ a ∨ busOK s.platform a .one .write = false →
        m.read a = s.mem.read a

/-- R165: an MDEC whose checks and accesses all pass completes with OK; element e of the output is `dec` of the stream trits
e·n .. e·n + n - 1 of the packed buffer, every other byte of memory and every register but what completion writes is
unchanged. -/
def Obligations.MdecWritesDecodedMatrix : Prop :=
  ∀ (n : Nat) (s : State), s.mem.wf = true → s.raceFree → s.engine.lat.mdecOk n → s.mdecBus n →
    ∃ m : Memory, exec (.mdec n) s = .next (({ s with mem := m } : State).finish .ok) ∧ m.wf = true ∧
      (∀ e, e < s.engine.lat.area → memFloat m (s.engine.lat.dst + 4 * e) =
        dec ((List.range n).map fun i => bufferTrit s.mem s.engine.lat.src (e * n + i))) ∧
      ∀ a, a < s.engine.lat.dst ∨ s.engine.lat.dst + 4 * s.engine.lat.area ≤ a → m.read a = s.mem.read a

/-- R162, R163: an MDEC that fails a check completes with the first one's code, BUFFER_EXHAUSTED last, and changes nothing
but what completion writes, memory included. -/
def Obligations.MdecErrorsInOrder : Prop :=
  ∀ (n : Nat) (s : State) (v : Verdict), s.raceFree →
    firstFailure (s.engine.lat.mdecChecks n) = some v →
    exec (.mdec n) s = .next (s.finish v)

/-- R164: MDEC reports the failing read at the lowest byte and changes nothing but what completion writes. -/
def Obligations.MdecReportsLowestByte : Prop :=
  ∀ (n : Nat) (s : State) (j : Nat), s.raceFree → s.engine.lat.mdecOk n → j < (s.engine.lat.area * n + 4) / 5 →
    (∀ j', j' < j → busOK s.platform (s.engine.lat.src + j') .one .read = true) →
    busOK s.platform (s.engine.lat.src + j) .one .read = false →
    exec (.mdec n) s = .next (s.finish (.busError .read (BitVec.ofNat 64 (s.engine.lat.src + j))))

/-- R167: an MDEC with a failing write reports one of the failing elements; elements whose write fails and all memory outside
[dst, dst + 4E) are unchanged, and so is every register but what completion writes. -/
def Obligations.MdecWriteError : Prop :=
  ∀ (n : Nat) (s : State), s.mem.wf = true → s.raceFree → s.engine.lat.mdecOk n →
    (∀ j, j < (s.engine.lat.area * n + 4) / 5 → busOK s.platform (s.engine.lat.src + j) .one .read = true) →
    (∃ e, e < s.engine.lat.area ∧ busOK s.platform (s.engine.lat.dst + 4 * e) .four .write = false) →
    ∃ (m : Memory) (e : Nat), e < s.engine.lat.area ∧
      busOK s.platform (s.engine.lat.dst + 4 * e) .four .write = false ∧
      exec (.mdec n) s = .next (({ s with mem := m } : State).finish
        (.busError .write (BitVec.ofNat 64 (s.engine.lat.dst + 4 * e)))) ∧ m.wf = true ∧
      (∀ a, a < s.engine.lat.dst ∨ s.engine.lat.dst + 4 * s.engine.lat.area ≤ a → m.read a = s.mem.read a) ∧
      ∀ e' i, e' < s.engine.lat.area → i < 4 →
        busOK s.platform (s.engine.lat.dst + 4 * e') .four .write = false →
        m.read (s.engine.lat.dst + 4 * e' + i) = s.mem.read (s.engine.lat.dst + 4 * e' + i)

/-- R156, R165 (the inference R169 draws): decoding, with the same shape, the buffer a successful MENC left gives
`dec(enc(M[e]))` for every element, within 1/max_val(n) of M[e] when that lies in [-1, 1], and ±1.0 when it lies outside. -/
def Obligations.MatrixRoundTrip : Prop :=
  ∀ (n : Nat) (s t u : State) (ts : Nat → List Trit),
    s.mem.wf = true → s.raceFree → s.engine.lat.mencOk n → s.mencBus →
    (∀ e, e < s.engine.lat.area → enc (memFloat s.mem (s.engine.lat.src + 4 * e)) n = some (ts e)) →
    exec (.menc n) s = .next t →
    u.mem = t.mem → u.raceFree → u.engine.lat.rows = s.engine.lat.rows → u.engine.lat.cols = s.engine.lat.cols →
    u.engine.lat.srcAddr = s.engine.lat.dstAddr → u.engine.lat.mdecOk n → u.mdecBus n →
    ∃ v, exec (.mdec n) u = .next v ∧ v.status.err = 0#4 ∧
      ∀ e, e < s.engine.lat.area →
        memFloat v.mem (u.engine.lat.dst + 4 * e) = dec (ts e) ∧
        (∀ z, f32 (memFloat s.mem (s.engine.lat.src + 4 * e)) = .finite z → |scaledRat z| ≤ 1 →
          ∃ z', f32 (memFloat v.mem (u.engine.lat.dst + 4 * e)) = .finite z' ∧
            |scaledRat z' - scaledRat z| ≤ 1 / (maxVal n : ℚ)) ∧
        ((f32 (memFloat s.mem (s.engine.lat.src + 4 * e)) = .inf false ∨
            ∃ z, f32 (memFloat s.mem (s.engine.lat.src + 4 * e)) = .finite z ∧ 1 ≤ scaledRat z) →
          memFloat v.mem (u.engine.lat.dst + 4 * e) = 0x3F800000#32) ∧
        ((f32 (memFloat s.mem (s.engine.lat.src + 4 * e)) = .inf true ∨
            ∃ z, f32 (memFloat s.mem (s.engine.lat.src + 4 * e)) = .finite z ∧ scaledRat z ≤ -1) →
          memFloat v.mem (u.engine.lat.dst + 4 * e) = 0xBF800000#32)

/-! ### What every command does -/

/-- R181, R185, R36: every command, in every state, completes: BUSY falls, DONE rises, the hidden state is discarded; only
TOUT, RESULT, memory, STATUS and ERR_ADDR can change, TOUT only by SENC and UNPACK, RESULT only by SDEC, PACK and REQB,
memory only by MENC and MDEC, and OVR never. -/
def Obligations.EveryCommandCompletes : Prop :=
  ∀ (i : Instr) (s : State), ∃ t, exec i s = .next t ∧
    t.status.busy = false ∧ t.status.done = true ∧ t.status.ovr = s.status.ovr ∧
    t = { s with toutLo := t.toutLo, toutHi := t.toutHi, result := t.result, mem := t.mem, status := t.status,
                 errAddr := t.errAddr, engine := Engine.idle } ∧
    ((∀ n, i ≠ .senc n) → i ≠ .unpack → t.toutLo = s.toutLo ∧ t.toutHi = s.toutHi) ∧
    ((∀ n, i ≠ .sdec n) → i ≠ .pack → (∀ n, i ≠ .reqb n) → t.result = s.result) ∧
    ((∀ n, i ≠ .menc n) → (∀ n, i ≠ .mdec n) → t.mem = s.mem)

/-- R184: a command that completes with an error writes no result register, and no memory unless the error is BUS_ERROR
WRITE (the host having kept R72). -/
def Obligations.ErrorsWriteNoResult : Prop :=
  ∀ (i : Instr) (s t : State), exec i s = .next t → t.status.err ≠ 0#4 →
    t.toutLo = s.toutLo ∧ t.toutHi = s.toutHi ∧ t.result = s.result ∧
    (s.raceFree → ¬(t.status.err = 3#4 ∧ t.status.detail = 2#8) → t.mem = s.mem)

/-- R103, R104, R122, R123, R148, R150, R160 (the inference R186 draws): the codes each command can end with. -/
def Obligations.CommandsEndWithTheirCodes : Prop :=
  ∀ (i : Instr) (s t : State), exec i s = .next t →
    (t.status.err.toNat, t.status.detail.toNat) ∈
      (match i with
        | .senc _ => [(0, 0), (1, 5), (1, 11)]
        | .sdec _ => [(0, 0), (1, 5), (1, 10)]
        | .pack => [(0, 0), (1, 10)]
        | .unpack => [(0, 0)]
        | .reqb _ => [(0, 0), (1, 3), (1, 4), (1, 5), (1, 12)]
        | .menc _ => [(0, 0), (1, 1), (1, 2), (1, 3), (1, 4), (1, 5), (1, 6), (1, 7), (1, 8), (1, 9), (1, 11), (3, 1), (3, 2)]
        | .mdec _ => [(0, 0), (1, 1), (1, 2), (1, 3), (1, 4), (1, 5), (1, 7), (1, 8), (1, 9), (2, 0), (3, 1), (3, 2)]
        : List (Nat × Nat))

/-- R64 (and the inferences R159, R168 draw; for a race and a failed check log 8 and log 9): no command, raced or not,
failing or not, changes a byte outside its write footprint. -/
def Obligations.EngineWritesOnlyItsFootprint : Prop :=
  ∀ (i : Instr) (s t : State) (a : Nat), s.mem.wf = true → exec i s = .next t →
    ¬((writeRange i s.engine.lat).1 ≤ a ∧ a < (writeRange i s.engine.lat).1 + (writeRange i s.engine.lat).2) →
    t.mem.read a = s.mem.read a

/-- R36, R64, R183: the outcome of a command (the host having kept R72), all its registers and on success the bytes of its
write footprint, depends on no memory outside its read footprint; the one exception is the address that BUS_ERROR WRITE
reports. -/
def Obligations.CommandsReadOnlyTheirFootprint : Prop :=
  ∀ (i : Instr) (s t : State) (m : Memory), s.mem.wf = true → m.wf = true → s.raceFree →
    (∀ a, inRange (readRange i s.engine.lat) a = true → m.read a = s.mem.read a) → exec i s = .next t →
    ∃ u, exec i { s with mem := m } = .next u ∧ u = { t with mem := u.mem, errAddr := u.errAddr } ∧
      (¬(t.status.err = 3#4 ∧ t.status.detail = 2#8) → u.errAddr = t.errAddr) ∧
      (t.status.err = 0#4 → ∀ a, a < 2 ^ 64 → inRange (writeRange i s.engine.lat) a = true → u.mem.read a = t.mem.read a)

/-- R85, R231: a host write to an argument register while a command runs does not change what the command does. -/
def Obligations.LateArgumentsDoNotMatter : Prop :=
  ∀ (i : Instr) (s t : State) (off : Nat) (v : Word),
    off ∈ [0x20, 0x28, 0x30, 0x50, 0x58, 0x60, 0x68, 0x70, 0x78] → exec i s = .next t →
    exec i (s.writeReg off v) = .next (t.writeReg off v)

/-! ### Memory -/

/-- R61: the four bytes of a float, least significant first, read back as it. -/
def Obligations.FloatBytesAreLittleEndian : Prop :=
  ∀ b : BitVec 32, ∃ b0 b1 b2 b3 : Byte, leBytes b = [b0, b1, b2, b3] ∧ leWord b0 b1 b2 b3 = b ∧
    b.toNat = b0.toNat + 2 ^ 8 * b1.toNat + 2 ^ 16 * b2.toNat + 2 ^ 24 * b3.toNat

/-! ### The register window, acceptance and completion -/

/-- R26: STATUS as the host reads it, field by field, the reserved bits zero. -/
def Obligations.StatusWordLayout : Prop :=
  ∀ s : State, (s.readReg 0x10).toNat = s.status.busy.toNat + 2 * s.status.done.toNat + 4 * s.status.ovr.toNat +
    16 * s.status.err.toNat + 256 * s.status.detail.toNat

/-- R27: a host write to STATUS clears DONE and OVR where its bits 1 and 2 are 1, and does nothing else. -/
def Obligations.StatusWriteClears : Prop :=
  ∀ (s : State) (w : Word), s.writeReg 0x10 w =
    { s with status := { s.status with
      done := if w.getLsbD 1 then false else s.status.done, ovr := if w.getLsbD 2 then false else s.status.ovr } }

/-- R22, R28, R29, R30, R33, R34: an argument register holds all 64 bits written, CTRL bit 0 of them, and no other register
changes. -/
def Obligations.ArgumentRegistersHold : Prop :=
  ∀ (s : State) (off : Nat) (v : Word), off ∈ [0x18, 0x20, 0x28, 0x30, 0x50, 0x58, 0x60, 0x68, 0x70, 0x78] →
    (s.writeReg off v).readReg off = (if off = 0x18 then v &&& 1#64 else v) ∧
      ∀ off', off' ≠ off → (s.writeReg off v).readReg off' = s.readReg off'

/-- R22, R23, R24: read-only registers and reserved offsets ignore writes, ID is its constant, reserved offsets read zero. -/
def Obligations.ReadOnlyAndReservedOffsets : Prop :=
  ∀ (s : State) (v : Word),
    (∀ off, off ∉ [0x08, 0x10, 0x18, 0x20, 0x28, 0x30, 0x50, 0x58, 0x60, 0x68, 0x70, 0x78] → s.writeReg off v = s) ∧
    s.readReg 0x00 = 0x0540000154434F44#64 ∧
    ∀ off, off % 8 ≠ 0 ∨ 0x80 < off → s.readReg off = 0#64

/-- R21 (as an input of the model, with its answer: log 2, log 12; alignment is that of the offset, log 23): what a host
access on the port does: a legal one reads or writes the register at its offset, any other gets the error response and
changes no state of TCODEC. -/
def Obligations.HostPortAccess : Prop :=
  ∀ (s : State) (addr : Word) (size off : Nat) (v : Word) (rest : List Input),
    addr.toNat = s.platform.tcodecBase.toNat + off → off < 256 →
    (s.inputs = .regRead addr size :: rest →
      (size = 8 ∧ off % 8 = 0 → step s = .next { s with inputs := rest, response := .data (s.readReg off) }) ∧
      (¬(size = 8 ∧ off % 8 = 0) → step s = .next { s with inputs := rest, response := .error })) ∧
    (s.inputs = .regWrite addr size v :: rest →
      (size = 8 ∧ off % 8 = 0 →
        step s = .next { ({ s with inputs := rest } : State).writeReg off v with response := .written }) ∧
      (¬(size = 8 ∧ off % 8 = 0) → step s = .next { s with inputs := rest, response := .error }))

/-- R84, R85, R25: a CMD write while BUSY = 1 sets OVR alone; with BUSY = 0 it is accepted: CMD and the latches are filled,
BUSY is 1, DONE, ERR and DETAIL are 0, and the interrupt line is low (the model's draw counter moves: log 6). -/
def Obligations.CmdWriteIssues : Prop :=
  ∀ (s : State) (w : Word),
    (s.status.busy = true → s.writeReg 0x08 w = { s with status := { s.status with ovr := true } }) ∧
    (s.status.busy = false → ∃ d, s.writeReg 0x08 w =
        { s with
          cmd := w, draws := d, status := { busy := true, done := false, ovr := s.status.ovr, err := 0#4, detail := 0#8 },
          engine := {
            lat := { cmd := w, arg := s.arg, tinLo := s.tinLo, tinHi := s.tinHi, rows := s.rows, cols := s.cols,
                     srcAddr := s.srcAddr, srcLen := s.srcLen, dstAddr := s.dstAddr, dstLen := s.dstLen },
            racedReads := [], racedWrite := false } } ∧
      (s.writeReg 0x08 w).irq = false)

/-- R35, R180, R181: what completion records: STATUS is `0x2 | ERR << 4 | DETAIL << 8` with OVR kept, by the words of 95
(its table of outcomes), ERR_ADDR is the address of BUS_ERROR and of NAN_VALUE, the index of BAD_TRIT and 0 for every other
outcome, the hidden state is discarded, nothing else changes. -/
def Obligations.FinishRecordsTheVerdict : Prop :=
  ∀ (s : State) (v : Verdict),
    s.finish v = { s with status := (s.finish v).status, errAddr := (s.finish v).errAddr, engine := Engine.idle } ∧
    (s.finish v).readReg 0x80 =
      (match v with
        | .busError _ addr => addr
        | .invalidArgument .nanValue addr => addr
        | .invalidArgument .badTrit index => index
        | _ => 0#64) ∧
    ((s.finish v).readReg 0x10).toNat = 2 + 4 * s.status.ovr.toNat +
      (match v with
        | .ok => 0x0000
        | .invalidArgument .nullSrc _ => 0x0110
        | .invalidArgument .nullDst _ => 0x0210
        | .invalidArgument .rowsRange _ => 0x0310
        | .invalidArgument .colsRange _ => 0x0410
        | .invalidArgument .nRange _ => 0x0510
        | .invalidArgument .capacity _ => 0x0610
        | .invalidArgument .misaligned _ => 0x0710
        | .invalidArgument .rangeWrap _ => 0x0810
        | .invalidArgument .overlap _ => 0x0910
        | .invalidArgument .badTrit _ => 0x0A10
        | .invalidArgument .nanValue _ => 0x0B10
        | .invalidArgument .sizeOverflow _ => 0x0C10
        | .bufferExhausted => 0x0020
        | .busError .read _ => 0x0130
        | .busError .write _ => 0x0230
        | .illegalCommand .reservedOp => 0x0140
        | .illegalCommand .reservedBits => 0x0240
        | .illegalCommand .nonzeroN => 0x0340)

/-- R195: the interrupt line is CTRL bit 0 and STATUS bit 1 as the host reads them. -/
def Obligations.InterruptLine : Prop :=
  ∀ s : State, s.irq = ((s.readReg 0x18).getLsbD 0 && (s.readReg 0x10).getLsbD 1)

/-- R68: BusOK is fixed while a command runs (a change of it is an input of the model: log 2, log 4). R69: BusOK is false for
every access that touches the register window (log 5, log 22), so a MENC or MDEC that passes its checks (and, for MENC,
meets no NaN) ends with BUS_ERROR where a byte of its footprint is a byte of the window. -/
def Obligations.BusOkRules : Prop :=
  (∀ (s : State) (holes : List BusHole) (rest : List Input), s.status.busy = true → s.inputs = .busMap holes :: rest →
    step s = .next { s with inputs := rest }) ∧
  (∀ (p : Platform) (addr : Nat) (size : AccessSize) (dir : Dir),
    addr < p.tcodecBase.toNat + 256 → p.tcodecBase.toNat < addr + size.bytes → busOK p addr size dir = false) ∧
  ∀ (n : Nat) (s : State) (a : Nat), s.platform.tcodecBase.toNat ≤ a → a < s.platform.tcodecBase.toNat + 256 →
    (s.raceFree → s.engine.lat.mencOk n →
      (∀ e, e < s.engine.lat.area → f32 (memFloat s.mem (s.engine.lat.src + 4 * e)) ≠ .nan) →
      (inRange (s.engine.lat.src, 4 * s.engine.lat.area) a = true ∨ inRange (s.engine.lat.dst, s.engine.lat.cap) a = true) →
      ∃ t, exec (.menc n) s = .next t ∧ t.status.err = 3#4) ∧
    (s.engine.lat.mdecOk n →
      (inRange (s.engine.lat.src, (s.engine.lat.area * n + 4) / 5) a = true ∨
        inRange (s.engine.lat.dst, 4 * s.engine.lat.area) a = true) →
      ∃ t, exec (.mdec n) s = .next t ∧ t.status.err = 3#4)

/-- R72, R70 (as inputs of the model: log 2, log 12, log 13): a host write outside both footprints of the running command is
no race and changes that byte alone; a host read outside the write footprint returns the byte that memory holds. -/
def Obligations.HostMemoryAccessOutsideFootprints : Prop :=
  ∀ (s : State) (addr : Word) (b : Byte) (rest : List Input), inRange s.busyWriteRange addr.toNat = false →
    (s.inputs = .memRead addr :: rest →
      step s = .next { s with inputs := rest, response := .byte (s.mem.read addr.toNat) }) ∧
    (inRange s.busyReadRange addr.toNat = false → s.inputs = .memWrite addr b :: rest →
      step s = .next { s with inputs := rest, mem := s.mem.write addr.toNat b, response := .stored })

/-! ### The step, runs, reset and the invariant -/

/-- R90, R84: when the engine moves and the word in flight decodes to a command, the step is that command's meaning (an
input `engine` is taken first); so a word that is placed as an accepted command runs next, on the operands latched at
acceptance (log 11). -/
def Obligations.StepRunsTheDecodedCommand : Prop :=
  ∀ (s : State) (i : Instr),
    (s.status.busy = true → decode s.engine.lat.cmd = .ok i →
      (s.inputs = [] → step s = exec i s) ∧
      ∀ rest, s.inputs = .engine :: rest → step s = exec i { s with inputs := rest }) ∧
    ∀ w : Nat, decode (BitVec.ofNat 64 (w % 2 ^ 64)) = .ok i →
      step (s.withFetchWord 64 w) = exec i (s.accept (BitVec.ofNat 64 (w % 2 ^ 64)))

/-- R83, R90: when the engine moves (with no input left, or at an input `engine`: log 2), an illegal word in flight completes
with ILLEGAL_COMMAND and its detail, ERR_ADDR 0; no result register and no memory is written. -/
def Obligations.IllegalWordCompletes : Prop :=
  ∀ (s : State) (why : IllegalWord) (rest : List Input), s.status.busy = true → decode s.engine.lat.cmd = .error why →
    (s.inputs = [] ∧ rest = [] ∨ s.inputs = .engine :: rest) →
    step s = .next { s with
      inputs := rest,
      status := { busy := false, done := true, ovr := s.status.ovr, err := 4#4,
                  detail := match why with | .reservedOp => 1#8 | .reservedBits => 2#8 | .nonzeroN => 3#8 },
      errAddr := 0#64, engine := Engine.idle }

/-- R185 (log 19): no step stops the machine: every run of every length goes on. -/
def Obligations.NoRunStops : Prop := ∀ (s : State) (k : Nat), ∃ t, s.runsFor k t

/-- R185, R240 (inputs: log 2): a command in flight is over, by completion or reset, at some point within the inputs that
are left and one turn more, whatever they are. -/
def Obligations.CommandInFlightEnds : Prop :=
  ∀ s : State, s.status.busy = true → ∃ k t, k ≤ s.inputs.length + 1 ∧ s.runsFor k t ∧ t.status.busy = false

/-- R20, R25, R26, R31, R39, R180: every step keeps the invariant: STATUS holds a row of the table of codes and BUSY
excludes DONE, TOUT holds trits, the engine is idle or runs the word CMD shows (its recorded races lie in the read
footprint, log 8), memory is in canonical form (log 1). -/
def Obligations.StepKeepsInvariant : Prop := ∀ s t : State, s.inv = true → step s = .next t → t.inv = true

/-- R41, R220 (memory as log 1 says): the reset state has the invariant. -/
def Obligations.ResetHasInvariant : Prop := State.reset.inv = true

/-- R220, R223 (reset is an input of the model: log 2, log 21): after a reset, in any state, ID reads its constant and every
other register 0, the line is low, the engine is idle; the next command write is accepted (R223). -/
def Obligations.ResetClearsRegisters : Prop :=
  ∀ (s : State) (rest : List Input), s.inputs = .reset :: rest →
    ∃ t, step s = .next t ∧ (∀ off, t.readReg off = if off = 0 then 0x0540000154434F44#64 else 0#64) ∧ t.irq = false ∧
      t.engine = Engine.idle ∧ t.status.busy = false ∧ t.inputs = rest ∧ t.platform = s.platform

/-- R221, R222 (reset is an input of the model: log 2): a reset changes no byte of memory with no command in flight, and
with one no byte outside its write footprint or whose write access fails. -/
def Obligations.ResetKeepsOtherMemory : Prop :=
  ∀ (s t : State) (rest : List Input) (a : Nat), s.mem.wf = true → s.inputs = .reset :: rest → step s = .next t →
    (s.status.busy = false ∨ (∃ why, decode s.engine.lat.cmd = .error why) ∨
      ∃ i, decode s.engine.lat.cmd = .ok i ∧
        (inRange (writeRange i s.engine.lat) a = false ∨ writable s.platform i s.engine.lat a = false)) →
    t.mem.read a = s.mem.read a
end

