-- ==== Sys2Proof/Laws/Memory.lean ====
section
/-! SUPPORT. Memory: every operation keeps the canonical form, and what a read sees after each operation. -/

namespace Sys2Proof.Machine

theorem wf_cons (a : Nat) (b : Byte) (m : Memory) :
    Memory.wf ((a, b) :: m) = true ↔
      a < Config.memSize ∧ b ≠ unlistedByte ∧ (∀ c ∈ m, a < c.1) ∧ Memory.wf m = true := by
  simp [Memory.wf, and_assoc]

/-- Below the first listed address everything reads as an unlisted byte. -/
theorem read_below (m : Memory) (a : Nat) (h : ∀ c ∈ m, a < c.1) : m.read a = unlistedByte := by
  induction m with
  | nil => rfl
  | cons c m ih =>
    obtain ⟨c, x⟩ := c
    have hc : a < c := h (c, x) (by simp)
    have : a ≠ c := by omega
    simp only [Memory.read, this, if_false]
    exact ih fun d hd => h d (by simp [hd])

/-- `put` lists no address but the one it writes and those listed before. -/
theorem mem_put (m : Memory) (a : Nat) (b : Byte) (c : Host.Cell) (h : c ∈ m.put a b) : c = (a, b) ∨ c ∈ m := by
  induction m with
  | nil =>
    simp only [Memory.put] at h
    split at h <;> simp_all
  | cons d m ih =>
    obtain ⟨d, x⟩ := d
    simp only [Memory.put] at h
    split at h
    · split at h
      · exact .inr h
      · rcases List.mem_cons.1 h with h | h
        · exact .inl h
        · exact .inr h
    · split at h
      · split at h
        · exact .inr (by simp [h])
        · rcases List.mem_cons.1 h with h | h
          · exact .inl h
          · exact .inr (by simp [h])
      · rcases List.mem_cons.1 h with h | h
        · exact .inr (by simp [h])
        · rcases ih h with h | h
          · exact .inl h
          · exact .inr (by simp [h])

/-- `put` keeps the canonical form. -/
theorem put_wf (m : Memory) (a : Nat) (b : Byte) (ha : a < Config.memSize) (h : m.wf = true) : (m.put a b).wf = true := by
  induction m with
  | nil =>
    simp only [Memory.put]
    split
    · rfl
    · rw [wf_cons]; exact ⟨ha, ‹_›, by simp, rfl⟩
  | cons d m ih =>
    obtain ⟨d, x⟩ := d
    obtain ⟨hd, hx, hlt, hm⟩ := (wf_cons d x m).1 h
    simp only [Memory.put]
    split
    · rename_i had
      split
      · exact h
      · rw [wf_cons]
        refine ⟨ha, ‹_›, fun c hc => ?_, h⟩
        rcases List.mem_cons.1 hc with rfl | hc
        · exact had
        · have := hlt c hc; omega
    · split
      · rename_i _ had
        split
        · exact hm
        · rw [wf_cons]; exact ⟨ha, ‹_›, fun c hc => had ▸ hlt c hc, hm⟩
      · rename_i h1 h2
        rw [wf_cons]
        refine ⟨hd, hx, fun c hc => ?_, ih hm⟩
        rcases mem_put m a b c hc with rfl | hc
        · show d < a
          omega
        · exact hlt c hc

/-- A read after `put`: the byte put at its address, every other byte as before. -/
theorem read_put (m : Memory) (a : Nat) (b : Byte) (c : Nat) (h : m.wf = true) :
    (m.put a b).read c = if c = a then b else m.read c := by
  induction m with
  | nil =>
    simp only [Memory.put]
    split
    · rename_i hb; subst hb; simp [Memory.read]
    · simp [Memory.read]
  | cons d m ih =>
    obtain ⟨d, x⟩ := d
    obtain ⟨hd, hx, hlt, hm⟩ := (wf_cons d x m).1 h
    simp only [Memory.put]
    split
    · rename_i had
      have hbelow : Memory.read ((d, x) :: m) a = unlistedByte := by
        refine read_below _ _ fun e he => ?_
        rcases List.mem_cons.1 he with rfl | he
        · exact had
        · have := hlt e he; omega
      split
      · rename_i hb
        split
        · rename_i hca; rw [hca, hbelow, hb]
        · rfl
      · rw [Memory.read]
    · split
      · rename_i _ had
        subst had
        split
        · rename_i hb
          split
          · rename_i hca; rw [hca, hb]; exact read_below m a hlt
          · rename_i hca; rw [Memory.read, if_neg hca]
        · rw [Memory.read, Memory.read]
          split <;> rfl
      · rename_i h1 h2
        rw [Memory.read, Memory.read, ih hm]
        split
        · rename_i hcd
          rw [if_neg (by omega)]
        · rfl

/-- Every write keeps the canonical form. -/
theorem write_wf (m : Memory) (a : Nat) (b : Byte) (h : m.wf = true) : (m.write a b).wf = true := by
  unfold Memory.write
  split
  · exact put_wf m a b ‹_› h
  · exact h

/-- A read after a write, in and out of the memory space. -/
theorem read_write (m : Memory) (a : Nat) (b : Byte) (c : Nat) (h : m.wf = true) :
    (m.write a b).read c = if c = a ∧ a < Config.memSize then b else m.read c := by
  unfold Memory.write
  split
  · rename_i ha
    rw [read_put m a b c h]
    by_cases hc : c = a <;> simp [hc, ha]
  · rename_i ha
    simp [ha]

/-- Every fill keeps the canonical form. -/
theorem fill_wf (m : Memory) (base count : Nat) (f : Nat → Option Byte) (h : m.wf = true) :
    (m.fill base count f).wf = true := by
  induction count with
  | zero => exact h
  | succ k ih =>
    simp only [Memory.fill]
    split
    · exact write_wf _ _ _ ih
    · exact ih

/-- A read after a fill: in the range, the byte that `f` gives if it gives one; every other byte as before. -/
theorem read_fill (m : Memory) (base count : Nat) (f : Nat → Option Byte) (c : Nat) (h : m.wf = true) :
    (m.fill base count f).read c =
      if base ≤ c ∧ c < base + count ∧ c < Config.memSize then (f c).getD (m.read c) else m.read c := by
  induction count with
  | zero => rw [if_neg (by omega)]; rfl
  | succ k ih =>
    simp only [Memory.fill]
    have hwf := fill_wf m base k f h
    by_cases hc : c = base + k
    · subst hc
      have hno : ¬(base ≤ base + k ∧ base + k < base + k ∧ base + k < Config.memSize) := by omega
      rw [if_neg hno] at ih
      by_cases hs : base + k < Config.memSize
      · rw [if_pos ⟨by omega, by omega, hs⟩]
        split
        · rename_i b hb
          rw [read_write _ _ _ _ hwf, if_pos ⟨rfl, hs⟩, hb]; rfl
        · rename_i hb
          rw [hb]; exact ih
      · rw [if_neg (by omega)]
        split
        · rw [read_write _ _ _ _ hwf, if_neg (by omega)]; exact ih
        · exact ih
    · have hiff : (base ≤ c ∧ c < base + (k + 1) ∧ c < Config.memSize) ↔
          (base ≤ c ∧ c < base + k ∧ c < Config.memSize) := by omega
      simp only [hiff]
      split
      · rw [read_write _ _ _ _ hwf, if_neg (by omega)]; exact ih
      · exact ih

theorem writeBytes_wf (m : Memory) (base : Nat) (bytes : List Byte) (h : m.wf = true) :
    (m.writeBytes base bytes).wf = true := fill_wf _ _ _ _ h

/-- A read after writing a list of bytes. -/
theorem read_writeBytes (m : Memory) (base : Nat) (bytes : List Byte) (c : Nat) (h : m.wf = true) :
    (m.writeBytes base bytes).read c =
      if base ≤ c ∧ c < base + bytes.length ∧ c < Config.memSize then bytes.getD (c - base) unlistedByte
      else m.read c := by
  rw [Memory.writeBytes, read_fill _ _ _ _ _ h]
  split
  · rename_i hc
    have : c - base < bytes.length := by omega
    simp [List.getD, this]
  · rfl

/-- No byte past the memory space is listed. -/
theorem read_past_end (m : Memory) (a : Nat) (h : m.wf = true) (ha : Config.memSize ≤ a) : m.read a = unlistedByte := by
  induction m with
  | nil => rfl
  | cons d m ih =>
    obtain ⟨d, x⟩ := d
    obtain ⟨hd, _, _, hm⟩ := (wf_cons d x m).1 h
    rw [Memory.read, if_neg (by omega)]
    exact ih hm

/-- Two memories in canonical form that read alike are equal data. -/
theorem wf_ext (m₁ m₂ : Memory) (h₁ : m₁.wf = true) (h₂ : m₂.wf = true) (h : ∀ a, m₁.read a = m₂.read a) : m₁ = m₂ := by
  induction m₁ generalizing m₂ with
  | nil =>
    cases m₂ with
    | nil => rfl
    | cons d m₂ =>
      obtain ⟨d, x⟩ := d
      obtain ⟨_, hx, _, _⟩ := (wf_cons d x m₂).1 h₂
      have := h d
      simp [Memory.read] at this
      exact absurd this.symm hx
  | cons c m₁ ih =>
    obtain ⟨c, y⟩ := c
    obtain ⟨_, hy, hlt₁, hm₁⟩ := (wf_cons c y m₁).1 h₁
    cases m₂ with
    | nil =>
      have := h c
      simp [Memory.read] at this
      exact absurd this hy
    | cons d m₂ =>
      obtain ⟨d, x⟩ := d
      obtain ⟨_, hx, hlt₂, hm₂⟩ := (wf_cons d x m₂).1 h₂
      have hcd : c = d := by
        rcases Nat.lt_trichotomy c d with hl | he | hg
        · have := h c
          rw [Memory.read, if_pos rfl, read_below _ c] at this
          · exact absurd this hy
          · intro e he
            rcases List.mem_cons.1 he with rfl | he
            · exact hl
            · have := hlt₂ e he; omega
        · exact he
        · have := h d
          rw [read_below ((c, y) :: m₁) d, Memory.read, if_pos rfl] at this
          · exact absurd this.symm hx
          · intro e he
            rcases List.mem_cons.1 he with rfl | he
            · exact hg
            · have := hlt₁ e he; omega
      subst hcd
      have hxy : y = x := by
        have := h c
        simpa [Memory.read] using this
      subst hxy
      congr 1
      refine ih m₂ hm₁ hm₂ fun a => ?_
      by_cases hac : a = c
      · subst hac; rw [read_below m₁ a hlt₁, read_below m₂ a hlt₂]
      · have := h a
        simpa [Memory.read, hac] using this

end Sys2Proof.Machine
end

