-- ==== Sys2Proof/Laws/State.lean ====
section
/-! SUPPORT. One lemma per field per named update of State, true by rfl, so that no proof unfolds a record update. -/

namespace Sys2Proof.Machine

/-! ### Completion (60_exceptions R181) -/

@[simp] theorem finish_cmd (v : Verdict) (s : State) :
    (s.finish v).cmd = s.cmd := rfl
@[simp] theorem finish_status (v : Verdict) (s : State) :
    (s.finish v).status = s.status.finished v := rfl
@[simp] theorem finish_irqEn (v : Verdict) (s : State) :
    (s.finish v).irqEn = s.irqEn := rfl
@[simp] theorem finish_arg (v : Verdict) (s : State) :
    (s.finish v).arg = s.arg := rfl
@[simp] theorem finish_tinLo (v : Verdict) (s : State) :
    (s.finish v).tinLo = s.tinLo := rfl
@[simp] theorem finish_tinHi (v : Verdict) (s : State) :
    (s.finish v).tinHi = s.tinHi := rfl
@[simp] theorem finish_toutLo (v : Verdict) (s : State) :
    (s.finish v).toutLo = s.toutLo := rfl
@[simp] theorem finish_toutHi (v : Verdict) (s : State) :
    (s.finish v).toutHi = s.toutHi := rfl
@[simp] theorem finish_result (v : Verdict) (s : State) :
    (s.finish v).result = s.result := rfl
@[simp] theorem finish_rows (v : Verdict) (s : State) :
    (s.finish v).rows = s.rows := rfl
@[simp] theorem finish_cols (v : Verdict) (s : State) :
    (s.finish v).cols = s.cols := rfl
@[simp] theorem finish_srcAddr (v : Verdict) (s : State) :
    (s.finish v).srcAddr = s.srcAddr := rfl
@[simp] theorem finish_srcLen (v : Verdict) (s : State) :
    (s.finish v).srcLen = s.srcLen := rfl
@[simp] theorem finish_dstAddr (v : Verdict) (s : State) :
    (s.finish v).dstAddr = s.dstAddr := rfl
@[simp] theorem finish_dstLen (v : Verdict) (s : State) :
    (s.finish v).dstLen = s.dstLen := rfl
@[simp] theorem finish_errAddr (v : Verdict) (s : State) :
    (s.finish v).errAddr = v.errAddr := rfl
@[simp] theorem finish_engine (v : Verdict) (s : State) :
    (s.finish v).engine = Engine.idle := rfl
@[simp] theorem finish_mem (v : Verdict) (s : State) :
    (s.finish v).mem = s.mem := rfl
@[simp] theorem finish_platform (v : Verdict) (s : State) :
    (s.finish v).platform = s.platform := rfl
@[simp] theorem finish_inputs (v : Verdict) (s : State) :
    (s.finish v).inputs = s.inputs := rfl
@[simp] theorem finish_response (v : Verdict) (s : State) :
    (s.finish v).response = s.response := rfl
@[simp] theorem finish_draws (v : Verdict) (s : State) :
    (s.finish v).draws = s.draws := rfl

/-! ### Acceptance (30_encoding R84) -/

@[simp] theorem accept_cmd (w : Word) (s : State) :
    (s.accept w).cmd = w := rfl
@[simp] theorem accept_status (w : Word) (s : State) :
    (s.accept w).status = s.status.accepted := rfl
@[simp] theorem accept_irqEn (w : Word) (s : State) :
    (s.accept w).irqEn = s.irqEn := rfl
@[simp] theorem accept_arg (w : Word) (s : State) :
    (s.accept w).arg = s.arg := rfl
@[simp] theorem accept_tinLo (w : Word) (s : State) :
    (s.accept w).tinLo = s.tinLo := rfl
@[simp] theorem accept_tinHi (w : Word) (s : State) :
    (s.accept w).tinHi = s.tinHi := rfl
@[simp] theorem accept_toutLo (w : Word) (s : State) :
    (s.accept w).toutLo = s.toutLo := rfl
@[simp] theorem accept_toutHi (w : Word) (s : State) :
    (s.accept w).toutHi = s.toutHi := rfl
@[simp] theorem accept_result (w : Word) (s : State) :
    (s.accept w).result = s.result := rfl
@[simp] theorem accept_rows (w : Word) (s : State) :
    (s.accept w).rows = s.rows := rfl
@[simp] theorem accept_cols (w : Word) (s : State) :
    (s.accept w).cols = s.cols := rfl
@[simp] theorem accept_srcAddr (w : Word) (s : State) :
    (s.accept w).srcAddr = s.srcAddr := rfl
@[simp] theorem accept_srcLen (w : Word) (s : State) :
    (s.accept w).srcLen = s.srcLen := rfl
@[simp] theorem accept_dstAddr (w : Word) (s : State) :
    (s.accept w).dstAddr = s.dstAddr := rfl
@[simp] theorem accept_dstLen (w : Word) (s : State) :
    (s.accept w).dstLen = s.dstLen := rfl
@[simp] theorem accept_errAddr (w : Word) (s : State) :
    (s.accept w).errAddr = s.errAddr := rfl
@[simp] theorem accept_engine (w : Word) (s : State) :
    (s.accept w).engine = ⟨s.latched w, [], false⟩ := rfl
@[simp] theorem accept_mem (w : Word) (s : State) :
    (s.accept w).mem = s.mem := rfl
@[simp] theorem accept_platform (w : Word) (s : State) :
    (s.accept w).platform = s.platform := rfl
@[simp] theorem accept_inputs (w : Word) (s : State) :
    (s.accept w).inputs = s.inputs := rfl
@[simp] theorem accept_response (w : Word) (s : State) :
    (s.accept w).response = s.response := rfl
@[simp] theorem accept_draws (w : Word) (s : State) :
    (s.accept w).draws = s.draws + 1 := rfl

/-! ### Acknowledge (10_state R27) -/

@[simp] theorem acknowledge_cmd (w : Word) (s : State) :
    (s.acknowledge w).cmd = s.cmd := rfl
@[simp] theorem acknowledge_status (w : Word) (s : State) :
    (s.acknowledge w).status = s.status.clear w := rfl
@[simp] theorem acknowledge_irqEn (w : Word) (s : State) :
    (s.acknowledge w).irqEn = s.irqEn := rfl
@[simp] theorem acknowledge_arg (w : Word) (s : State) :
    (s.acknowledge w).arg = s.arg := rfl
@[simp] theorem acknowledge_tinLo (w : Word) (s : State) :
    (s.acknowledge w).tinLo = s.tinLo := rfl
@[simp] theorem acknowledge_tinHi (w : Word) (s : State) :
    (s.acknowledge w).tinHi = s.tinHi := rfl
@[simp] theorem acknowledge_toutLo (w : Word) (s : State) :
    (s.acknowledge w).toutLo = s.toutLo := rfl
@[simp] theorem acknowledge_toutHi (w : Word) (s : State) :
    (s.acknowledge w).toutHi = s.toutHi := rfl
@[simp] theorem acknowledge_result (w : Word) (s : State) :
    (s.acknowledge w).result = s.result := rfl
@[simp] theorem acknowledge_rows (w : Word) (s : State) :
    (s.acknowledge w).rows = s.rows := rfl
@[simp] theorem acknowledge_cols (w : Word) (s : State) :
    (s.acknowledge w).cols = s.cols := rfl
@[simp] theorem acknowledge_srcAddr (w : Word) (s : State) :
    (s.acknowledge w).srcAddr = s.srcAddr := rfl
@[simp] theorem acknowledge_srcLen (w : Word) (s : State) :
    (s.acknowledge w).srcLen = s.srcLen := rfl
@[simp] theorem acknowledge_dstAddr (w : Word) (s : State) :
    (s.acknowledge w).dstAddr = s.dstAddr := rfl
@[simp] theorem acknowledge_dstLen (w : Word) (s : State) :
    (s.acknowledge w).dstLen = s.dstLen := rfl
@[simp] theorem acknowledge_errAddr (w : Word) (s : State) :
    (s.acknowledge w).errAddr = s.errAddr := rfl
@[simp] theorem acknowledge_engine (w : Word) (s : State) :
    (s.acknowledge w).engine = s.engine := rfl
@[simp] theorem acknowledge_mem (w : Word) (s : State) :
    (s.acknowledge w).mem = s.mem := rfl
@[simp] theorem acknowledge_platform (w : Word) (s : State) :
    (s.acknowledge w).platform = s.platform := rfl
@[simp] theorem acknowledge_inputs (w : Word) (s : State) :
    (s.acknowledge w).inputs = s.inputs := rfl
@[simp] theorem acknowledge_response (w : Word) (s : State) :
    (s.acknowledge w).response = s.response := rfl
@[simp] theorem acknowledge_draws (w : Word) (s : State) :
    (s.acknowledge w).draws = s.draws := rfl

/-! ### A spoiled write footprint (42_matrix R158, R167) -/

@[simp] theorem spoil_cmd (i : Instr) (s : State) :
    (s.spoil i).cmd = s.cmd := rfl
@[simp] theorem spoil_status (i : Instr) (s : State) :
    (s.spoil i).status = s.status := rfl
@[simp] theorem spoil_irqEn (i : Instr) (s : State) :
    (s.spoil i).irqEn = s.irqEn := rfl
@[simp] theorem spoil_arg (i : Instr) (s : State) :
    (s.spoil i).arg = s.arg := rfl
@[simp] theorem spoil_tinLo (i : Instr) (s : State) :
    (s.spoil i).tinLo = s.tinLo := rfl
@[simp] theorem spoil_tinHi (i : Instr) (s : State) :
    (s.spoil i).tinHi = s.tinHi := rfl
@[simp] theorem spoil_toutLo (i : Instr) (s : State) :
    (s.spoil i).toutLo = s.toutLo := rfl
@[simp] theorem spoil_toutHi (i : Instr) (s : State) :
    (s.spoil i).toutHi = s.toutHi := rfl
@[simp] theorem spoil_result (i : Instr) (s : State) :
    (s.spoil i).result = s.result := rfl
@[simp] theorem spoil_rows (i : Instr) (s : State) :
    (s.spoil i).rows = s.rows := rfl
@[simp] theorem spoil_cols (i : Instr) (s : State) :
    (s.spoil i).cols = s.cols := rfl
@[simp] theorem spoil_srcAddr (i : Instr) (s : State) :
    (s.spoil i).srcAddr = s.srcAddr := rfl
@[simp] theorem spoil_srcLen (i : Instr) (s : State) :
    (s.spoil i).srcLen = s.srcLen := rfl
@[simp] theorem spoil_dstAddr (i : Instr) (s : State) :
    (s.spoil i).dstAddr = s.dstAddr := rfl
@[simp] theorem spoil_dstLen (i : Instr) (s : State) :
    (s.spoil i).dstLen = s.dstLen := rfl
@[simp] theorem spoil_errAddr (i : Instr) (s : State) :
    (s.spoil i).errAddr = s.errAddr := rfl
@[simp] theorem spoil_engine (i : Instr) (s : State) :
    (s.spoil i).engine = s.engine := rfl
@[simp] theorem spoil_mem (i : Instr) (s : State) :
    (s.spoil i).mem = s.spoiledMem i := rfl
@[simp] theorem spoil_platform (i : Instr) (s : State) :
    (s.spoil i).platform = s.platform := rfl
@[simp] theorem spoil_inputs (i : Instr) (s : State) :
    (s.spoil i).inputs = s.inputs := rfl
@[simp] theorem spoil_response (i : Instr) (s : State) :
    (s.spoil i).response = s.response := rfl
@[simp] theorem spoil_draws (i : Instr) (s : State) :
    (s.spoil i).draws = s.draws := rfl

/-! ### A host write of memory (20_memory R72) -/

@[simp] theorem hostStore_cmd (addr : Word) (b : Byte) (s : State) :
    (s.hostStore addr b).cmd = s.cmd := rfl
@[simp] theorem hostStore_status (addr : Word) (b : Byte) (s : State) :
    (s.hostStore addr b).status = s.status := rfl
@[simp] theorem hostStore_irqEn (addr : Word) (b : Byte) (s : State) :
    (s.hostStore addr b).irqEn = s.irqEn := rfl
@[simp] theorem hostStore_arg (addr : Word) (b : Byte) (s : State) :
    (s.hostStore addr b).arg = s.arg := rfl
@[simp] theorem hostStore_tinLo (addr : Word) (b : Byte) (s : State) :
    (s.hostStore addr b).tinLo = s.tinLo := rfl
@[simp] theorem hostStore_tinHi (addr : Word) (b : Byte) (s : State) :
    (s.hostStore addr b).tinHi = s.tinHi := rfl
@[simp] theorem hostStore_toutLo (addr : Word) (b : Byte) (s : State) :
    (s.hostStore addr b).toutLo = s.toutLo := rfl
@[simp] theorem hostStore_toutHi (addr : Word) (b : Byte) (s : State) :
    (s.hostStore addr b).toutHi = s.toutHi := rfl
@[simp] theorem hostStore_result (addr : Word) (b : Byte) (s : State) :
    (s.hostStore addr b).result = s.result := rfl
@[simp] theorem hostStore_rows (addr : Word) (b : Byte) (s : State) :
    (s.hostStore addr b).rows = s.rows := rfl
@[simp] theorem hostStore_cols (addr : Word) (b : Byte) (s : State) :
    (s.hostStore addr b).cols = s.cols := rfl
@[simp] theorem hostStore_srcAddr (addr : Word) (b : Byte) (s : State) :
    (s.hostStore addr b).srcAddr = s.srcAddr := rfl
@[simp] theorem hostStore_srcLen (addr : Word) (b : Byte) (s : State) :
    (s.hostStore addr b).srcLen = s.srcLen := rfl
@[simp] theorem hostStore_dstAddr (addr : Word) (b : Byte) (s : State) :
    (s.hostStore addr b).dstAddr = s.dstAddr := rfl
@[simp] theorem hostStore_dstLen (addr : Word) (b : Byte) (s : State) :
    (s.hostStore addr b).dstLen = s.dstLen := rfl
@[simp] theorem hostStore_errAddr (addr : Word) (b : Byte) (s : State) :
    (s.hostStore addr b).errAddr = s.errAddr := rfl
@[simp] theorem hostStore_engine (addr : Word) (b : Byte) (s : State) :
    (s.hostStore addr b).engine = s.noteRace addr.toNat := rfl
@[simp] theorem hostStore_mem (addr : Word) (b : Byte) (s : State) :
    (s.hostStore addr b).mem = s.mem.write addr.toNat b := rfl
@[simp] theorem hostStore_platform (addr : Word) (b : Byte) (s : State) :
    (s.hostStore addr b).platform = s.platform := rfl
@[simp] theorem hostStore_inputs (addr : Word) (b : Byte) (s : State) :
    (s.hostStore addr b).inputs = s.inputs := rfl
@[simp] theorem hostStore_response (addr : Word) (b : Byte) (s : State) :
    (s.hostStore addr b).response = .stored := rfl
@[simp] theorem hostStore_draws (addr : Word) (b : Byte) (s : State) :
    (s.hostStore addr b).draws = s.draws := rfl

/-! ### Reset (70_reset R220) -/

@[simp] theorem doReset_cmd (s : State) :
    (s.doReset).cmd = State.reset.cmd := rfl
@[simp] theorem doReset_status (s : State) :
    (s.doReset).status = State.reset.status := rfl
@[simp] theorem doReset_irqEn (s : State) :
    (s.doReset).irqEn = State.reset.irqEn := rfl
@[simp] theorem doReset_arg (s : State) :
    (s.doReset).arg = State.reset.arg := rfl
@[simp] theorem doReset_tinLo (s : State) :
    (s.doReset).tinLo = State.reset.tinLo := rfl
@[simp] theorem doReset_tinHi (s : State) :
    (s.doReset).tinHi = State.reset.tinHi := rfl
@[simp] theorem doReset_toutLo (s : State) :
    (s.doReset).toutLo = State.reset.toutLo := rfl
@[simp] theorem doReset_toutHi (s : State) :
    (s.doReset).toutHi = State.reset.toutHi := rfl
@[simp] theorem doReset_result (s : State) :
    (s.doReset).result = State.reset.result := rfl
@[simp] theorem doReset_rows (s : State) :
    (s.doReset).rows = State.reset.rows := rfl
@[simp] theorem doReset_cols (s : State) :
    (s.doReset).cols = State.reset.cols := rfl
@[simp] theorem doReset_srcAddr (s : State) :
    (s.doReset).srcAddr = State.reset.srcAddr := rfl
@[simp] theorem doReset_srcLen (s : State) :
    (s.doReset).srcLen = State.reset.srcLen := rfl
@[simp] theorem doReset_dstAddr (s : State) :
    (s.doReset).dstAddr = State.reset.dstAddr := rfl
@[simp] theorem doReset_dstLen (s : State) :
    (s.doReset).dstLen = State.reset.dstLen := rfl
@[simp] theorem doReset_errAddr (s : State) :
    (s.doReset).errAddr = State.reset.errAddr := rfl
@[simp] theorem doReset_engine (s : State) :
    (s.doReset).engine = State.reset.engine := rfl
@[simp] theorem doReset_mem (s : State) :
    (s.doReset).mem = s.resetMem := rfl
@[simp] theorem doReset_platform (s : State) :
    (s.doReset).platform = s.platform := rfl
@[simp] theorem doReset_inputs (s : State) :
    (s.doReset).inputs = s.inputs := rfl
@[simp] theorem doReset_response (s : State) :
    (s.doReset).response = State.reset.response := rfl
@[simp] theorem doReset_draws (s : State) :
    (s.doReset).draws = s.draws + 1 := rfl

/-! ### The status fields -/

@[simp] theorem finished_busy (v : Verdict) (st : Status) :
    (st.finished v).busy = false := rfl
@[simp] theorem finished_done (v : Verdict) (st : Status) :
    (st.finished v).done = true := rfl
@[simp] theorem finished_ovr (v : Verdict) (st : Status) :
    (st.finished v).ovr = st.ovr := rfl
@[simp] theorem finished_err (v : Verdict) (st : Status) :
    (st.finished v).err = v.err := rfl
@[simp] theorem finished_detail (v : Verdict) (st : Status) :
    (st.finished v).detail = v.detail := rfl

@[simp] theorem accepted_busy (st : Status) :
    (st.accepted).busy = true := rfl
@[simp] theorem accepted_done (st : Status) :
    (st.accepted).done = false := rfl
@[simp] theorem accepted_ovr (st : Status) :
    (st.accepted).ovr = st.ovr := rfl
@[simp] theorem accepted_err (st : Status) :
    (st.accepted).err = 0#4 := rfl
@[simp] theorem accepted_detail (st : Status) :
    (st.accepted).detail = 0#8 := rfl

@[simp] theorem clear_busy (w : Word) (st : Status) :
    (st.clear w).busy = st.busy := rfl
@[simp] theorem clear_done (w : Word) (st : Status) :
    (st.clear w).done = (st.done && !w.getLsbD 1) := rfl
@[simp] theorem clear_ovr (w : Word) (st : Status) :
    (st.clear w).ovr = (st.ovr && !w.getLsbD 2) := rfl
@[simp] theorem clear_err (w : Word) (st : Status) :
    (st.clear w).err = st.err := rfl
@[simp] theorem clear_detail (w : Word) (st : Status) :
    (st.clear w).detail = st.detail := rfl

@[simp] theorem overrun_busy (st : Status) :
    (st.overrun).busy = st.busy := rfl
@[simp] theorem overrun_done (st : Status) :
    (st.overrun).done = st.done := rfl
@[simp] theorem overrun_ovr (st : Status) :
    (st.overrun).ovr = true := rfl
@[simp] theorem overrun_err (st : Status) :
    (st.overrun).err = st.err := rfl
@[simp] theorem overrun_detail (st : Status) :
    (st.overrun).detail = st.detail := rfl

/-! ### Fields of the reset state (10_state R22) -/

@[simp] theorem reset_cmd : State.reset.cmd = 0#64 := rfl
@[simp] theorem reset_status : State.reset.status = Status.reset := rfl
@[simp] theorem reset_irqEn : State.reset.irqEn = false := rfl
@[simp] theorem reset_arg : State.reset.arg = 0#64 := rfl
@[simp] theorem reset_tinLo : State.reset.tinLo = 0#64 := rfl
@[simp] theorem reset_tinHi : State.reset.tinHi = 0#64 := rfl
@[simp] theorem reset_toutLo : State.reset.toutLo = 0#64 := rfl
@[simp] theorem reset_toutHi : State.reset.toutHi = 0#64 := rfl
@[simp] theorem reset_result : State.reset.result = 0#64 := rfl
@[simp] theorem reset_rows : State.reset.rows = 0#64 := rfl
@[simp] theorem reset_cols : State.reset.cols = 0#64 := rfl
@[simp] theorem reset_srcAddr : State.reset.srcAddr = 0#64 := rfl
@[simp] theorem reset_srcLen : State.reset.srcLen = 0#64 := rfl
@[simp] theorem reset_dstAddr : State.reset.dstAddr = 0#64 := rfl
@[simp] theorem reset_dstLen : State.reset.dstLen = 0#64 := rfl
@[simp] theorem reset_errAddr : State.reset.errAddr = 0#64 := rfl
@[simp] theorem reset_engine : State.reset.engine = Engine.idle := rfl
@[simp] theorem reset_mem : State.reset.mem = [] := rfl
@[simp] theorem reset_platform : State.reset.platform = Platform.default := rfl
@[simp] theorem reset_inputs : State.reset.inputs = [] := rfl
@[simp] theorem reset_response : State.reset.response = .none := rfl
@[simp] theorem reset_draws : State.reset.draws = 0 := rfl

/-! ### Conditional updates: settling a race touches memory alone -/

theorem settle_eq (i : Instr) (s : State) : s.settle i = { s with mem := (s.settle i).mem } := by
  unfold State.settle; split <;> rfl

@[simp] theorem settle_cmd (i : Instr) (s : State) : (s.settle i).cmd = s.cmd := by
  rw [settle_eq]
@[simp] theorem settle_status (i : Instr) (s : State) : (s.settle i).status = s.status := by
  rw [settle_eq]
@[simp] theorem settle_irqEn (i : Instr) (s : State) : (s.settle i).irqEn = s.irqEn := by
  rw [settle_eq]
@[simp] theorem settle_arg (i : Instr) (s : State) : (s.settle i).arg = s.arg := by
  rw [settle_eq]
@[simp] theorem settle_tinLo (i : Instr) (s : State) : (s.settle i).tinLo = s.tinLo := by
  rw [settle_eq]
@[simp] theorem settle_tinHi (i : Instr) (s : State) : (s.settle i).tinHi = s.tinHi := by
  rw [settle_eq]
@[simp] theorem settle_toutLo (i : Instr) (s : State) : (s.settle i).toutLo = s.toutLo := by
  rw [settle_eq]
@[simp] theorem settle_toutHi (i : Instr) (s : State) : (s.settle i).toutHi = s.toutHi := by
  rw [settle_eq]
@[simp] theorem settle_result (i : Instr) (s : State) : (s.settle i).result = s.result := by
  rw [settle_eq]
@[simp] theorem settle_rows (i : Instr) (s : State) : (s.settle i).rows = s.rows := by
  rw [settle_eq]
@[simp] theorem settle_cols (i : Instr) (s : State) : (s.settle i).cols = s.cols := by
  rw [settle_eq]
@[simp] theorem settle_srcAddr (i : Instr) (s : State) : (s.settle i).srcAddr = s.srcAddr := by
  rw [settle_eq]
@[simp] theorem settle_srcLen (i : Instr) (s : State) : (s.settle i).srcLen = s.srcLen := by
  rw [settle_eq]
@[simp] theorem settle_dstAddr (i : Instr) (s : State) : (s.settle i).dstAddr = s.dstAddr := by
  rw [settle_eq]
@[simp] theorem settle_dstLen (i : Instr) (s : State) : (s.settle i).dstLen = s.dstLen := by
  rw [settle_eq]
@[simp] theorem settle_errAddr (i : Instr) (s : State) : (s.settle i).errAddr = s.errAddr := by
  rw [settle_eq]
@[simp] theorem settle_engine (i : Instr) (s : State) : (s.settle i).engine = s.engine := by
  rw [settle_eq]
@[simp] theorem settle_platform (i : Instr) (s : State) : (s.settle i).platform = s.platform := by
  rw [settle_eq]
@[simp] theorem settle_inputs (i : Instr) (s : State) : (s.settle i).inputs = s.inputs := by
  rw [settle_eq]
@[simp] theorem settle_response (i : Instr) (s : State) : (s.settle i).response = s.response := by
  rw [settle_eq]
@[simp] theorem settle_draws (i : Instr) (s : State) : (s.settle i).draws = s.draws := by
  rw [settle_eq]

theorem settle_mem (i : Instr) (s : State) :
    (s.settle i).mem = if s.engine.raced then s.racedMem i else s.mem := by
  unfold State.settle; split <;> rfl

/-- Without a race nothing is settled (20_memory R72). -/
theorem settle_raceFree (i : Instr) (s : State) (h : s.engine.raced = false) : s.settle i = s := by
  simp [State.settle, h]

end Sys2Proof.Machine
end

