-- ==== Sys2Proof/Laws/Ops.lean ====
section
/-! SUPPORT. One lemma per shared operation that says once what it can do. -/

namespace Sys2Proof.Machine

/-! ### Races and completion -/

/-- A race record is empty exactly when the host kept 20_memory R72. -/
theorem raced_false_iff (e : Engine) : e.raced = false ↔ e.racedReads = [] ∧ e.racedWrite = false := by
  cases h : e.racedReads <;> simp [Engine.raced, h]

theorem settle_wf (i : Instr) (s : State) (h : s.mem.wf = true) : (s.settle i).mem.wf = true := by
  rw [settle_mem]
  split
  · exact fill_wf _ _ _ _ h
  · exact h

/-- Settling a race reaches no byte outside the write footprint. -/
theorem read_settle_outside (i : Instr) (s : State) (a : Nat) (h : s.mem.wf = true)
    (ha : inRange (writeRange i s.engine.lat) a = false) : (s.settle i).mem.read a = s.mem.read a := by
  rw [settle_mem]
  split
  · rw [State.racedMem, read_fill _ _ _ _ _ h, if_neg]
    simp only [inRange, decide_eq_false_iff_not] at ha
    omega
  · rfl

/-- `conclude` changes memory alone beside what `finish` writes. -/
theorem conclude_eq (i : Instr) (v : Verdict) (s : State) :
    s.conclude i v = ({ s with mem := (s.settle i).mem } : State).finish v := by
  rw [State.conclude, ← settle_eq]

@[simp] theorem conclude_mem (i : Instr) (v : Verdict) (s : State) : (s.conclude i v).mem = (s.settle i).mem := rfl

/-- Without a race `conclude` is `finish`. -/
theorem conclude_raceFree (i : Instr) (v : Verdict) (s : State) (h : s.engine.raced = false) :
    s.conclude i v = s.finish v := by rw [State.conclude, settle_raceFree i s h]

/-- What the last phase of a matrix command can do: complete with OK and the bytes written, or with BUS_ERROR WRITE at a
failing address and the footprint spoiled (42_matrix R156, R158, R165, R167). -/
theorem writeOut_cases (i : Instr) (bytes : List Byte) (s : State) :
    (failingWrites s.platform i s.engine.lat = [] ∧
      s.writeOut i bytes =
        ({ s with mem := s.mem.writeBytes (writeRange i s.engine.lat).1 bytes } : State).conclude i .ok) ∨
    ∃ x, x ∈ failingWrites s.platform i s.engine.lat ∧
      s.writeOut i bytes = (s.spoil i).conclude i (.busError .write (BitVec.ofNat 64 x)) := by
  unfold State.writeOut
  split
  · rename_i h; exact .inl ⟨h, rfl⟩
  · rename_i x xs h
    refine .inr ⟨s.reportedWrite x xs, ?_, rfl⟩
    rw [h, State.reportedWrite]
    have hlt : Config.writeErrorChoice s.draws % (xs.length + 1) < (x :: xs).length := Nat.mod_lt _ (by simp)
    rw [List.getD_eq_getElem _ _ hlt]
    exact List.getElem_mem hlt

theorem spoiledMem_wf (i : Instr) (s : State) (h : s.mem.wf = true) : (s.spoiledMem i).wf = true := fill_wf _ _ _ _ h

/-- A spoiled footprint: a byte outside it, or whose write access fails, is unchanged (42_matrix R158, R167). -/
theorem read_spoiledMem (i : Instr) (s : State) (a : Nat) (h : s.mem.wf = true)
    (ha : inRange (writeRange i s.engine.lat) a = false ∨ writable s.platform i s.engine.lat a = false) :
    (s.spoiledMem i).read a = s.mem.read a := by
  rw [State.spoiledMem, read_fill _ _ _ _ _ h]
  split
  · rename_i hr
    rcases ha with ha | ha
    · simp only [inRange, decide_eq_false_iff_not] at ha
      omega
    · simp [ha]
  · rfl

theorem writeOut_wf (i : Instr) (bytes : List Byte) (s : State) (h : s.mem.wf = true) :
    (s.writeOut i bytes).mem.wf = true := by
  rcases writeOut_cases i bytes s with ⟨_, he⟩ | ⟨x, _, he⟩
  · rw [he, conclude_mem]; exact settle_wf _ _ (writeBytes_wf _ _ _ h)
  · rw [he, conclude_mem]; exact settle_wf _ _ (spoiledMem_wf _ _ h)

/-- The last phase changes memory alone beside what `finish` writes. -/
theorem writeOut_eq (i : Instr) (bytes : List Byte) (s : State) :
    ∃ m v, s.writeOut i bytes = ({ s with mem := m } : State).finish v := by
  rcases writeOut_cases i bytes s with ⟨_, he⟩ | ⟨x, _, he⟩
  · rw [he, conclude_eq]; exact ⟨_, _, rfl⟩
  · rw [he, conclude_eq]; exact ⟨_, _, rfl⟩

/-! ### The register window on the two ports (20_memory R69, 10_state R20) -/

/-- An access touches the window exactly when one of its bytes is a byte of it. -/
theorem touchesWindow_iff (p : Platform) (addr : Nat) (size : AccessSize) :
    touchesWindow p addr size = true ↔
      addr < p.tcodecBase.toNat + 256 ∧ p.tcodecBase.toNat < addr + size.bytes := by
  cases size <;> simp [touchesWindow, overlap, AccessSize.bytes, Config.windowSize]

/-- BusOK is false on the register window (20_memory R69). -/
theorem busOK_window (p : Platform) (addr : Nat) (size : AccessSize) (dir : Dir)
    (h : touchesWindow p addr size = true) : busOK p addr size dir = false := by simp [busOK, h]

/-- The offset of a host-bus address, where it has one (10_state R20). -/
theorem offset_eq_some_iff (p : Platform) (addr : Word) (off : Nat) :
    p.offset addr = some off ↔ addr.toNat = p.tcodecBase.toNat + off ∧ off < 256 := by
  rw [Platform.offset, Config.windowSize, Option.ite_none_right_eq_some, Option.some_inj]
  omega

/-! ### Acceptance -/

/-- A CMD write while BUSY = 1 sets OVR and nothing else (30_encoding R84). -/
theorem issue_busy (w : Word) (s : State) (h : s.status.busy = true) :
    s.issue w = { s with status := s.status.overrun } := by simp [State.issue, h]

/-- A CMD write with BUSY = 0 is accepted (30_encoding R84). -/
theorem issue_idle (w : Word) (s : State) (h : s.status.busy = false) : s.issue w = s.accept w := by
  simp [State.issue, h]

/-! ### The register window -/

/-- No register access touches memory, what the host does next, or the platform. -/
theorem writeReg_frame (s : State) (off : Nat) (v : Word) :
    (s.writeReg off v).mem = s.mem ∧ (s.writeReg off v).inputs = s.inputs ∧ (s.writeReg off v).platform = s.platform ∧
      (s.writeReg off v).toutLo = s.toutLo ∧ (s.writeReg off v).toutHi = s.toutHi ∧
      (s.writeReg off v).result = s.result ∧ (s.writeReg off v).errAddr = s.errAddr := by
  unfold State.writeReg
  split <;> try exact ⟨rfl, rfl, rfl, rfl, rfl, rfl, rfl⟩
  unfold State.issue
  split <;> exact ⟨rfl, rfl, rfl, rfl, rfl, rfl, rfl⟩

/-- What a register write can do to the engine and STATUS: nothing, the three STATUS operations, or acceptance. -/
theorem writeReg_cases (s : State) (off : Nat) (v : Word) :
    (s.writeReg off v).engine = s.engine ∧ (s.writeReg off v).cmd = s.cmd ∧
        ((s.writeReg off v).status = s.status ∨ (s.writeReg off v).status = s.status.clear v ∨
          (s.writeReg off v).status = s.status.overrun) ∨
      s.status.busy = false ∧ s.writeReg off v = s.accept v := by
  unfold State.writeReg
  split <;> try exact .inl ⟨rfl, rfl, .inl rfl⟩
  · by_cases h : s.status.busy = true
    · rw [issue_busy _ _ h]; exact .inl ⟨rfl, rfl, .inr (.inr rfl)⟩
    · have h : s.status.busy = false := by simpa using h
      rw [issue_idle _ _ h]; exact .inr ⟨h, rfl⟩
  · exact .inl ⟨rfl, rfl, .inr (.inl rfl)⟩

/-- What a host read on the port can do: answer (10_state R21). -/
theorem hostRead_eq (addr : Word) (size : Nat) (s : State) :
    ∃ r, s.hostRead addr size = { s with response := r } := by
  unfold State.hostRead
  split
  · exact ⟨_, rfl⟩
  · split <;> exact ⟨_, rfl⟩

/-- What a host write on the port can do: answer, and write one register (10_state R21). -/
theorem hostWrite_cases (addr : Word) (size : Nat) (v : Word) (s : State) :
    (∃ r, s.hostWrite addr size v = { s with response := r }) ∨
      ∃ off, s.hostWrite addr size v = { s.writeReg off v with response := .written } := by
  unfold State.hostWrite
  split
  · exact .inl ⟨_, rfl⟩
  · split
    · exact .inr ⟨_, rfl⟩
    · exact .inl ⟨_, rfl⟩

/-! ### Memory accesses of the host, and the platform -/

/-- What a host read of memory can do: answer, and count a draw (20_memory R72). -/
theorem hostLoad_eq (addr : Word) (s : State) : ∃ r d, s.hostLoad addr = { s with response := r, draws := d } := by
  unfold State.hostLoad
  split
  · exact ⟨_, _, rfl⟩
  · exact ⟨_, s.draws, rfl⟩

/-- With BUSY = 0 no host write is a race (20_memory R72). -/
theorem noteRace_idle (a : Nat) (s : State) (h : s.status.busy = false) : s.noteRace a = s.engine := by
  simp [State.noteRace, State.busyReadRange, State.busyWriteRange, h, inRange]

/-- Outside both footprints no host write is a race (20_memory R72). -/
theorem noteRace_outside (a : Nat) (s : State) (hr : inRange s.busyReadRange a = false)
    (hw : inRange s.busyWriteRange a = false) : s.noteRace a = s.engine := by
  simp [State.noteRace, hr, hw]

@[simp] theorem noteRace_lat (a : Nat) (s : State) : (s.noteRace a).lat = s.engine.lat := rfl

/-- What a change of BusOK can do (20_memory R68). -/
theorem remap_cases (holes : List BusHole) (s : State) :
    s.status.busy = true ∧ s.remap holes = s ∨
      s.status.busy = false ∧ s.remap holes = { s with platform := { s.platform with holes := holes } } := by
  cases h : s.status.busy <;> simp [State.remap, h]

theorem resetMem_wf (s : State) (h : s.mem.wf = true) : s.resetMem.wf = true := by
  unfold State.resetMem
  split
  · split
    · exact fill_wf _ _ _ _ h
    · exact h
  · exact h

/-- With BUSY = 0 reset writes no memory (70_reset R222). -/
theorem resetMem_idle (s : State) (h : s.status.busy = false) : s.resetMem = s.mem := by simp [State.resetMem, h]

end Sys2Proof.Machine
end

