-- ==== Sys2Proof/Laws/Codec.lean ====
section
/-! SUPPORT. Spec lemmas of the codec's shared functions: trit codes and vectors, digit extraction, lengths of packed and
decoded data, and the two scans over memory. -/

namespace Sys2Proof.Machine

/-! ### Trits and their codes (30_encoding R86) -/

@[simp] theorem ofCode_code (t : Trit) : Trit.ofCode t.code = some t := by cases t <;> rfl

@[simp] theorem ofDigit_digit (t : Trit) : Trit.ofDigit t.digit = t := by cases t <;> rfl

theorem digit_lt_three (t : Trit) : t.digit < 3 := by cases t <;> decide

theorem digit_eq_val (t : Trit) : (t.digit : Int) = t.val + 1 := by cases t <;> rfl

theorem code_lt_four (t : Trit) : t.code.toNat < 4 := t.code.isLt

/-- Code 0b10 is the one code that is no trit. -/
theorem ofCode_none_iff (c : BitVec 2) : Trit.ofCode c = none ↔ c = 0b10#2 := by revert c; decide

theorem ofCode_some_iff (c : BitVec 2) (t : Trit) : Trit.ofCode c = some t ↔ c = t.code := by
  revert c; cases t <;> decide

/-- A valid code is the 2-bit two's complement of the trit (30_encoding R86). -/
theorem code_eq_ofInt (t : Trit) : t.code = BitVec.ofInt 2 t.val := by cases t <;> rfl

/-- The code of a base-3 digit is the two's complement of the digit less one (41_packer R121). -/
theorem ofDigit_code (d : Nat) (h : d < 3) : (Trit.ofDigit d).code = BitVec.ofInt 2 ((d : Int) - 1) := by
  match d, h with
  | 0, _ => rfl
  | 1, _ => rfl
  | 2, _ => rfl

theorem code_valid (t : Trit) : t.code ≠ 0b10#2 := by cases t <;> decide

/-! ### Trit vectors in registers (10_state R30, 30_encoding R87) -/

/-- Position `i` of the codes of a sequence: its trit's code, or 0 past its end. -/
theorem tritCodes_digit (ts : List Trit) (i : Nat) :
    tritCodes ts / 4 ^ i % 4 = if i < ts.length then (ts.getD i .zero).code.toNat else 0 := by
  induction ts generalizing i with
  | nil => simp [tritCodes]
  | cons t ts ih =>
    have ht := code_lt_four t
    cases i with
    | zero => simp only [tritCodes, pow_zero, Nat.div_one, List.length_cons, List.getD_cons_zero]; simp; omega
    | succ i =>
      have h : tritCodes (t :: ts) / 4 ^ (i + 1) = tritCodes ts / 4 ^ i := by
        rw [pow_succ', ← Nat.div_div_eq_div_mul]
        congr 1
        simp only [tritCodes]
        omega
      rw [h, ih i]
      simp

/-- The 2-bit field `i` of a 64-bit word. -/
theorem extract_pair (k i : Nat) (hi : i < 32) :
    ((BitVec.ofNat 64 k).extractLsb' (2 * i) 2).toNat = k / 4 ^ i % 4 := by
  rw [BitVec.extractLsb'_toNat, BitVec.toNat_ofNat, Nat.shiftRight_eq_div_pow, pow_mul]
  norm_num only
  have h64 : (18446744073709551616 : Nat) = 4 ^ i * 4 ^ (32 - i) := by
    rw [← pow_add, Nat.add_sub_cancel' (by omega)]; norm_num
  rw [h64, Nat.mod_mul_right_div_self, Nat.mod_mod_of_dvd]
  exact dvd_pow_self 4 (by omega)

/-- A trit vector read back from its two registers: the trit's code below the sequence's length, 0b00 from it on (40_scalar
R103, 41_packer R123). -/
theorem tritCodeAt_trits (ts : List Trit) (i : Nat) (hi : i < 64) :
    tritCodeAt (tritsLo ts) (tritsHi ts) i = if i < ts.length then (ts.getD i .zero).code else 0b00#2 := by
  apply BitVec.eq_of_toNat_eq
  have hcode : (if i < ts.length then (ts.getD i .zero).code else 0b00#2).toNat =
      if i < ts.length then (ts.getD i .zero).code.toNat else 0 := by split <;> rfl
  rw [hcode, tritCodeAt]
  split
  · rename_i h
    rw [tritsLo, extract_pair _ _ h, tritCodes_digit, List.length_take]
    by_cases hl : i < ts.length
    · rw [if_pos (by omega), if_pos hl]
      congr 2
      simp [List.getD_eq_getElem?_getD, h]
    · rw [if_neg (by omega), if_neg hl]
  · rename_i h
    rw [tritsHi, extract_pair _ _ (by omega), tritCodes_digit, List.length_drop]
    by_cases hl : i < ts.length
    · rw [if_pos (by omega), if_pos hl]
      congr 2
      simp [List.getD_eq_getElem?_getD, List.getElem?_drop, show 32 + (i - 32) = i by omega]
    · rw [if_neg (by omega), if_neg hl]

/-- Reading valid codes gives their trits (40_scalar R104). -/
theorem readTrits_ok (lo hi : Word) (ts : List Trit) (i : Nat)
    (h : ∀ j, j < ts.length → tritCodeAt lo hi (i + j) = (ts.getD j .zero).code) :
    readTrits lo hi i ts.length = .ok ts := by
  induction ts generalizing i with
  | nil => rfl
  | cons t ts ih =>
    have h0 : tritCodeAt lo hi i = t.code := by simpa using h 0 (by simp)
    have hr : readTrits lo hi (i + 1) ts.length = .ok ts := by
      refine ih (i + 1) fun j hj => ?_
      have := h (j + 1) (by simpa using hj)
      simpa [Nat.add_assoc, Nat.add_comm 1 j] using this
    simp [readTrits, h0, hr]

/-- Reading stops at the lowest invalid code (40_scalar R104, 41_packer R122). -/
theorem readTrits_error (lo hi : Word) (i j count : Nat) (hj : j < count) (hbad : tritCodeAt lo hi (i + j) = 0b10#2)
    (hlow : ∀ k, k < j → tritCodeAt lo hi (i + k) ≠ 0b10#2) : readTrits lo hi i count = .error (i + j) := by
  induction j generalizing i count with
  | zero =>
    obtain ⟨count, rfl⟩ := Nat.exists_eq_succ_of_ne_zero (by omega : count ≠ 0)
    have : Trit.ofCode (tritCodeAt lo hi i) = none := (ofCode_none_iff _).2 (by simpa using hbad)
    simp [readTrits, this]
  | succ j ih =>
    obtain ⟨count, rfl⟩ := Nat.exists_eq_succ_of_ne_zero (by omega : count ≠ 0)
    have hne : tritCodeAt lo hi i ≠ 0b10#2 := by simpa using hlow 0 (by omega)
    obtain ⟨t, ht⟩ := Option.ne_none_iff_exists'.1 (fun h => hne ((ofCode_none_iff _).1 h))
    have hr := ih (i + 1) count (by omega) (by rw [show i + 1 + j = i + (j + 1) by omega]; exact hbad)
      (fun k hk => by rw [show i + 1 + k = i + (k + 1) by omega]; exact hlow (k + 1) (by omega))
    simp [readTrits, ht, hr]
    omega

/-! ### Lengths -/

@[simp] theorem btDigits_length (k : Int) (n : Nat) : (btDigits k n).length = n := by
  induction n generalizing k with
  | zero => rfl
  | succ n ih => simp only [btDigits]; split <;> [skip; split] <;> simp [ih]

@[simp] theorem unpack5_length (b : Byte) : (unpack5 b).length = 5 := rfl

@[simp] theorem leBytes_length (b : BitVec 32) : (leBytes b).length = 4 := rfl

/-- The encoding of a value has `n` trits (40_scalar R103). -/
theorem enc_length (b : BitVec 32) (n : Nat) (ts : List Trit) (h : enc b n = some ts) : ts.length = n := by
  simp only [enc, Option.map_eq_some_iff] at h
  obtain ⟨k, _, rfl⟩ := h
  exact btDigits_length k n

/-- `enc` has no answer exactly for NaN (40_scalar R103). -/
theorem enc_none_iff (b : BitVec 32) (n : Nat) : enc b n = none ↔ f32 b = .nan := by
  simp only [enc, quantize, Option.map_eq_none_iff]
  cases h : f32 b with
  | nan => simp [F32.clamped]
  | inf neg => cases neg <;> simp [F32.clamped]
  | finite z => simp [F32.clamped]

/-- The stream fills whole bytes (42_matrix R145). -/
theorem tritStream_length (elems : List (List Trit)) :
    (tritStream elems).length = 5 * ((elems.flatten.length + 4) / 5) := by
  simp only [tritStream, List.length_append, List.length_replicate]
  omega

/-- The packed buffer has requiredBytes bytes (42_matrix R146). -/
theorem packedBytes_length (elems : List (List Trit)) :
    (packedBytes elems).length = (elems.flatten.length + 4) / 5 := by
  simp only [packedBytes, List.length_map, List.length_range, tritStream_length]
  omega

/-- Elements of `n` trits each have `elems · n` trits together (42_matrix R140). -/
theorem flatten_length (tss : List (List Trit)) (n : Nat) (h : ∀ ts ∈ tss, ts.length = n) :
    tss.flatten.length = tss.length * n := by
  induction tss with
  | nil => simp
  | cons ts tss ih =>
    rw [List.flatten_cons, List.length_append, h ts (by simp), ih fun t ht => h t (by simp [ht]), List.length_cons]
    ring

@[simp] theorem mdecOutput_length (l : Latches) (n : Nat) (bytes : List Byte) :
    (mdecOutput l n bytes).length = 4 * l.elems := by
  simp [mdecOutput, decodedElements, List.length_flatMap, Function.comp_def, Nat.mul_comm]

/-! ### Dimensions: the signed and the unsigned reading agree on the legal range (10_state R33) -/

/-- A dimension register is in range as a signed number exactly when it is as an unsigned one. -/
theorem dimOutOfRange_toInt (w : Word) : dimOutOfRange w.toInt = false ↔ 1 ≤ w.toNat ∧ w.toNat ≤ 2 ^ 31 - 1 := by
  have hlt := w.isLt
  rw [dimOutOfRange, decide_eq_false_iff_not, Config.dimMax, BitVec.toInt_eq_toNat_cond]
  split <;> omega

/-- On legal dimensions the element count is the product of the unsigned values. -/
theorem elems_eq (l : Latches) (hr : l.rows.toNat ≤ 2 ^ 31 - 1) (hc : l.cols.toNat ≤ 2 ^ 31 - 1) :
    l.elems = l.rows.toNat * l.cols.toNat := by
  have h1 : l.rows.toInt = (l.rows.toNat : Int) := by rw [BitVec.toInt_eq_toNat_cond, if_pos (by omega)]
  have h2 : l.cols.toInt = (l.cols.toNat : Int) := by rw [BitVec.toInt_eq_toNat_cond, if_pos (by omega)]
  rw [Latches.elems, Latches.rowCount, Latches.colCount, h1, h2, ← Int.natCast_mul, Int.toNat_natCast]

/-! ### The scans (42_matrix R155, R164) -/

/-- A scan that meets no failing read and no NaN gives every element's trits. -/
theorem scanMenc_ok (n : Nat) (s : State) (ts : Nat → List Trit) (e count : Nat)
    (hb : ∀ j, j < count → busOK s.platform (s.engine.lat.src + 4 * (e + j)) .four .read = true)
    (ht : ∀ j, j < count → enc (s.portFloat (s.engine.lat.src + 4 * (e + j))) n = some (ts (e + j))) :
    scanMenc n s e count = .ok ((List.range count).map fun j => ts (e + j)) := by
  induction count generalizing e with
  | zero => rfl
  | succ count ih =>
    have hb0 := hb 0 (by omega)
    have ht0 := ht 0 (by omega)
    rw [Nat.add_zero] at hb0 ht0
    have hr := ih (e + 1)
      (fun j hj => by rw [show e + 1 + j = e + (j + 1) by omega]; exact hb (j + 1) (by omega))
      (fun j hj => by rw [show e + 1 + j = e + (j + 1) by omega]; exact ht (j + 1) (by omega))
    simp only [scanMenc, hb0, ht0, hr, Bool.not_true, Bool.false_eq_true, if_false]
    rw [List.range_succ_eq_map, List.map_cons, List.map_map]
    simp [Function.comp_def, Nat.add_assoc, Nat.add_comm 1]

/-- A scan stops at the lowest element that fails: a failing read, or else a NaN (42_matrix R155). -/
theorem scanMenc_error (n : Nat) (s : State) (e j count : Nat) (hj : j < count)
    (hlow : ∀ k, k < j → busOK s.platform (s.engine.lat.src + 4 * (e + k)) .four .read = true ∧
      enc (s.portFloat (s.engine.lat.src + 4 * (e + k))) n ≠ none) :
    (busOK s.platform (s.engine.lat.src + 4 * (e + j)) .four .read = false →
      scanMenc n s e count = .error (.busError .read (BitVec.ofNat 64 (s.engine.lat.src + 4 * (e + j))))) ∧
    (busOK s.platform (s.engine.lat.src + 4 * (e + j)) .four .read = true →
      enc (s.portFloat (s.engine.lat.src + 4 * (e + j))) n = none →
      scanMenc n s e count = .error (.invalidArgument .nanValue (BitVec.ofNat 64 (s.engine.lat.src + 4 * (e + j))))) := by
  induction j generalizing e count with
  | zero =>
    obtain ⟨count, rfl⟩ := Nat.exists_eq_succ_of_ne_zero (by omega : count ≠ 0)
    simp only [Nat.add_zero]
    constructor
    · intro hb; simp [scanMenc, hb]
    · intro hb he; simp [scanMenc, hb, he]
  | succ j ih =>
    obtain ⟨count, rfl⟩ := Nat.exists_eq_succ_of_ne_zero (by omega : count ≠ 0)
    obtain ⟨hb0, he0⟩ := hlow 0 (by omega)
    rw [Nat.add_zero] at hb0 he0
    obtain ⟨ts, hts⟩ := Option.ne_none_iff_exists'.1 he0
    have hr := ih (e + 1) count (by omega) fun k hk => by
      rw [show e + 1 + k = e + (k + 1) by omega]; exact hlow (k + 1) (by omega)
    rw [show e + 1 + j = e + (j + 1) by omega] at hr
    constructor
    · intro hb; simp [scanMenc, hb0, hts, hr.1 hb]
    · intro hb he; simp [scanMenc, hb0, hts, hr.2 hb he]

/-- A read that meets no failing access gives the bytes. -/
theorem readMdec_ok (s : State) (j count : Nat)
    (hb : ∀ k, k < count → busOK s.platform (s.engine.lat.src + (j + k)) .one .read = true) :
    readMdec s j count = .ok ((List.range count).map fun k => s.portByte (s.engine.lat.src + (j + k))) := by
  induction count generalizing j with
  | zero => rfl
  | succ count ih =>
    have hb0 := hb 0 (by omega)
    rw [Nat.add_zero] at hb0
    have hr := ih (j + 1) fun k hk => by
      rw [show j + 1 + k = j + (k + 1) by omega]; exact hb (k + 1) (by omega)
    simp only [readMdec, hb0, hr, Bool.not_true, Bool.false_eq_true, if_false]
    rw [List.range_succ_eq_map, List.map_cons, List.map_map]
    simp [Function.comp_def, Nat.add_assoc, Nat.add_comm 1]

/-- A read stops at the lowest failing byte (42_matrix R164). -/
theorem readMdec_error (s : State) (j k count : Nat) (hk : k < count)
    (hlow : ∀ k', k' < k → busOK s.platform (s.engine.lat.src + (j + k')) .one .read = true)
    (hb : busOK s.platform (s.engine.lat.src + (j + k)) .one .read = false) :
    readMdec s j count = .error (.busError .read (BitVec.ofNat 64 (s.engine.lat.src + (j + k)))) := by
  induction k generalizing j count with
  | zero =>
    obtain ⟨count, rfl⟩ := Nat.exists_eq_succ_of_ne_zero (by omega : count ≠ 0)
    rw [Nat.add_zero] at hb ⊢
    simp [readMdec, hb]
  | succ k ih =>
    obtain ⟨count, rfl⟩ := Nat.exists_eq_succ_of_ne_zero (by omega : count ≠ 0)
    have hb0 := hlow 0 (by omega)
    rw [Nat.add_zero] at hb0
    have hr := ih (j + 1) count (by omega)
      (fun k' hk' => by rw [show j + 1 + k' = j + (k' + 1) by omega]; exact hlow (k' + 1) (by omega))
      (by rw [show j + 1 + k = j + (k + 1) by omega]; exact hb)
    rw [show j + 1 + k = j + (k + 1) by omega] at hr
    simp [readMdec, hb0, hr]

/-- Without a race the engine reads what memory holds (20_memory R70). -/
theorem portByte_raceFree (s : State) (a : Nat) (h : s.engine.racedReads = []) : s.portByte a = s.mem.read a := by
  simp [State.portByte, h]

/-- Without a race the engine reads the float that memory holds (20_memory R61, R70). -/
theorem portFloat_raceFree (s : State) (a : Nat) (h : s.engine.racedReads = []) :
    s.portFloat a = leWord (s.mem.read a) (s.mem.read (a + 1)) (s.mem.read (a + 2)) (s.mem.read (a + 3)) := by
  simp [State.portFloat, portByte_raceFree _ _ h]

end Sys2Proof.Machine
end

