-- ==== Sys2Proof/Laws/Exec.lean ====
section
/-! SUPPORT. One inversion lemma per meaning, and for the dispatch: every command ends in one `finish` of a state that
differs from the old one in the result registers and memory alone (60_exceptions R181, R185). -/

namespace Sys2Proof.Machine

/-- What SENC can do (40_scalar R103). -/
theorem execSenc_cases (n : Nat) (s : State) :
    (nOutOfRange n = true ∧ execSenc n s = .next (s.finish (.invalidArgument .nRange 0#64))) ∨
    (nOutOfRange n = false ∧ enc s.engine.lat.float n = none ∧
      execSenc n s = .next (s.finish (.invalidArgument .nanValue 0#64))) ∨
    ∃ ts, nOutOfRange n = false ∧ enc s.engine.lat.float n = some ts ∧
      execSenc n s = .next (({ s with toutLo := tritsLo ts, toutHi := tritsHi ts } : State).finish .ok) := by
  unfold execSenc
  cases hn : nOutOfRange n
  · cases he : enc s.engine.lat.float n <;> simp
  · simp

/-- What SDEC can do (40_scalar R104). -/
theorem execSdec_cases (n : Nat) (s : State) :
    (64 < n ∧ execSdec n s = .next (s.finish (.invalidArgument .nRange 0#64))) ∨
    (n = 0 ∧ execSdec n s = .next (({ s with result := 0#64 } : State).finish .ok)) ∨
    (∃ j, 1 ≤ n ∧ n ≤ 64 ∧ s.engine.lat.trits n = .error j ∧
      execSdec n s = .next (s.finish (.invalidArgument .badTrit (BitVec.ofNat 64 j)))) ∨
    ∃ ts, 1 ≤ n ∧ n ≤ 64 ∧ s.engine.lat.trits n = .ok ts ∧
      execSdec n s = .next (({ s with result := (dec ts).setWidth 64 } : State).finish .ok) := by
  unfold execSdec
  simp only [Config.tpvMax]
  by_cases h1 : 64 < n
  · exact .inl ⟨h1, by simp [h1]⟩
  · by_cases h0 : n = 0
    · exact .inr (.inl ⟨h0, by simp [h0]⟩)
    · cases ht : s.engine.lat.trits n with
      | error j => exact .inr (.inr (.inl ⟨j, by omega, by omega, rfl, by simp [h1, h0]⟩))
      | ok ts => exact .inr (.inr (.inr ⟨ts, by omega, by omega, rfl, by simp [h1, h0]⟩))

/-- What PACK can do (41_packer R122). -/
theorem execPack_cases (s : State) :
    (∃ j, s.engine.lat.trits 5 = .error j ∧
      execPack s = .next (s.finish (.invalidArgument .badTrit (BitVec.ofNat 64 j)))) ∨
    ∃ ts, s.engine.lat.trits 5 = .ok ts ∧
      execPack s = .next (({ s with result := (pack5 ts).setWidth 64 } : State).finish .ok) := by
  unfold execPack
  simp only [Config.group]
  cases ht : s.engine.lat.trits 5 <;> simp

/-- What REQB can do (42_matrix R148). -/
theorem execReqb_cases (n : Nat) (s : State) :
    (∃ why, checkDims s.engine.lat n = some why ∧ execReqb n s = .next (s.finish (.invalidArgument why 0#64))) ∨
    (checkDims s.engine.lat n = none ∧ 2 ^ 64 ≤ requiredBytes s.engine.lat.elems n ∧
      execReqb n s = .next (s.finish (.invalidArgument .sizeOverflow 0#64))) ∨
    (checkDims s.engine.lat n = none ∧ requiredBytes s.engine.lat.elems n < 2 ^ 64 ∧
      execReqb n s = .next
        (({ s with result := BitVec.ofNat 64 (requiredBytes s.engine.lat.elems n) } : State).finish .ok)) := by
  unfold execReqb
  cases hc : checkDims s.engine.lat n with
  | some why => exact .inl ⟨why, rfl, rfl⟩
  | none =>
    by_cases hr : 2 ^ 64 ≤ requiredBytes s.engine.lat.elems n
    · exact .inr (.inl ⟨rfl, hr, by simp only [if_pos hr]⟩)
    · exact .inr (.inr ⟨rfl, by omega, by simp only [if_neg hr]⟩)

/-- What MENC can do: fail a check, fail in the scan, or write (42_matrix R150). -/
theorem execMenc_cases (n : Nat) (s : State) :
    (∃ why, validateMenc s.engine.lat n = some why ∧
      execMenc n s = .next (s.conclude (.menc n) (.invalidArgument why 0#64))) ∨
    (∃ v, validateMenc s.engine.lat n = none ∧ scanMenc n s 0 s.engine.lat.elems = .error v ∧
      execMenc n s = .next (s.conclude (.menc n) v)) ∨
    ∃ tss, validateMenc s.engine.lat n = none ∧ scanMenc n s 0 s.engine.lat.elems = .ok tss ∧
      execMenc n s = .next (s.writeOut (.menc n) (mencOutput s.engine.lat tss)) := by
  unfold execMenc
  cases hv : validateMenc s.engine.lat n with
  | some why => exact .inl ⟨why, rfl, rfl⟩
  | none =>
    cases hs : scanMenc n s 0 s.engine.lat.elems with
    | error v => exact .inr (.inl ⟨v, rfl, rfl, rfl⟩)
    | ok tss => exact .inr (.inr ⟨tss, rfl, rfl, rfl⟩)

/-- What MDEC can do: fail a check, fail in the read, or write (42_matrix R160). -/
theorem execMdec_cases (n : Nat) (s : State) :
    (∃ v, validateMdec s.engine.lat n = some v ∧ execMdec n s = .next (s.conclude (.mdec n) v)) ∨
    (∃ v, validateMdec s.engine.lat n = none ∧
      readMdec s 0 (requiredBytes s.engine.lat.elems n) = .error v ∧ execMdec n s = .next (s.conclude (.mdec n) v)) ∨
    ∃ bytes, validateMdec s.engine.lat n = none ∧
      readMdec s 0 (requiredBytes s.engine.lat.elems n) = .ok bytes ∧
      execMdec n s = .next (s.writeOut (.mdec n) (mdecOutput s.engine.lat n bytes)) := by
  unfold execMdec
  cases hv : validateMdec s.engine.lat n with
  | some v => exact .inl ⟨v, rfl, rfl⟩
  | none =>
    cases hs : readMdec s 0 (requiredBytes s.engine.lat.elems n) with
    | error v => exact .inr (.inl ⟨v, rfl, rfl, rfl⟩)
    | ok bytes => exact .inr (.inr ⟨bytes, rfl, rfl, rfl⟩)

/-- Every command is one `finish` of a state that differs in TOUT, RESULT and memory alone. -/
theorem exec_finishes (i : Instr) (s : State) : ∃ lo hi r m v,
    exec i s = .next (({ s with toutLo := lo, toutHi := hi, result := r, mem := m } : State).finish v) := by
  cases i with
  | senc n =>
    rcases execSenc_cases n s with ⟨_, h⟩ | ⟨_, _, h⟩ | ⟨ts, _, _, h⟩ <;> exact ⟨_, _, _, _, _, h⟩
  | sdec n =>
    rcases execSdec_cases n s with ⟨_, h⟩ | ⟨_, h⟩ | ⟨_, _, _, _, h⟩ | ⟨_, _, _, _, h⟩ <;> exact ⟨_, _, _, _, _, h⟩
  | pack => rcases execPack_cases s with ⟨_, _, h⟩ | ⟨_, _, h⟩ <;> exact ⟨_, _, _, _, _, h⟩
  | unpack => exact ⟨_, _, _, _, _, rfl⟩
  | reqb n =>
    rcases execReqb_cases n s with ⟨_, _, h⟩ | ⟨_, _, h⟩ | ⟨_, _, h⟩ <;> exact ⟨_, _, _, _, _, h⟩
  | menc n =>
    rcases execMenc_cases n s with ⟨_, _, h⟩ | ⟨_, _, _, h⟩ | ⟨tss, _, _, h⟩
    · rw [conclude_eq] at h; exact ⟨_, _, _, _, _, h⟩
    · rw [conclude_eq] at h; exact ⟨_, _, _, _, _, h⟩
    · obtain ⟨m, v, hw⟩ := writeOut_eq (.menc n) (mencOutput s.engine.lat tss) s
      rw [hw] at h; exact ⟨_, _, _, _, _, h⟩
  | mdec n =>
    rcases execMdec_cases n s with ⟨_, _, h⟩ | ⟨_, _, _, h⟩ | ⟨bytes, _, _, h⟩
    · rw [conclude_eq] at h; exact ⟨_, _, _, _, _, h⟩
    · rw [conclude_eq] at h; exact ⟨_, _, _, _, _, h⟩
    · obtain ⟨m, v, hw⟩ := writeOut_eq (.mdec n) (mdecOutput s.engine.lat n bytes) s
      rw [hw] at h; exact ⟨_, _, _, _, _, h⟩

/-- The engine's turn with no command in flight does nothing (60_exceptions R207). -/
theorem runEngine_idle (s : State) (h : s.status.busy = false) : runEngine s = .next s := by simp [runEngine, h]

/-- The engine's turn with an illegal word in flight (30_encoding R83, R90). -/
theorem runEngine_illegal (s : State) (why : IllegalWord) (h : s.status.busy = true)
    (hd : decode s.engine.lat.cmd = .error why) : runEngine s = .next (s.finish (.illegalCommand why)) := by
  simp [runEngine, h, hd]

/-- The engine's turn with a command in flight (30_encoding R90). -/
theorem runEngine_exec (s : State) (i : Instr) (h : s.status.busy = true) (hd : decode s.engine.lat.cmd = .ok i) :
    runEngine s = exec i s := by
  simp [runEngine, h, hd]

end Sys2Proof.Machine
end

