-- ==== Sys2Proof/Laws/Float.lean ====
section
/-! SUPPORT. Spec lemmas of the rounding functions: magnitudes rise with the pattern, what the bitwise search finds, and what
the nearest pattern and the nearest integer are (00_scope R13). -/

namespace Sys2Proof.Machine

/-- The next pattern has a greater magnitude, across the change of exponent as well. -/
theorem f32Magnitude_lt_succ (p : Nat) : f32Magnitude p < f32Magnitude (p + 1) := by
  unfold f32Magnitude
  by_cases hc : (p + 1) / 2 ^ 23 = p / 2 ^ 23
  · have hm : (p + 1) % 2 ^ 23 = p % 2 ^ 23 + 1 := by omega
    rw [hc, hm]
    split
    · omega
    · exact Nat.mul_lt_mul_of_pos_right (by omega) (by positivity)
  · have hd : (p + 1) / 2 ^ 23 = p / 2 ^ 23 + 1 := by omega
    have hm : (p + 1) % 2 ^ 23 = 0 := by omega
    have hp : p % 2 ^ 23 = 2 ^ 23 - 1 := by omega
    rw [hd, hm, hp]
    by_cases h0 : p / 2 ^ 23 = 0
    · rw [if_pos h0, if_neg (by omega), h0]; norm_num
    · obtain ⟨e, he⟩ := Nat.exists_eq_succ_of_ne_zero h0
      rw [if_neg h0, if_neg (by omega), he]
      simp only [Nat.succ_eq_add_one, Nat.add_sub_cancel, pow_succ]
      have : 0 < 2 ^ e := by positivity
      omega

theorem f32Magnitude_strictMono : StrictMono f32Magnitude := strictMono_nat_of_lt_succ f32Magnitude_lt_succ

/-- The bitwise search ends at the pattern whose magnitude is the last one not above the quotient. -/
theorem f32Floor_spec (num den bits p : Nat) (hlo : f32Magnitude p * den ≤ num * f32Scale)
    (hhi : num * f32Scale < f32Magnitude (p + 2 ^ bits) * den) :
    p ≤ f32Floor num den bits p ∧ f32Floor num den bits p < p + 2 ^ bits ∧
      f32Magnitude (f32Floor num den bits p) * den ≤ num * f32Scale ∧
      num * f32Scale < f32Magnitude (f32Floor num den bits p + 1) * den := by
  induction bits generalizing p with
  | zero => exact ⟨le_refl _, by simp [f32Floor], hlo, by simpa [f32Floor] using hhi⟩
  | succ bits ih =>
    simp only [f32Floor]
    have hpow : 2 ^ (bits + 1) = 2 ^ bits + 2 ^ bits := by rw [pow_succ]; omega
    split
    · rename_i h
      have hr := ih (p + 2 ^ bits) h (by rw [Nat.add_assoc, ← hpow]; exact hhi)
      refine ⟨by omega, by omega, hr.2.2.1, hr.2.2.2⟩
    · rename_i h
      have hr := ih p hlo (by omega)
      refine ⟨hr.1, by omega, hr.2.2.1, hr.2.2.2⟩

/-- For a quotient of at most 1 the search from 31 bits brackets it between two neighbouring patterns. -/
theorem f32Floor_brackets (num den : Nat) (hd : 0 < den) (h : num ≤ den) :
    f32Floor num den 31 0 ≤ 0x3F800000 ∧ f32Magnitude (f32Floor num den 31 0) * den ≤ num * f32Scale ∧
      num * f32Scale < f32Magnitude (f32Floor num den 31 0 + 1) * den := by
  have hone : f32Magnitude 0x3F800000 = f32Scale := by decide
  have h0 : f32Magnitude 0 * den ≤ num * f32Scale := by simp [f32Magnitude]
  have htop : num * f32Scale < f32Magnitude (0 + 2 ^ 31) * den := by
    have hlt : f32Scale < f32Magnitude (0 + 2 ^ 31) := hone ▸ f32Magnitude_strictMono (by norm_num)
    calc num * f32Scale ≤ den * f32Scale := Nat.mul_le_mul_right _ h
      _ = f32Scale * den := Nat.mul_comm _ _
      _ < f32Magnitude (0 + 2 ^ 31) * den := Nat.mul_lt_mul_of_pos_right hlt hd
  obtain ⟨_, _, hlo, hhi⟩ := f32Floor_spec num den 31 0 h0 htop
  refine ⟨?_, hlo, hhi⟩
  by_contra hgt
  have hlt : f32Scale < f32Magnitude (f32Floor num den 31 0) := hone ▸ f32Magnitude_strictMono (by omega)
  have : den * f32Scale < f32Magnitude (f32Floor num den 31 0) * den := by
    rw [Nat.mul_comm den]; exact Nat.mul_lt_mul_of_pos_right hlt hd
  have := Nat.mul_le_mul_right f32Scale h
  omega

/-- What the nearest pattern is: one of the two that bracket the quotient, the nearer one, the even one on a tie. -/
theorem f32Nearest_cases (num den : Nat) :
    (f32Nearest num den = f32Floor num den 31 0 ∧
      2 * (num * f32Scale) < (f32Magnitude (f32Floor num den 31 0) + f32Magnitude (f32Floor num den 31 0 + 1)) * den) ∨
    (f32Nearest num den = f32Floor num den 31 0 + 1 ∧
      (f32Magnitude (f32Floor num den 31 0) + f32Magnitude (f32Floor num den 31 0 + 1)) * den < 2 * (num * f32Scale)) ∨
    (2 * (num * f32Scale) = (f32Magnitude (f32Floor num den 31 0) + f32Magnitude (f32Floor num den 31 0 + 1)) * den ∧
      f32Nearest num den % 2 = 0 ∧
      (f32Nearest num den = f32Floor num den 31 0 ∨ f32Nearest num den = f32Floor num den 31 0 + 1)) := by
  unfold f32Nearest
  simp only
  split
  · exact .inl ⟨rfl, ‹_›⟩
  · split
    · exact .inr (.inl ⟨rfl, ‹_›⟩)
    · refine .inr (.inr ⟨by omega, ?_⟩)
      split
      · exact ⟨‹_›, .inl rfl⟩
      · exact ⟨by omega, .inr rfl⟩

/-- The nearest integer, ties away from zero, in terms of the magnitude. -/
theorem roundHaz_natAbs (num : Int) (den : Nat) :
    (roundHaz num den).natAbs = if num = 0 then 0 else (2 * num.natAbs + den) / (2 * den) := by
  rw [roundHaz, Int.natAbs_mul]
  split
  · rename_i h; simp [h]
  · rename_i h
    rw [Int.natAbs_natCast, Int.natAbs_sign, if_neg h, Nat.one_mul]

end Sys2Proof.Machine
end

