-- ==== Sys2Proof/Laws/PerInstr.lean ====
section
/-! SUPPORT. The per-instruction family EncodeFields: the three fields of an encoded well-formed command are the ones of
30_encoding R80, and the reserved field is 0. -/

namespace Sys2Proof.Laws

/-- The fields of a command word with operation code `op` and N field `n`. -/
theorem fields_of_word (op n : Nat) (hop : op < 16) (hn : n < 128) :
    opField (BitVec.ofNat 64 op ||| (BitVec.ofNat 64 n <<< 4)) = op ∧
      nField (BitVec.ofNat 64 op ||| (BitVec.ofNat 64 n <<< 4)) = n ∧
      rsvField (BitVec.ofNat 64 op ||| (BitVec.ofNat 64 n <<< 4)) = 0 := by
  have hsh : (n <<< 4) % 2 ^ 64 = n <<< 4 := Nat.mod_eq_of_lt (by rw [Nat.shiftLeft_eq]; omega)
  have hor : op ||| n <<< 4 = n * 16 + op := by
    rw [Nat.or_comm, ← Nat.shiftLeft_add_eq_or_of_lt (by omega : op < 2 ^ 4), Nat.shiftLeft_eq]
  have hval : (BitVec.ofNat 64 op ||| (BitVec.ofNat 64 n <<< 4)).toNat = n * 16 + op := by
    rw [BitVec.toNat_or, BitVec.toNat_shiftLeft, BitVec.toNat_ofNat, BitVec.toNat_ofNat,
      Nat.mod_eq_of_lt (by omega : op < 2 ^ 64), Nat.mod_eq_of_lt (by omega : n < 2 ^ 64), hsh, hor]
  refine ⟨?_, ?_, ?_⟩
  · simp only [opField, BitVec.extractLsb'_toNat, hval, Nat.shiftRight_eq_div_pow]; omega
  · simp only [nField, BitVec.extractLsb'_toNat, hval, Nat.shiftRight_eq_div_pow]; omega
  · simp only [rsvField, BitVec.extractLsb'_toNat, hval, Nat.shiftRight_eq_div_pow]; omega

/-- OP and N of the encoded command are its own, and RSV is 0. -/
def EncodeFields.Statement (i : Instr) : Prop :=
  i.wellFormed = true → opField (encode i) = opCode i ∧ nField (encode i) = nCode i ∧ rsvField (encode i) = 0

theorem EncodeFields.senc (n : Nat) : EncodeFields.Statement (.senc n) :=
  fun h => fields_of_word 1 n (by omega) (of_decide_eq_true h)

theorem EncodeFields.sdec (n : Nat) : EncodeFields.Statement (.sdec n) :=
  fun h => fields_of_word 2 n (by omega) (of_decide_eq_true h)

theorem EncodeFields.pack : EncodeFields.Statement .pack :=
  fun _ => fields_of_word 3 0 (by omega) (by omega)

theorem EncodeFields.unpack : EncodeFields.Statement .unpack :=
  fun _ => fields_of_word 4 0 (by omega) (by omega)

theorem EncodeFields.reqb (n : Nat) : EncodeFields.Statement (.reqb n) :=
  fun h => fields_of_word 5 n (by omega) (of_decide_eq_true h)

theorem EncodeFields.menc (n : Nat) : EncodeFields.Statement (.menc n) :=
  fun h => fields_of_word 6 n (by omega) (of_decide_eq_true h)

theorem EncodeFields.mdec (n : Nat) : EncodeFields.Statement (.mdec n) :=
  fun h => fields_of_word 7 n (by omega) (of_decide_eq_true h)

end Sys2Proof.Laws
end

