-- ==== Sys2Proof/Tests/Slice0.lean ====
section
/-! SUPPORT. Tests. Expected values are the spec's own (95_test_vectors and the examples of the rules), or worked out by hand
from the rule named. The last part shows, for every statement with hypotheses, values that meet all of them. -/

namespace Sys2Proof.Tests

open Sys2Proof.Machine

/-! ### Helpers -/

/-- The state an outcome holds; reset for a stop, which no command has. -/
def after (o : Host.Outcome State Fault Refusal) : State :=
  match o with
  | .next s => s
  | .fault _ => State.reset
  | .refused _ => State.reset

/-- A machine with a command in flight on the given latches and memory. -/
def running (l : Latches) (m : Memory) : State :=
  { State.reset with cmd := l.cmd, status := Status.reset.accepted, engine := { lat := l, racedReads := [], racedWrite := false }, mem := m }

/-- The machine with accesses that fail. -/
def withHoles (s : State) (holes : List BusHole) : State := { s with platform := { s.platform with holes := holes } }

/-- The machine with its register window at a base. -/
def atBase (s : State) (base : Word) : State := { s with platform := { s.platform with tcodecBase := base } }

/-- Latches for the scalar commands. -/
def scalar (arg lo hi : Word) : Latches := { Latches.empty with arg := arg, tinLo := lo, tinHi := hi }

/-- Latches for the matrix commands (and a command word of 0). -/
def matrix (rows cols src srcLen dst dstLen : Word) : Latches :=
  { Latches.empty with rows := rows, cols := cols, srcAddr := src, srcLen := srcLen, dstAddr := dst, dstLen := dstLen }

/-- The matrix of V-M3, 1.0 and -1.0 at 0x1000. -/
def memM3 : Memory := [(0x1002, 0x80#8), (0x1003, 0x3F#8), (0x1006, 0x80#8), (0x1007, 0xBF#8)]

/-- The same with a NaN as element 1. -/
def memNan : Memory := [(0x1002, 0x80#8), (0x1003, 0x3F#8), (0x1006, 0xC0#8), (0x1007, 0x7F#8)]

/-- V-M3: MENC 3 of 1 x 2 elements. -/
def mencM3 : State := running { matrix 1#64 2#64 0x1000#64 0#64 0x2000#64 2#64 with cmd := 0x36#64 } memM3

/-- V-M3: MDEC 3 of the two bytes 1A 78. -/
def mdecM3 : State :=
  running { matrix 1#64 2#64 0x2000#64 2#64 0x3000#64 0#64 with cmd := 0x37#64 } [(0x2000, 0x1A#8), (0x2001, 0x78#8)]

/-! ### Well-formedness: one ill-formed term for each check (30_encoding R80: N has 7 bits) -/

theorem test_wellFormed_refuses_wide_n :
    (Instr.senc 128).wellFormed = false ∧ (Instr.sdec 128).wellFormed = false ∧ (Instr.reqb 128).wellFormed = false ∧
      (Instr.menc 128).wellFormed = false ∧ (Instr.mdec 128).wellFormed = false := by decide

theorem test_wellFormed_accepts_n_127 : (Instr.senc 127).wellFormed = true ∧ Instr.pack.wellFormed = true := by decide

/-! ### Decoding: words written out bit by bit from 30_encoding R80 and R81 (N = bits 10:4, OP = bits 3:0) -/

theorem test_decode_senc : decode 0b00000001000_0001#64 = .ok (.senc 8) := by decide
theorem test_decode_sdec : decode 0b1000000_0010#64 = .ok (.sdec 64) := by decide
theorem test_decode_pack : decode 0b0000000_0011#64 = .ok .pack := by decide
theorem test_decode_unpack : decode 0b0000000_0100#64 = .ok .unpack := by decide
theorem test_decode_reqb : decode 0b0000101_0101#64 = .ok (.reqb 5) := by decide
theorem test_decode_menc : decode 0b1000001_0110#64 = .ok (.menc 65) := by decide
theorem test_decode_mdec : decode 0b1111111_0111#64 = .ok (.mdec 127) := by decide

/-- V-E1: the illegal words, at the edges of the three tests of R83. -/
theorem test_decode_illegal :
    decode 0x0#64 = .error .reservedOp ∧ decode 0x8000000000000008#64 = .error .reservedOp ∧
      decode 0x801#64 = .error .reservedBits ∧ decode 0x813#64 = .error .reservedBits ∧
      decode 0x13#64 = .error .nonzeroN ∧ decode 0x7F4#64 = .error .nonzeroN := by decide

theorem test_table_word : decodeTableWord 64 0x86 = some (.menc 8) ∧ decodeTableWord 64 0x88 = none := by decide

/-! ### The commands -/

/-- V-S5: a negative value (90_conflicts C1). -/
theorem test_senc_negative :
    (after (exec (.senc 8) (running (scalar 0xBF000000#64 0#64 0#64) []))).toutLo = 0xDDDD#64 := by decide +kernel

/-- V-S16: the exact product, just below a tie. -/
theorem test_senc_exact_product :
    (after (exec (.senc 4) (running (scalar 0x3DB33333#64 0#64 0#64) []))).toutLo = 0x4#64 := by decide +kernel

/-- V-S14: one rounding of the exact quotient. -/
theorem test_sdec_rounding :
    (after (exec (.sdec 16) (running (scalar 0#64 0xC55F3D5C#64 0#64) []))).result = 0xBF0EE54F#64 := by decide +kernel

/-- V-S20: code 0b10 in trit 32, the first of TIN_HI. -/
theorem test_sdec_bad_trit :
    (after (exec (.sdec 33) (running (scalar 0#64 0#64 0x2#64) []))).status.word = 0x0A12#64 ∧
      (after (exec (.sdec 33) (running (scalar 0#64 0#64 0x2#64) []))).errAddr = 32#64 := by decide +kernel

/-- R122, its example. -/
theorem test_pack : (after (exec .pack (running (scalar 0#64 0x71#64 0#64) []))).result = 0x8C#64 := by decide +kernel

/-- V-P2: trit 5 is not read. -/
theorem test_pack_ignores_trit5 :
    (after (exec .pack (running (scalar 0#64 0x800#64 0#64) []))).result = 121#64 := by decide +kernel

/-- V-P3: bits 63:8 of ARG are not read, and 243 unpacks as 0. -/
theorem test_unpack :
    (after (exec .unpack (running (scalar 0x1F3#64 0#64 0#64) []))).toutLo = 0x3FF#64 := by decide +kernel

/-- V-P3. -/
theorem test_unpack_182 :
    (after (exec .unpack (running (scalar 0xB6#64 0#64 0#64) []))).toutLo = 0x1DD#64 := by decide +kernel

/-- V-R1: the largest n for these dimensions that fits. -/
theorem test_reqb :
    (after (exec (.reqb 20) (running (matrix 0x7FFFFFFF#64 0x7FFFFFFF#64 0#64 0#64 0#64 0#64) []))).result =
      0xFFFFFFFC00000004#64 := by decide +kernel

/-- V-R1: one more overflows. -/
theorem test_reqb_overflow :
    (after (exec (.reqb 21) (running (matrix 0x7FFFFFFF#64 0x7FFFFFFF#64 0#64 0#64 0#64 0#64) []))).status.word =
      0x0C12#64 := by decide +kernel

/-- V-M3. -/
theorem test_menc : (after (exec (.menc 3) mencM3)).mem = memM3 ++ [(0x2000, 0x1A#8), (0x2001, 0x78#8)] := by
  decide +kernel

/-- V-M10 in small: a NaN in element 1. -/
theorem test_menc_nan :
    (after (exec (.menc 3) { mencM3 with mem := memNan })).status.word = 0x0B12#64 ∧
      (after (exec (.menc 3) { mencM3 with mem := memNan })).errAddr = 0x1004#64 := by decide +kernel

/-- V-M3. -/
theorem test_mdec : (after (exec (.mdec 3) mdecM3)).mem =
    [(0x2000, 0x1A#8), (0x2001, 0x78#8), (0x3002, 0x80#8), (0x3003, 0x3F#8), (0x3006, 0x80#8), (0x3007, 0xBF#8)] := by
  decide +kernel

/-- V-M9 in small: one byte short. -/
theorem test_mdec_exhausted :
    (after (exec (.mdec 3) (running (matrix 1#64 2#64 0x2000#64 1#64 0x3000#64 0#64) []))).status.word = 0x0022#64 := by
  decide +kernel

/-! ### The shell -/

/-- V-X4: a CMD write while busy. -/
theorem test_overrun : ((running { Latches.empty with cmd := 0x86#64 } []).writeReg 0x08 0x3#64).status.word = 0x0005#64 ∧
    ((running { Latches.empty with cmd := 0x86#64 } []).writeReg 0x08 0x3#64).cmd = 0x86#64 := by decide

/-- V-X5: STATUS 0x0616, write of all ones. -/
theorem test_status_clear :
    (Status.clear { busy := false, done := true, ovr := true, err := 1#4, detail := 6#8 } 0xFFFFFFFFFFFFFFFF#64).word =
      0x0610#64 := by decide

/-- V-X6: IRQ_EN set while DONE = 1 raises the line at once. -/
theorem test_irq : ((State.reset.finish .ok).writeReg 0x18 0xFFFFFFFFFFFFFFFF#64).irq = true := by decide

/-- 20_memory R69: a MENC whose matrix lies in the register window ends with BUS_ERROR READ at its first element. -/
theorem test_window_bus_error :
    (after (exec (.menc 3) (atBase mencM3 0x1000#64))).status.word = 0x0132#64 ∧
      (after (exec (.menc 3) (atBase mencM3 0x1000#64))).errAddr = 0x1000#64 := by decide +kernel

/-- A word placed at reset runs in the next step: MENC with SRC_ADDR = 0 ends with NULL_SRC. -/
theorem test_fetch_word : (after (step (State.reset.withFetchWord 64 0x86))).status.word = 0x0112#64 := by decide +kernel

/-- With nothing to do the machine keeps every register (60_exceptions R207). -/
theorem test_idle : (after (step State.reset)) = State.reset := by decide +kernel

/-! ### Values that meet the hypotheses of the statements -/

theorem witness_DecodeEncodeRoundTrip : (Instr.mdec 127).wellFormed = true := by decide

theorem witness_DecodedWordEncodesBack : decode 0x7F1#64 = .ok (.senc 127) := by decide

theorem witness_F32ReadsBinary32 :
    ((0x7F800001#32).toNat / 2 ^ 23 % 256 = 255 ∧ (0x7F800001#32).toNat % 2 ^ 23 ≠ 0) ∧
    ((0xFF800000#32).toNat / 2 ^ 23 % 256 = 255 ∧ (0xFF800000#32).toNat % 2 ^ 23 = 0) ∧
    (0x007FFFFF#32).toNat / 2 ^ 23 % 256 = 0 ∧
    (1 ≤ (0x00800000#32).toNat / 2 ^ 23 % 256 ∧ (0x7F7FFFFF#32).toNat / 2 ^ 23 % 256 < 255) := by decide

theorem witness_Rne32IsNearestEven :
    (0 < 1 ∧ (1 : Int).natAbs ≤ 1 ∧ f32 0x3F800000#32 = .finite (2 ^ 149)) ∧ (0 < 3 ∧ (0 : Int).natAbs ≤ 3) := by
  decide +kernel

theorem witness_QuantizeRoundsTheClampedProduct :
    f32 0x7FC00000#32 = .nan ∧ f32 0x7F800000#32 = .inf false ∧ f32 0xFF800000#32 = .inf true ∧
      f32 0x3F800000#32 = .finite (2 ^ 149) ∧ (1 : ℚ) ≤ scaledRat (2 ^ 149) ∧ |scaledRat (2 ^ 149)| ≤ 1 ∧
      f32 0xBF800000#32 = .finite (-2 ^ 149) ∧ scaledRat (-2 ^ 149) ≤ -1 := by
  refine ⟨by decide +kernel, by decide +kernel, by decide +kernel, by decide +kernel, ?_, ?_, by decide +kernel, ?_⟩ <;>
    norm_num [scaledRat]

theorem witness_BalancedTernaryBijection : (13 : Int).natAbs ≤ (3 ^ 3 - 1) / 2 ∧ (-13 : Int).natAbs ≤ (3 ^ 3 - 1) / 2 := by
  decide

theorem witness_EncodedValueInRange : 1 ≤ 64 ∧ 64 ≤ 64 ∧ f32 0xFF800000#32 ≠ .nan := by decide +kernel

theorem witness_ScalarRoundTripBound :
    1 ≤ 64 ∧ 64 ≤ 64 ∧ f32 0x3F800000#32 = .finite (2 ^ 149) ∧ |scaledRat (2 ^ 149)| ≤ 1 := by
  refine ⟨by decide, by decide, by decide +kernel, ?_⟩
  norm_num [scaledRat]

theorem witness_TritRoundTripUpTo15 : (1 ≤ 15 ∧ 15 ≤ 15 ∧ (List.replicate 15 Trit.neg).length = 15) ∧ 16 ≤ 16 ∧ 16 ≤ 64 := by
  decide

theorem witness_UnpackInvertsPack : (List.replicate 5 Trit.pos).length = 5 := by decide

theorem witness_PackedBytesAndOthers :
    (List.replicate 5 Trit.pos).length = 5 ∧ (242#8).toNat < 243 ∧ 243 ≤ (243#8).toNat := by decide

/-- The smallest product, where the last clause is tight: 0 < 1. -/
theorem witness_RequiredBytesIsMinimal : 1 ≤ 1 * 1 ∧ 5 * (requiredBytes 1 1 - 1) < 1 * 1 := by decide

theorem witness_DecodeLoopIsClosedFormula :
    requiredBytes 2 3 ≤ [0x1A#8, 0x78#8].length ∧ [0x1A#8].length < requiredBytes 2 3 := by decide

theorem witness_SencWritesTrits :
    1 ≤ 64 ∧ 64 ≤ 64 ∧ quantize (running (scalar 0x3F800000#64 0#64 0#64) []).engine.lat.float 64 =
      some 1716841910146256242328924544640 := by decide +kernel

/-- n = 0, n = 65, and a NaN at n = 64. -/
theorem witness_SencErrors :
    ((0 < 1 ∨ 64 < 0) ∧ (65 < 1 ∨ 64 < 65)) ∧ 1 ≤ 64 ∧ 64 ≤ 64 ∧
      f32 ((running (scalar 0x7F800001#64 0#64 0#64) []).engine.lat.arg.extractLsb' 0 32) = .nan := by decide +kernel

/-- n = 64 with every trit +1, and n = 0 with codes that are no trits. -/
theorem witness_SdecWritesQuotient :
    (64 ≤ 64 ∧ (List.replicate 64 Trit.pos).length = 64 ∧
      ∀ i, i < 64 → tritCodeAt (running (scalar 0#64 0x5555555555555555#64 0x5555555555555555#64) []).engine.lat.tinLo
        (running (scalar 0#64 0x5555555555555555#64 0x5555555555555555#64) []).engine.lat.tinHi i =
          BitVec.ofInt 2 ((List.replicate 64 Trit.pos).getD i .zero).val) ∧
    (0 ≤ 64 ∧ ([] : List Trit).length = 0 ∧
      ∀ i, i < 0 → tritCodeAt (running (scalar 0#64 0xAAAAAAAAAAAAAAAA#64 0#64) []).engine.lat.tinLo
        (running (scalar 0#64 0xAAAAAAAAAAAAAAAA#64 0#64) []).engine.lat.tinHi i = BitVec.ofInt 2 (([] : List Trit).getD i .zero).val) := by
  refine ⟨by decide +kernel, by decide, rfl, fun i h => absurd h (by omega)⟩

/-- n = 65; the first bad trit at index 4 (PACK and SDEC 5); the first bad trit at index 63 (SDEC 64). -/
theorem witness_TritOperandErrors :
    64 < 65 ∧
    (tritCodeAt (running (scalar 0#64 0x200#64 0#64) []).engine.lat.tinLo
        (running (scalar 0#64 0x200#64 0#64) []).engine.lat.tinHi 4 = 0b10#2 ∧
      (∀ i, i < 4 → tritCodeAt (running (scalar 0#64 0x200#64 0#64) []).engine.lat.tinLo
        (running (scalar 0#64 0x200#64 0#64) []).engine.lat.tinHi i ≠ 0b10#2) ∧ 5 ≤ 64 ∧ 4 < 5) ∧
    (tritCodeAt (running (scalar 0#64 0#64 0x8000000000000000#64) []).engine.lat.tinLo
        (running (scalar 0#64 0#64 0x8000000000000000#64) []).engine.lat.tinHi 63 = 0b10#2 ∧
      (∀ i, i < 63 → tritCodeAt (running (scalar 0#64 0#64 0x8000000000000000#64) []).engine.lat.tinLo
        (running (scalar 0#64 0#64 0x8000000000000000#64) []).engine.lat.tinHi i ≠ 0b10#2) ∧ 64 ≤ 64 ∧ 63 < 64) := by
  decide +kernel

/-- The example of R122. -/
theorem witness_PackWritesByte :
    [Trit.pos, .zero, .neg, .pos, .zero].length = 5 ∧
    ∀ i, i < 5 → tritCodeAt (running (scalar 0#64 0x71#64 0#64) []).engine.lat.tinLo
      (running (scalar 0#64 0x71#64 0#64) []).engine.lat.tinHi i = 
        BitVec.ofInt 2 ([Trit.pos, .zero, .neg, .pos, .zero].getD i .zero).val := by
  decide +kernel

/-- V-R1: the largest size for the largest dimensions, and the smallest. -/
theorem witness_ReqbWritesSize :
    ((running (matrix 0x7FFFFFFF#64 0x7FFFFFFF#64 0#64 0#64 0#64 0#64) []).engine.lat.dimsOk 20 ∧
      (running (matrix 0x7FFFFFFF#64 0x7FFFFFFF#64 0#64 0#64 0#64 0#64) []).engine.lat.area * 20 ≤
        5 * (0xFFFFFFFC00000004#64).toNat ∧
      5 * (0xFFFFFFFC00000004#64).toNat <
        (running (matrix 0x7FFFFFFF#64 0x7FFFFFFF#64 0#64 0#64 0#64 0#64) []).engine.lat.area * 20 + 5) ∧
    ((running (matrix 1#64 1#64 0#64 0#64 0#64 0#64) []).engine.lat.dimsOk 1 ∧
      (running (matrix 1#64 1#64 0#64 0#64 0#64 0#64) []).engine.lat.area * 1 ≤ 5 * (1#64).toNat ∧
      5 * (1#64).toNat < (running (matrix 1#64 1#64 0#64 0#64 0#64 0#64) []).engine.lat.area * 1 + 5) := by decide +kernel

/-- The four checks of REQB, each first at a boundary: rows 2^31, cols 0, n 65, n 21 of the largest matrix; and none at 20.
-/
theorem witness_ReqbErrors :
    firstFailure ((running (matrix 0x80000000#64 1#64 0#64 0#64 0#64 0#64) []).engine.lat.reqbChecks 1) = some .rowsRange ∧
      firstFailure ((running (matrix 0x7FFFFFFF#64 0#64 0#64 0#64 0#64 0#64) []).engine.lat.reqbChecks 1) =
        some .colsRange ∧
      firstFailure ((running (matrix 1#64 1#64 0#64 0#64 0#64 0#64) []).engine.lat.reqbChecks 65) = some .nRange ∧
      firstFailure ((running (matrix 0x7FFFFFFF#64 0x7FFFFFFF#64 0#64 0#64 0#64 0#64) []).engine.lat.reqbChecks 21) =
        some .sizeOverflow ∧
      firstFailure ((running (matrix 0x7FFFFFFF#64 0x7FFFFFFF#64 0#64 0#64 0#64 0#64) []).engine.lat.reqbChecks 20) =
        none := by decide +kernel

theorem witness_MencWritesPackedMatrix :
    mencM3.mem.wf = true ∧ mencM3.raceFree ∧ mencM3.engine.lat.mencOk 3 ∧ mencM3.mencBus ∧
      ∀ e, e < mencM3.engine.lat.area → enc (memFloat mencM3.mem (mencM3.engine.lat.src + 4 * e)) 3 =
        some ((fun e => if e = 0 then [Trit.pos, .pos, .pos] else [Trit.neg, .neg, .neg]) e) := by
  refine ⟨by decide, by decide, by decide +kernel, by decide +kernel, by decide +kernel⟩

/-- The checks of MENC, each first at a boundary: src 0, dst 0, rows 0, cols 2^31, n 65, cap one short, src 2 off, a range
one past the top, ranges that share one byte; none where they touch. They are the latches of a state that a command has just
been accepted in, with no race. -/
theorem witness_MencErrorsInOrder :
    (∀ l, (running l []).raceFree ∧ (running l []).engine.lat = l) ∧
      firstFailure ((matrix 1#64 2#64 0#64 0#64 0x2000#64 2#64).mencChecks 3) = some .nullSrc ∧
      firstFailure ((matrix 1#64 2#64 0x1000#64 0#64 0#64 2#64).mencChecks 3) = some .nullDst ∧
      firstFailure ((matrix 0#64 2#64 0x1000#64 0#64 0x2000#64 2#64).mencChecks 3) = some .rowsRange ∧
      firstFailure ((matrix 1#64 0x80000000#64 0x1000#64 0#64 0x2000#64 2#64).mencChecks 3) = some .colsRange ∧
      firstFailure ((matrix 1#64 2#64 0x1000#64 0#64 0x2000#64 2#64).mencChecks 65) = some .nRange ∧
      firstFailure ((matrix 1#64 2#64 0x1000#64 0#64 0x2000#64 1#64).mencChecks 3) = some .capacity ∧
      firstFailure ((matrix 1#64 2#64 0x1002#64 0#64 0x2000#64 2#64).mencChecks 3) = some .misaligned ∧
      firstFailure ((matrix 1#64 2#64 0x1000#64 0#64 0xFFFFFFFFFFFFFFFF#64 2#64).mencChecks 3) = some .rangeWrap ∧
      firstFailure ((matrix 1#64 2#64 0x1000#64 0#64 0x1007#64 2#64).mencChecks 3) = some .overlap ∧
      firstFailure ((matrix 1#64 2#64 0x1000#64 0#64 0x1008#64 2#64).mencChecks 3) = none := by
  refine ⟨fun l => ⟨⟨rfl, rfl⟩, rfl⟩, ?_⟩
  decide +kernel

/-- A failing read at the last element, and a NaN there. -/
theorem witness_MencReportsLowestElement :
    ((withHoles mencM3 [⟨0x1004, 1, .four, .read⟩]).raceFree ∧
      (withHoles mencM3 [⟨0x1004, 1, .four, .read⟩]).engine.lat.mencOk 3 ∧
      1 < (withHoles mencM3 [⟨0x1004, 1, .four, .read⟩]).engine.lat.area ∧
      (∀ e', e' < 1 → busOK (withHoles mencM3 [⟨0x1004, 1, .four, .read⟩]).platform (0x1000 + 4 * e') .four .read = true ∧
        f32 (memFloat (withHoles mencM3 [⟨0x1004, 1, .four, .read⟩]).mem (0x1000 + 4 * e')) ≠ .nan) ∧
      busOK (withHoles mencM3 [⟨0x1004, 1, .four, .read⟩]).platform (0x1000 + 4 * 1) .four .read = false) ∧
    (({ mencM3 with mem := memNan } : State).raceFree ∧ ({ mencM3 with mem := memNan } : State).engine.lat.mencOk 3 ∧
      1 < ({ mencM3 with mem := memNan } : State).engine.lat.area ∧
      (∀ e', e' < 1 → busOK ({ mencM3 with mem := memNan } : State).platform (0x1000 + 4 * e') .four .read = true ∧
        f32 (memFloat memNan (0x1000 + 4 * e')) ≠ .nan) ∧
      busOK ({ mencM3 with mem := memNan } : State).platform (0x1000 + 4 * 1) .four .read = true ∧
      f32 (memFloat memNan (0x1000 + 4 * 1)) = .nan) := by decide +kernel

/-- V-M3 with a write hole on the last byte. -/
theorem witness_MencWriteError :
    (withHoles mencM3 [⟨0x2001, 1, .one, .write⟩]).mem.wf = true ∧
      (withHoles mencM3 [⟨0x2001, 1, .one, .write⟩]).raceFree ∧
      (withHoles mencM3 [⟨0x2001, 1, .one, .write⟩]).engine.lat.mencOk 3 ∧
      (∀ e, e < 2 → busOK (withHoles mencM3 [⟨0x2001, 1, .one, .write⟩]).platform (0x1000 + 4 * e) .four .read = true ∧
        f32 (memFloat (withHoles mencM3 [⟨0x2001, 1, .one, .write⟩]).mem (0x1000 + 4 * e)) ≠ .nan) ∧
      (withHoles mencM3 [⟨0x2001, 1, .one, .write⟩]).engine.lat.area = 2 ∧
      1 < (withHoles mencM3 [⟨0x2001, 1, .one, .write⟩]).engine.lat.cap ∧
      busOK (withHoles mencM3 [⟨0x2001, 1, .one, .write⟩]).platform (0x2000 + 1) .one .write = false := by decide +kernel

theorem witness_MdecWritesDecodedMatrix :
    mdecM3.mem.wf = true ∧ mdecM3.raceFree ∧ mdecM3.engine.lat.mdecOk 3 ∧ mdecM3.mdecBus 3 := by decide +kernel

/-- The checks of MDEC, each first at a boundary; starvation last; none where the ranges touch. -/
theorem witness_MdecErrorsInOrder :
    (∀ l, (running l []).raceFree ∧ (running l []).engine.lat = l) ∧
      firstFailure ((matrix 1#64 2#64 0#64 2#64 0x3000#64 0#64).mdecChecks 3) = some (.invalidArgument .nullSrc 0#64) ∧
      firstFailure ((matrix 1#64 2#64 0x2000#64 2#64 0#64 0#64).mdecChecks 3) = some (.invalidArgument .nullDst 0#64) ∧
      firstFailure ((matrix 0x80000000#64 2#64 0x2000#64 2#64 0x3000#64 0#64).mdecChecks 3) = some (.invalidArgument .rowsRange 0#64) ∧
      firstFailure ((matrix 1#64 0#64 0x2000#64 2#64 0x3000#64 0#64).mdecChecks 3) = some (.invalidArgument .colsRange 0#64) ∧
      firstFailure ((matrix 1#64 2#64 0x2000#64 2#64 0x3000#64 0#64).mdecChecks 0) = some (.invalidArgument .nRange 0#64) ∧
      firstFailure ((matrix 1#64 2#64 0x2000#64 2#64 0x3002#64 0#64).mdecChecks 3) = some (.invalidArgument .misaligned 0#64) ∧
      firstFailure ((matrix 1#64 2#64 0xFFFFFFFFFFFFFFFF#64 2#64 0x3000#64 0#64).mdecChecks 3) = some (.invalidArgument .rangeWrap 0#64) ∧
      firstFailure ((matrix 1#64 2#64 0x3007#64 2#64 0x3000#64 0#64).mdecChecks 3) = some (.invalidArgument .overlap 0#64) ∧
      firstFailure ((matrix 1#64 2#64 0x2000#64 1#64 0x3000#64 0#64).mdecChecks 3) = some .bufferExhausted ∧
      firstFailure ((matrix 1#64 2#64 0x2FFE#64 100#64 0x3000#64 0#64).mdecChecks 3) = none := by
  refine ⟨fun l => ⟨⟨rfl, rfl⟩, rfl⟩, ?_⟩
  decide +kernel

/-- V-M3 with a read hole on the last byte. -/
theorem witness_MdecReportsLowestByte :
    (withHoles mdecM3 [⟨0x2001, 1, .one, .read⟩]).raceFree ∧
      (withHoles mdecM3 [⟨0x2001, 1, .one, .read⟩]).engine.lat.mdecOk 3 ∧
      1 < ((withHoles mdecM3 [⟨0x2001, 1, .one, .read⟩]).engine.lat.area * 3 + 4) / 5 ∧
      (∀ j', j' < 1 → busOK (withHoles mdecM3 [⟨0x2001, 1, .one, .read⟩]).platform (0x2000 + j') .one .read = true) ∧
      busOK (withHoles mdecM3 [⟨0x2001, 1, .one, .read⟩]).platform (0x2000 + 1) .one .read = false := by decide +kernel

/-- V-M3 with a write hole on the last element. -/
theorem witness_MdecWriteError :
    (withHoles mdecM3 [⟨0x3004, 1, .four, .write⟩]).mem.wf = true ∧
      (withHoles mdecM3 [⟨0x3004, 1, .four, .write⟩]).raceFree ∧
      (withHoles mdecM3 [⟨0x3004, 1, .four, .write⟩]).engine.lat.mdecOk 3 ∧
      (∀ j, j < 2 → busOK (withHoles mdecM3 [⟨0x3004, 1, .four, .write⟩]).platform (0x2000 + j) .one .read = true) ∧
      ((withHoles mdecM3 [⟨0x3004, 1, .four, .write⟩]).engine.lat.area * 3 + 4) / 5 = 2 ∧
      1 < (withHoles mdecM3 [⟨0x3004, 1, .four, .write⟩]).engine.lat.area ∧
      busOK (withHoles mdecM3 [⟨0x3004, 1, .four, .write⟩]).platform (0x3000 + 4 * 1) .four .write = false := by
  decide +kernel

/-- V-M3, both halves: what MENC leaves, decoded to 0x3000. -/
def decodeOfM3 : State :=
  { mdecM3 with mem := (after (exec (.menc 3) mencM3)).mem }

theorem witness_MatrixRoundTrip :
    exec (.menc 3) mencM3 = .next (after (exec (.menc 3) mencM3)) ∧
      decodeOfM3.mem = (after (exec (.menc 3) mencM3)).mem ∧ decodeOfM3.raceFree ∧
      decodeOfM3.engine.lat.rows = mencM3.engine.lat.rows ∧ decodeOfM3.engine.lat.cols = mencM3.engine.lat.cols ∧
      decodeOfM3.engine.lat.srcAddr = mencM3.engine.lat.dstAddr ∧ decodeOfM3.engine.lat.mdecOk 3 ∧
      decodeOfM3.mdecBus 3 := by
  refine ⟨rfl, rfl, by decide, rfl, rfl, rfl, by decide +kernel, by decide +kernel⟩

theorem witness_ErrorsWriteNoResult :
    exec (.senc 0) State.reset = .next (State.reset.finish (.invalidArgument .nRange 0#64)) ∧
      (State.reset.finish (.invalidArgument .nRange 0#64)).status.err ≠ 0#4 ∧ State.reset.raceFree :=
  ⟨rfl, by decide, by decide⟩

theorem witness_CommandsEndWithTheirCodes :
    exec (.senc 0) State.reset = .next (State.reset.finish (.invalidArgument .nRange 0#64)) := rfl

/-- The first address past the write footprint of V-M3's MENC, and the last before it. -/
theorem witness_EngineWritesOnlyItsFootprint :
    mencM3.mem.wf = true ∧ exec (.menc 3) mencM3 = .next (after (exec (.menc 3) mencM3)) ∧
      inRange (writeRange (.menc 3) mencM3.engine.lat) 0x2002 = false ∧
      inRange (writeRange (.menc 3) mencM3.engine.lat) 0x1FFF = false := by
  refine ⟨by decide, rfl, by decide, by decide⟩

/-- The same matrix with one more byte, just past the read footprint. -/
theorem witness_CommandsReadOnlyTheirFootprint :
    mencM3.mem.wf = true ∧ Memory.wf (memM3 ++ [(0x1008, 0x55#8)]) = true ∧ mencM3.raceFree ∧
      (∀ a, inRange (readRange (.menc 3) mencM3.engine.lat) a = true →
        Memory.read (memM3 ++ [(0x1008, 0x55#8)]) a = mencM3.mem.read a) ∧
      exec (.menc 3) mencM3 = .next (after (exec (.menc 3) mencM3)) := by
  refine ⟨by decide, by decide, ⟨rfl, rfl⟩, fun a h => ?_, rfl⟩
  have hr : 0x1000 ≤ a ∧ a < 0x1008 := of_decide_eq_true h
  obtain ⟨d, rfl⟩ := Nat.exists_eq_add_of_le hr.1
  have hd : d < 8 := by omega
  clear h hr
  revert d
  decide

theorem witness_LateArgumentsDoNotMatter :
    0x20 ∈ [0x20, 0x28, 0x30, 0x50, 0x58, 0x60, 0x68, 0x70, 0x78] ∧
      0x78 ∈ [0x20, 0x28, 0x30, 0x50, 0x58, 0x60, 0x68, 0x70, 0x78] ∧
      exec (.menc 3) mencM3 = .next (after (exec (.menc 3) mencM3)) := ⟨by decide, by decide, rfl⟩

theorem witness_ArgumentRegistersHold :
    0x18 ∈ [0x18, 0x20, 0x28, 0x30, 0x50, 0x58, 0x60, 0x68, 0x70, 0x78] ∧ 0x20 ≠ 0x18 := by decide

theorem witness_ReadOnlyAndReservedOffsets :
    0x80 ∉ [0x08, 0x10, 0x18, 0x20, 0x28, 0x30, 0x50, 0x58, 0x60, 0x68, 0x70, 0x78] ∧ 0x80 < 0x88 ∧ 0x7F % 8 ≠ 0 := by
  decide

/-- The last offset of the window, a legal one, an unaligned one, and a 4-byte access, at base 0 and at a high base. -/
theorem witness_HostPortAccess :
    (0xF8#64).toNat = State.reset.platform.tcodecBase.toNat + 0xF8 ∧ 0xF8 < 256 ∧ (8 = 8 ∧ 0xF8 % 8 = 0) ∧
      ¬(4 = 8 ∧ 0xF8 % 8 = 0) ∧
      ({ State.reset with inputs := [.regRead 0xF8#64 8] } : State).inputs = .regRead 0xF8#64 8 :: [] ∧
      ({ State.reset with inputs := [.regWrite 0xF8#64 4 1#64] } : State).inputs = .regWrite 0xF8#64 4 1#64 :: [] ∧
      (0xFFFFFFFFFFFFFFFF#64).toNat =
        ({ tcodecBase := 0xFFFFFFFFFFFFFF00#64, holes := [] } : Platform).tcodecBase.toNat + 0xFF ∧ 0xFF < 256 ∧
      ¬(8 = 8 ∧ 0xFF % 8 = 0) := by decide

theorem witness_CmdWriteIssues : mencM3.status.busy = true ∧ State.reset.status.busy = false := by decide

/-- A change of BusOK while MENC runs; a 4-byte access whose last byte is the window's first, and one at its last byte; MENC
of V-M3 with its last read byte, and its first written one, in the window; MDEC of V-M3 likewise. -/
theorem witness_BusOkRules :
    (({ mencM3 with inputs := [.busMap []] } : State).status.busy = true ∧
      ({ mencM3 with inputs := [.busMap []] } : State).inputs = .busMap [] :: []) ∧
    (0x3FFD < (0x4000#64).toNat + 256 ∧ (0x4000#64).toNat < 0x3FFD + AccessSize.four.bytes) ∧
    (0x40FF < (0x4000#64).toNat + 256 ∧ (0x4000#64).toNat < 0x40FF + AccessSize.one.bytes) ∧
    (mencM3.raceFree ∧ mencM3.engine.lat.mencOk 3 ∧
      (∀ e, e < mencM3.engine.lat.area → f32 (memFloat mencM3.mem (mencM3.engine.lat.src + 4 * e)) ≠ .nan) ∧
      (atBase mencM3 0x1007#64).platform.tcodecBase.toNat ≤ 0x1007 ∧
      inRange (mencM3.engine.lat.src, 4 * mencM3.engine.lat.area) 0x1007 = true ∧
      0x2000 < (atBase mencM3 0x1F01#64).platform.tcodecBase.toNat + 256 ∧
      inRange (mencM3.engine.lat.dst, mencM3.engine.lat.cap) 0x2000 = true) ∧
    (mdecM3.engine.lat.mdecOk 3 ∧ (atBase mdecM3 0x2001#64).platform.tcodecBase.toNat ≤ 0x2001 ∧
      inRange (mdecM3.engine.lat.src, (mdecM3.engine.lat.area * 3 + 4) / 5) 0x2001 = true ∧
      0x3000 < (atBase mdecM3 0x2F01#64).platform.tcodecBase.toNat + 256 ∧
      inRange (mdecM3.engine.lat.dst, 4 * mdecM3.engine.lat.area) 0x3000 = true) := by
  refine ⟨by decide, by decide, by decide, by decide +kernel, by decide +kernel⟩

/-- While MENC of V-M3 runs: the byte past the write footprint is read, and one outside both is written. -/
theorem witness_HostMemoryAccessOutsideFootprints :
    (inRange ({ mencM3 with inputs := [.memRead 0x2002#64] } : State).busyWriteRange (0x2002#64).toNat = false ∧
      ({ mencM3 with inputs := [.memRead 0x2002#64] } : State).inputs = .memRead 0x2002#64 :: []) ∧
    (inRange ({ mencM3 with inputs := [.memWrite 0x1008#64 7#8] } : State).busyWriteRange (0x1008#64).toNat = false ∧
      inRange ({ mencM3 with inputs := [.memWrite 0x1008#64 7#8] } : State).busyReadRange (0x1008#64).toNat = false ∧
      ({ mencM3 with inputs := [.memWrite 0x1008#64 7#8] } : State).inputs = .memWrite 0x1008#64 7#8 :: []) := by decide

/-- MENC of V-M3 in flight: with no input left, and with an `engine` input first; and its word for withFetchWord. -/
theorem witness_StepRunsTheDecodedCommand :
    (mencM3.status.busy = true ∧ decode mencM3.engine.lat.cmd = .ok (.menc 3) ∧ mencM3.inputs = []) ∧
      (({ mencM3 with inputs := [.engine, .reset] } : State).status.busy = true ∧
        decode ({ mencM3 with inputs := [.engine, .reset] } : State).engine.lat.cmd = .ok (.menc 3) ∧
        ({ mencM3 with inputs := [.engine, .reset] } : State).inputs = .engine :: [.reset]) ∧
      decode (BitVec.ofNat 64 (0x36 % 2 ^ 64)) = .ok (.menc 3) := by decide

/-- An illegal word in flight with no input left, and with an `engine` input first. -/
theorem witness_IllegalWordCompletes :
    ((running { Latches.empty with cmd := 0x9#64 } []).status.busy = true ∧
      decode (running { Latches.empty with cmd := 0x9#64 } []).engine.lat.cmd = .error .reservedOp ∧
      (running { Latches.empty with cmd := 0x9#64 } []).inputs = []) ∧
    ({ running { Latches.empty with cmd := 0x9#64 } [] with inputs := [.engine, .reset] } : State).inputs =
      .engine :: [.reset] := by decide

theorem witness_CommandInFlightEnds : mencM3.status.busy = true := by decide

/-- A state with the invariant, and its step. -/
theorem witness_StepKeepsInvariant :
    ({ State.reset with inputs := [.memWrite 5#64 7#8] } : State).inv = true ∧
      step { State.reset with inputs := [.memWrite 5#64 7#8] } =
        .next (after (step { State.reset with inputs := [.memWrite 5#64 7#8] })) := ⟨by decide +kernel, rfl⟩

theorem witness_ResetClearsRegisters : ({ mencM3 with inputs := [.reset] } : State).inputs = .reset :: [] := by decide

/-- The cases: idle, an illegal word in flight, a MENC in flight with an address past its write footprint, and one whose
write fails. -/
theorem witness_ResetKeepsOtherMemory :
    (State.reset.mem.wf = true ∧ ({ State.reset with inputs := [.reset] } : State).inputs = .reset :: [] ∧
      step { State.reset with inputs := [.reset] } = .next (after (step { State.reset with inputs := [.reset] })) ∧
      State.reset.status.busy = false) ∧
    decode (running { Latches.empty with cmd := 0x9#64 } []).engine.lat.cmd = .error .reservedOp ∧
    (mencM3.mem.wf = true ∧ step { mencM3 with inputs := [.reset] } = .next (after (step { mencM3 with inputs := [.reset] })) ∧
      decode mencM3.engine.lat.cmd = .ok (.menc 3) ∧ inRange (writeRange (.menc 3) mencM3.engine.lat) 0x2002 = false) ∧
    writable (withHoles mencM3 [⟨0x2001, 1, .one, .write⟩]).platform (.menc 3)
      (withHoles mencM3 [⟨0x2001, 1, .one, .write⟩]).engine.lat 0x2001 = false := by
  refine ⟨⟨rfl, rfl, rfl, rfl⟩, by decide, ⟨by decide, rfl, by decide, by decide⟩, by decide⟩

end Sys2Proof.Tests
end

section
/-! The rounding primitives of 00_scope R13 against the rationals: what a binary32 pattern is worth, that RNE32 returns a
nearest pattern, and that quantization rounds the exact product (O6 to O8). -/

namespace Sys2Proof.Machine

/-! ### The value of a pattern -/

/-- The integer of a magnitude and a sign, as `f32` builds it. -/
def withSign (neg : Prop) [Decidable neg] (m : Nat) : Int := if neg then -(m : Int) else m

theorem withSign_mul (neg : Prop) [Decidable neg] (m d : Nat) : withSign neg m * (d : Int) = withSign neg (m * d) := by
  rw [withSign, withSign, ite_mul, Int.neg_mul, Nat.cast_mul]

theorem withSign_natAbs (k : Int) : withSign (k < 0) k.natAbs = k := by
  unfold withSign; omega

/-- The rational of a signed magnitude, with the sign as a factor. -/
theorem scaledRat_withSign (neg : Prop) [Decidable neg] (m : Nat) :
    scaledRat (withSign neg m) = (if neg then -1 else 1) * (m : ℚ) * (2 : ℚ) ^ (-149 : ℤ) := by
  have hpow : (2 : ℚ) ^ (-149 : ℤ) = (2 ^ 149)⁻¹ := by rw [zpow_neg]; rfl
  rw [scaledRat, withSign, hpow, div_eq_mul_inv]
  split <;> push_cast <;> ring

/-- Bit 31 of a pattern, its sign, by the size of its number. -/
theorem getLsbD_31_eq_decide (b : BitVec 32) : b.getLsbD 31 = decide (2 ^ 31 ≤ b.toNat) := by
  rw [← BitVec.msb_eq_getLsbD_last b, BitVec.msb_eq_decide]

/-- `f32` by arithmetic on the number of the pattern, its fields read as quotients and remainders. -/
theorem f32_eq_of_fields (b : BitVec 32) :
    f32 b =
      if b.toNat / 2 ^ 23 % 256 = 255 then
        if b.toNat % 2 ^ 23 ≠ 0 then .nan else .inf (decide (2 ^ 31 ≤ b.toNat))
      else .finite (withSign (2 ^ 31 ≤ b.toNat) (f32Magnitude (b.toNat % 2 ^ 31))) := by
  have hexp : b.extractLsb' 23 8 = 255#8 ↔ b.toNat / 2 ^ 23 % 256 = 255 := by
    simp [← BitVec.toNat_inj, Nat.shiftRight_eq_div_pow]
  have hfrac : b.extractLsb' 0 23 ≠ 0#23 ↔ b.toNat % 2 ^ 23 ≠ 0 := by simp [← BitVec.toNat_inj]
  have hmag : (b.extractLsb' 0 31).toNat = b.toNat % 2 ^ 31 := by simp
  simp only [f32, withSign, hexp, hfrac, hmag, getLsbD_31_eq_decide, decide_eq_true_eq]

/-- The finite patterns are those whose exponent field is not 255, and their value is the signed magnitude. -/
theorem f32_eq_finite_iff (b : BitVec 32) (z : Int) :
    f32 b = .finite z ↔ b.toNat / 2 ^ 23 % 256 ≠ 255 ∧
      z = withSign (2 ^ 31 ≤ b.toNat) (f32Magnitude (b.toNat % 2 ^ 31)) := by
  rw [f32_eq_of_fields]
  split
  case isTrue h => split <;> simp only [reduceCtorEq, h, ne_eq, not_true_eq_false, false_and]
  case isFalse h => simp only [F32.finite.injEq, h, ne_eq, not_false_eq_true, true_and, eq_comm]

/-- Exponent field 0: the magnitude of a subnormal is its fraction. -/
theorem f32Magnitude_subnormal (b : Nat) (h : b / 2 ^ 23 % 256 = 0) : f32Magnitude (b % 2 ^ 31) = b % 2 ^ 23 := by
  rw [f32Magnitude, if_pos (by omega)]
  omega

/-- Any other exponent field: the implicit one in front of the fraction, shifted by the exponent. -/
theorem f32Magnitude_normal (b : Nat) (h : 1 ≤ b / 2 ^ 23 % 256) :
    f32Magnitude (b % 2 ^ 31) = (2 ^ 23 + b % 2 ^ 23) * 2 ^ (b / 2 ^ 23 % 256 - 1) := by
  have hexp : b % 2 ^ 31 / 2 ^ 23 = b / 2 ^ 23 % 256 := by omega
  have hfrac : b % 2 ^ 31 % 2 ^ 23 = b % 2 ^ 23 := by omega
  rw [f32Magnitude, hexp, hfrac, if_neg (by omega)]

/-- Settles O6: the two cases of exponent 255 are the branches of `f32`, and a finite magnitude is that of a subnormal or
of a normal number. -/
theorem f32ReadsBinary32 : Obligations.F32ReadsBinary32 := by
  intro b
  refine ⟨fun ⟨he, hf⟩ => ?_, fun ⟨he, hf⟩ => ?_, fun he => ?_, fun ⟨he, he'⟩ => ?_⟩
  · rw [f32_eq_of_fields, if_pos he, if_pos hf]
  · rw [f32_eq_of_fields, if_pos he, if_neg (not_not.mpr hf)]
  · refine ⟨_, (f32_eq_finite_iff b _).mpr ⟨by omega, rfl⟩, ?_⟩
    rw [scaledRat_withSign, f32Magnitude_subnormal _ he]
  · refine ⟨_, (f32_eq_finite_iff b _).mpr ⟨by omega, rfl⟩, ?_⟩
    have hexp : (((b.toNat / 2 ^ 23 % 256 : ℕ) : ℤ) - 150) = ((b.toNat / 2 ^ 23 % 256 - 1 : ℕ) : ℤ) + (-149 : ℤ) := by
      omega
    rw [scaledRat_withSign, f32Magnitude_normal _ he, hexp, zpow_add₀ two_ne_zero, zpow_natCast, Nat.cast_mul,
      Nat.cast_pow, Nat.cast_ofNat, mul_assoc, mul_assoc, mul_assoc]

/-! ### RNE32 -/

/-- The least magnitude is that of pattern 0. -/
theorem f32Magnitude_zero : f32Magnitude 0 = 0 := rfl

/-- Every pattern's magnitude is at most that of `lo` or at least that of `lo + 1`: nothing lies between neighbours. -/
theorem f32Magnitude_outside (lo p den : Nat) :
    f32Magnitude p * den ≤ f32Magnitude lo * den ∨ f32Magnitude (lo + 1) * den ≤ f32Magnitude p * den :=
  (le_or_gt p lo).imp (fun h => Nat.mul_le_mul_right _ (f32Magnitude_strictMono.monotone h))
    (fun h => Nat.mul_le_mul_right _ (f32Magnitude_strictMono.monotone h))

/-- The patterns that RNE32 chooses among reach at most one past that of 1.0, so each is finite. -/
theorem f32Nearest_le (num den : Nat) (hd : 0 < den) (h : num ≤ den) : f32Nearest num den ≤ 0x3F800001 := by
  obtain ⟨hlo, -, -⟩ := f32Floor_brackets num den hd h
  obtain ⟨heq, -⟩ | ⟨heq, -⟩ | ⟨-, -, heq | heq⟩ := f32Nearest_cases num den <;> omega

/-- `a` is at least as near to `x` as `b` is, and `tie` holds where a different `b` is as near. -/
def AsNear (x a b : Int) (tie : Prop) : Prop :=
  (a - x).natAbs ≤ (b - x).natAbs ∧ ((a - x).natAbs = (b - x).natAbs → b ≠ a → tie)

/-- The chosen pattern is at least as near to the quotient as any pattern `p`, and even on a tie. Values are multiplied by
`den` and 2^149, which leaves integers. -/
theorem f32Nearest_asNear (num den p : Nat) (hd : 0 < den) (h : num ≤ den) :
    AsNear (num * f32Scale : ℕ) (f32Magnitude (f32Nearest num den) * den : ℕ) (f32Magnitude p * den : ℕ)
      (f32Nearest num den % 2 = 0) := by
  obtain ⟨-, hlo, hhi⟩ := f32Floor_brackets num den hd h
  have hp := f32Magnitude_outside (f32Floor num den 31 0) p den
  have hcases := f32Nearest_cases num den
  simp only [Nat.add_mul] at hcases
  obtain ⟨heq, hmid⟩ | ⟨heq, hmid⟩ | ⟨hmid, heven, heq | heq⟩ := hcases
  · rw [heq]; exact ⟨by omega, fun _ _ => by omega⟩
  · rw [heq]; exact ⟨by omega, fun _ _ => by omega⟩
  · exact ⟨by rw [heq]; omega, fun _ _ => heven⟩
  · exact ⟨by rw [heq]; omega, fun _ _ => heven⟩

/-- The sign bit in front of a pattern that fits 31 bits. -/
theorem rne32_toNat (num : Int) (den : Nat) (hd : 0 < den) (h : num.natAbs ≤ den) :
    (rne32 num den).toNat = (if num < 0 then 2 ^ 31 else 0) + f32Nearest num.natAbs den := by
  have hle := f32Nearest_le num.natAbs den hd h
  unfold rne32
  split <;> rw [BitVec.toNat_ofNat, Nat.mod_eq_of_lt (by omega)]
  rw [Nat.zero_add]

/-- RNE32 answers the finite value of the quotient's sign and the nearest magnitude. -/
theorem f32_rne32 (num : Int) (den : Nat) (hd : 0 < den) (h : num.natAbs ≤ den) :
    f32 (rne32 num den) = .finite (withSign (num < 0) (f32Magnitude (f32Nearest num.natAbs den))) := by
  have hle := f32Nearest_le num.natAbs den hd h
  have hmod : (rne32 num den).toNat % 2 ^ 31 = f32Nearest num.natAbs den := by
    rw [rne32_toNat num den hd h]; split <;> omega
  have hsign : 2 ^ 31 ≤ (rne32 num den).toNat ↔ num < 0 := by
    rw [rne32_toNat num den hd h]; split <;> omega
  rw [f32_eq_finite_iff, hmod]
  simp only [hsign, and_true]
  omega

/-- Bit 0 of the answer is that of the chosen magnitude's pattern. -/
theorem rne32_getLsbD_zero (num : Int) (den : Nat) (hd : 0 < den) (h : num.natAbs ≤ den)
    (heven : f32Nearest num.natAbs den % 2 = 0) : (rne32 num den).getLsbD 0 = false := by
  have hnat : (rne32 num den).toNat % 2 = 0 := by
    rw [rne32_toNat num den hd h]; split <;> omega
  simp [BitVec.getLsbD, hnat]

/-- RNE32 of 0 is +0.0: no other magnitude is as near to 0 as 0. -/
theorem rne32_zero (den : Nat) (hd : 0 < den) : rne32 0 den = 0#32 := by
  obtain ⟨hnear, -⟩ := f32Nearest_asNear 0 den 0 hd (Nat.zero_le _)
  have hprod : f32Magnitude (f32Nearest 0 den) * den = 0 := by
    rw [f32Magnitude_zero] at hnear; omega
  have hmag : f32Magnitude (f32Nearest 0 den) = f32Magnitude 0 :=
    (Nat.mul_eq_zero.mp hprod).resolve_right hd.ne'
  apply BitVec.eq_of_toNat_eq
  rw [rne32_toNat 0 den hd (Nat.zero_le _), Int.natAbs_zero, f32Magnitude_strictMono.injective hmag]
  rfl

/-- Two integers of one sign are as far apart as their magnitudes. -/
theorem natAbs_withSign_sub_same {neg neg' : Prop} [Decidable neg] [Decidable neg'] (h : neg ↔ neg') (a x : Nat) :
    (withSign neg a - withSign neg' x).natAbs = ((a : Int) - x).natAbs := by
  simp only [withSign, h]
  split <;> omega

/-- Two integers of opposite signs are as far apart as the sum of their magnitudes. -/
theorem natAbs_withSign_sub_opposite {neg neg' : Prop} [Decidable neg] [Decidable neg'] (h : ¬(neg ↔ neg')) (a x : Nat) :
    (withSign neg a - withSign neg' x).natAbs = a + x := by
  by_cases hn : neg
  · rw [withSign, withSign, if_pos hn, if_neg fun hn' => h (iff_of_true hn hn')]; omega
  · rw [withSign, withSign, if_neg hn, if_pos (by_contra fun hn' => h (iff_of_false hn hn'))]; omega

/-- Giving the target and the chosen value one sign, the candidate either sign, keeps the comparison: a candidate of the
other sign is no nearer than 0 is. -/
theorem asNear_withSign {neg neg' tie : Prop} [Decidable neg] [Decidable neg'] {x a b : Nat} (hb : AsNear x a b tie)
    (h0 : AsNear x a (0 : ℕ) tie) : AsNear (withSign neg x) (withSign neg a) (withSign neg' b) tie := by
  obtain ⟨hle, htie⟩ := hb
  obtain ⟨hle0, htie0⟩ := h0
  rw [AsNear, natAbs_withSign_sub_same Iff.rfl]
  by_cases hsign : neg' ↔ neg
  · rw [natAbs_withSign_sub_same hsign]
    refine ⟨hle, fun htied hne => htie htied fun h => hne ?_⟩
    simp only [withSign, hsign, h]
  · rw [natAbs_withSign_sub_opposite hsign]
    refine ⟨by omega, fun htied hne => htie0 (by omega) fun h => hne ?_⟩
    have ha : a = 0 := by omega
    have hb : b = 0 := by omega
    simp [withSign, ha, hb]

/-- RNE32 is as near as any finite value, of either sign: the nearest magnitude with the quotient's own sign. -/
theorem rne32_asNear (num : Int) (den p : Nat) (neg : Prop) [Decidable neg] (hd : 0 < den) (h : num.natAbs ≤ den) :
    AsNear (num * f32Scale) (withSign (num < 0) (f32Magnitude (f32Nearest num.natAbs den)) * den)
      (withSign neg (f32Magnitude p) * den) (f32Nearest num.natAbs den % 2 = 0) := by
  have h0 := f32Nearest_asNear num.natAbs den 0 hd h
  rw [f32Magnitude_zero, Nat.zero_mul] at h0
  have hnum : num * f32Scale = withSign (num < 0) (num.natAbs * f32Scale) := by
    rw [← withSign_mul, withSign_natAbs]
  rw [hnum, withSign_mul, withSign_mul]
  exact asNear_withSign (f32Nearest_asNear num.natAbs den p hd h) h0

theorem f32Scale_cast : (f32Scale : ℚ) = 2 ^ 149 := by norm_num [f32Scale]

/-- The absolute value of a rational through its integer numerator. -/
theorem abs_intCast_div (a : Int) {d : ℚ} (hd : 0 < d) : |(a : ℚ) / d| = (a.natAbs : ℚ) / d := by
  rw [abs_div, abs_of_pos hd, Nat.cast_natAbs, Int.cast_abs]

/-- A distance to a quotient, over the common denominator. -/
theorem abs_scaledRat_sub_div (z num : Int) (den : Nat) (hd : 0 < den) :
    |scaledRat z - (num : ℚ) / (den : ℚ)| = ((z * den - num * f32Scale).natAbs : ℚ) / (2 ^ 149 * den) := by
  have hden : (0 : ℚ) < den := Nat.cast_pos.mpr hd
  have hdiff : scaledRat z - (num : ℚ) / (den : ℚ) = ((z * den - num * f32Scale : ℤ) : ℚ) / (2 ^ 149 * den) := by
    rw [scaledRat, div_sub_div _ _ (by positivity) hden.ne']
    push_cast [f32Scale_cast]
    ring
  rw [hdiff, abs_intCast_div _ (by positivity)]

/-- Settles O7: over the common denominator the distances are integers, which `rne32_asNear` compares. -/
theorem rne32IsNearestEven : Obligations.Rne32IsNearestEven := by
  intro num den hd h
  refine ⟨fun h0 => h0 ▸ rne32_zero den hd, _, f32_rne32 num den hd h, fun b z' hb => ?_⟩
  obtain ⟨-, rfl⟩ := (f32_eq_finite_iff b z').mp hb
  obtain ⟨hle, htie⟩ := rne32_asNear num den (b.toNat % 2 ^ 31) (2 ^ 31 ≤ b.toNat) hd h
  have hpos : (0 : ℚ) < 2 ^ 149 * den := by positivity
  rw [abs_scaledRat_sub_div _ _ _ hd, abs_scaledRat_sub_div _ _ _ hd, div_le_div_iff_of_pos_right hpos,
    div_left_inj' hpos.ne', Nat.cast_le, Nat.cast_inj]
  refine ⟨hle, fun heq hne => rne32_getLsbD_zero num den hd h (htie heq fun hmul => hne ?_)⟩
  exact Int.eq_of_mul_eq_mul_right (by omega) hmul

/-! ### Quantization -/

/-- The bounds on the magnitude that `roundHaz` computes by one division: at most 1/2 above the quotient, less than 1/2
below it. -/
theorem roundHaz_magnitude_bounds (m den : Nat) (hd : 0 < den) :
    2 * ((2 * m + den) / (2 * den)) * den ≤ 2 * m + den ∧ 2 * m < 2 * ((2 * m + den) / (2 * den)) * den + den := by
  have hdiv := Nat.div_add_mod (2 * m + den) (2 * den)
  have hmod := Nat.mod_lt (2 * m + den) (by omega : 0 < 2 * den)
  have hcomm : 2 * ((2 * m + den) / (2 * den)) * den = 2 * den * ((2 * m + den) / (2 * den)) := by ring
  omega

/-- `roundHaz` is within 1/2 of the quotient, and on a tie its magnitude is the larger (00_scope R13); both sides are
multiplied by `2 * den`. -/
theorem roundHaz_nearest (num : Int) (den : Nat) (hd : 0 < den) :
    2 * (roundHaz num den * den - num).natAbs ≤ den ∧
      (2 * (roundHaz num den * den - num).natAbs = den → num.natAbs < (roundHaz num den * den).natAbs) := by
  obtain ⟨hle, hlt⟩ := roundHaz_magnitude_bounds num.natAbs den hd
  rw [roundHaz, mul_assoc, ← Nat.cast_mul]
  rw [mul_assoc] at hle hlt
  obtain hneg | rfl | hpos := Int.lt_trichotomy num 0
  · rw [Int.sign_eq_neg_one_of_neg hneg]; omega
  · rw [Int.sign_zero]; omega
  · rw [Int.sign_eq_one_of_pos hpos]; omega

/-- An exact quotient is its own rounding. -/
theorem roundHaz_mul_self (k : Int) (den : Nat) (hd : 0 < den) : roundHaz (den * k) den = k := by
  obtain ⟨hle, -⟩ := roundHaz_nearest (den * k) den hd
  rw [mul_comm (den : Int) k] at hle ⊢
  rw [← Int.sub_mul, Int.natAbs_mul, Int.natAbs_natCast] at hle
  by_contra hne
  have : den ≤ (roundHaz (k * den) den - k).natAbs * den := Nat.le_mul_of_pos_left _ (by omega)
  omega

/-- The quantized integer of a clamped value (40_scalar R103). -/
theorem quantize_of_clamped (b : BitVec 32) (n : Nat) (v : Int) (h : (f32 b).clamped = some v) :
    quantize b n = some (roundHaz (v * (maxVal n : Int)) f32Scale) := by
  rw [quantize, h]; rfl

theorem f32Scale_pos : 0 < f32Scale := Nat.two_pow_pos 149

/-- The clamp takes a value of 1 or more to 1. -/
theorem clamped_of_one_le (z : Int) (h : (f32Scale : Int) ≤ z) : (F32.finite z).clamped = some (f32Scale : Int) := by
  have hpos := f32Scale_pos
  rw [F32.clamped, Option.some.injEq]
  omega

/-- The clamp takes a value of -1 or less to -1. -/
theorem clamped_of_le_neg_one (z : Int) (h : z ≤ -(f32Scale : Int)) :
    (F32.finite z).clamped = some (-(f32Scale : Int)) := by
  have hpos := f32Scale_pos
  rw [F32.clamped, Option.some.injEq]
  omega

/-- The clamp keeps a value of [-1, 1]. -/
theorem clamped_of_mem_unit (z : Int) (hlo : -(f32Scale : Int) ≤ z) (hhi : z ≤ f32Scale) :
    (F32.finite z).clamped = some z := by
  rw [F32.clamped, if_neg (by omega), if_neg (by omega)]

/-- A value clamped to 1 is quantized to `max_val(n)`. -/
theorem quantize_of_clamped_one (b : BitVec 32) (n : Nat) (h : (f32 b).clamped = some (f32Scale : Int)) :
    quantize b n = some (maxVal n : Int) := by
  rw [quantize_of_clamped b n _ h, roundHaz_mul_self _ _ f32Scale_pos]

/-- A value clamped to -1 is quantized to `-max_val(n)`. -/
theorem quantize_of_clamped_neg_one (b : BitVec 32) (n : Nat) (h : (f32 b).clamped = some (-(f32Scale : Int))) :
    quantize b n = some (-(maxVal n : Int)) := by
  rw [quantize_of_clamped b n _ h, neg_mul, ← mul_neg, roundHaz_mul_self _ _ f32Scale_pos]

/-- Bounds on a value as bounds on its scaled integer. -/
theorem le_scaledRat_iff (k z : Int) : (k : ℚ) ≤ scaledRat z ↔ k * f32Scale ≤ z := by
  rw [scaledRat, le_div_iff₀ (by positivity), ← f32Scale_cast]
  exact_mod_cast Iff.rfl

theorem scaledRat_le_iff (k z : Int) : scaledRat z ≤ (k : ℚ) ↔ z ≤ k * f32Scale := by
  rw [scaledRat, div_le_iff₀ (by positivity), ← f32Scale_cast]
  exact_mod_cast Iff.rfl

/-- The rounded product against the exact one, in the rationals: `roundHaz_nearest` divided by `2 * 2^149`. -/
theorem roundHaz_scaledRat (z : Int) (m : Nat) :
    |(roundHaz (z * m) f32Scale : ℚ) - scaledRat z * m| ≤ 1 / 2 ∧
      (|(roundHaz (z * m) f32Scale : ℚ) - scaledRat z * m| = 1 / 2 →
        |scaledRat z * m| < |(roundHaz (z * m) f32Scale : ℚ)|) := by
  obtain ⟨hle, htie⟩ := roundHaz_nearest (z * m) f32Scale f32Scale_pos
  generalize roundHaz (z * m) f32Scale = k at *
  have hscale : (0 : ℚ) < f32Scale := Nat.cast_pos.mpr f32Scale_pos
  have hprod : scaledRat z * m = ((z * m : ℤ) : ℚ) / f32Scale := by
    rw [scaledRat, ← f32Scale_cast]; push_cast; ring
  have hdist : |(k : ℚ) - scaledRat z * m| = ((k * f32Scale - z * m).natAbs : ℚ) / f32Scale := by
    rw [hprod, sub_div' hscale.ne', ← abs_intCast_div _ hscale]
    push_cast
    rfl
  have hmag : |scaledRat z * m| = ((z * m).natAbs : ℚ) / f32Scale := by rw [hprod, abs_intCast_div _ hscale]
  have hk : |(k : ℚ)| = ((k * f32Scale).natAbs : ℚ) / f32Scale := by
    rw [← abs_intCast_div _ hscale, Int.cast_mul, Int.cast_natCast, mul_div_cancel_right₀ _ hscale.ne']
  rw [hdist, hmag, hk, div_le_div_iff₀ hscale two_pos, div_eq_div_iff hscale.ne' two_ne_zero,
    div_lt_div_iff_of_pos_right hscale, mul_comm _ (2 : ℚ), one_mul]
  exact_mod_cast And.intro hle htie

/-- Settles O8: NaN and the infinities by the branches of `clamped`, a finite value by where it lies against ±1. -/
theorem quantizeRoundsTheClampedProduct : Obligations.QuantizeRoundsTheClampedProduct := by
  intro b n
  refine ⟨fun h => by rw [quantize, h]; rfl, fun h => quantize_of_clamped_one b n (by rw [h]; rfl),
    fun h => quantize_of_clamped_neg_one b n (by rw [h]; rfl), fun z h => ?_⟩
  obtain ⟨k, hk⟩ : ∃ k, quantize b n = some k := ⟨_, quantize_of_clamped b n _ (by rw [h]; rfl)⟩
  have hk_eq (k' : Int) (h' : quantize b n = some k') : k = k' := Option.some.inj (hk.symm.trans h')
  refine ⟨k, hk, fun hge => hk_eq _ ?_, fun hle => hk_eq _ ?_, fun habs => ?_⟩
  · have hz := (le_scaledRat_iff 1 z).mp (by exact_mod_cast hge)
    exact quantize_of_clamped_one b n (h ▸ clamped_of_one_le z (by omega))
  · have hz := (scaledRat_le_iff (-1) z).mp (by exact_mod_cast hle)
    exact quantize_of_clamped_neg_one b n (h ▸ clamped_of_le_neg_one z (by omega))
  · obtain ⟨hlo, hhi⟩ := abs_le.mp habs
    have hlo' := (le_scaledRat_iff (-1) z).mp (by exact_mod_cast hlo)
    have hhi' := (scaledRat_le_iff 1 z).mp (by exact_mod_cast hhi)
    have hclamp : (f32 b).clamped = some z := h ▸ clamped_of_mem_unit z (by omega) (by omega)
    rw [hk_eq _ (quantize_of_clamped b n z hclamp)]
    exact roundHaz_scaledRat z (maxVal n)

end Sys2Proof.Machine
end

section
/-! The register window, acceptance, completion and reset (10_state R20 to R35, 30_encoding R84, R85, 60_exceptions R180,
R181, 70_reset R220): what each operation leaves at each offset (O43 to O49, O59). -/

namespace Sys2Proof.Machine

/-! ### STATUS as a number -/

/-- Appending words adds their values, the left one shifted up by the width of the right one. -/
theorem toNat_append_eq_add {m n : Nat} (x : BitVec m) (y : BitVec n) :
    (x ++ y).toNat = x.toNat * 2 ^ n + y.toNat := by
  rw [BitVec.toNat_append, ← Nat.shiftLeft_add_eq_or_of_lt y.isLt, Nat.shiftLeft_eq]

/-- The fields of STATUS at their bit positions (10_state R26). -/
theorem statusWord_toNat (st : Status) :
    st.word.toNat = st.busy.toNat + 2 * st.done.toNat + 4 * st.ovr.toNat + 16 * st.err.toNat + 256 * st.detail.toNat := by
  simp only [Status.word, toNat_append_eq_add, BitVec.toNat_ofBool, BitVec.toNat_ofNat]
  omega

/-- Settles O43: offset 0x10 reads as STATUS. -/
theorem statusWordLayout : Obligations.StatusWordLayout := fun s => statusWord_toNat s.status

/-! ### Writes of STATUS and of the argument registers -/

/-- Settles O44: bit 1 of the written word masks DONE and bit 2 masks OVR. -/
theorem statusWriteClears : Obligations.StatusWriteClears := by
  intro s w
  show s.acknowledge w = _
  rw [State.acknowledge, Status.clear]
  cases w.getLsbD 1 <;> cases w.getLsbD 2 <;> simp

/-- CTRL keeps bit 0 of the written word (10_state R28). -/
theorem ctrlWord_getLsbD_zero (v : Word) : ctrlWord (v.getLsbD 0) = v &&& 1#64 :=
  (BitVec.and_one_eq_setWidth_ofBool_getLsbD (x := v)).symm

/-- The offsets of the registers that hold what the host writes: CTRL and the argument registers (10_state R22). -/
abbrev argOffsets : List Nat := [0x18, 0x20, 0x28, 0x30, 0x50, 0x58, 0x60, 0x68, 0x70, 0x78]

theorem readReg_writeReg_same (s : State) (off : Nat) (v : Word) (hoff : off ∈ argOffsets) :
    (s.writeReg off v).readReg off = if off = 0x18 then v &&& 1#64 else v := by
  simp only [argOffsets, List.mem_cons, List.not_mem_nil, or_false] at hoff
  rcases hoff with rfl | rfl | rfl | rfl | rfl | rfl | rfl | rfl | rfl | rfl
  · exact ctrlWord_getLsbD_zero v
  all_goals rfl

/-- Each write sets one field, which no other offset shows. -/
theorem readReg_writeReg_other (s : State) (off off' : Nat) (v : Word) (hoff : off ∈ argOffsets) (hne : off' ≠ off) :
    (s.writeReg off v).readReg off' = s.readReg off' := by
  simp only [argOffsets, List.mem_cons, List.not_mem_nil, or_false] at hoff
  rcases hoff with rfl | rfl | rfl | rfl | rfl | rfl | rfl | rfl | rfl | rfl <;>
    (unfold State.readReg; split <;> trivial)

/-- Settles O45: the written register, and every other one. -/
theorem argumentRegistersHold : Obligations.ArgumentRegistersHold := fun s off v hoff =>
  ⟨readReg_writeReg_same s off v hoff, fun off' hne => readReg_writeReg_other s off off' v hoff hne⟩

/-! ### Read-only and reserved offsets -/

/-- Only the twelve writable registers react to a write (10_state R22, R23). -/
theorem writeReg_readOnly (s : State) (off : Nat) (v : Word)
    (hoff : off ∉ [0x08, 0x10, 0x18, 0x20, 0x28, 0x30, 0x50, 0x58, 0x60, 0x68, 0x70, 0x78]) : s.writeReg off v = s := by
  unfold State.writeReg
  split <;> try simp at hoff
  rfl

/-- No register starts at an unaligned offset or past ERR_ADDR (10_state R22, R23). -/
theorem readReg_reserved (s : State) (off : Nat) (hoff : off % 8 ≠ 0 ∨ 0x80 < off) : s.readReg off = 0#64 := by
  unfold State.readReg
  split <;> try omega
  rfl

/-- Settles O46: writes by the list of the writable registers, reads by the list of all. -/
theorem readOnlyAndReservedOffsets : Obligations.ReadOnlyAndReservedOffsets := fun s v =>
  ⟨fun off hoff => writeReg_readOnly s off v hoff, rfl, readReg_reserved s⟩

/-! ### Accesses on the host port -/

/-- With an input left, the step delivers it. -/
theorem step_deliver (s : State) (x : Input) (rest : List Input) (h : s.inputs = x :: rest) :
    step s = deliver x { s with inputs := rest } := by
  rw [step, takeTurn, h]

/-- With no input left, the step is the engine's turn. -/
theorem step_runEngine (s : State) (h : s.inputs = []) : step s = runEngine s := by
  rw [step, takeTurn, h]

theorem legalAccess_iff (off size : Nat) : legalAccess off size = true ↔ size = 8 ∧ off % 8 = 0 := decide_eq_true_iff

section
variable (s : State) (addr : Word) (size off : Nat) (v : Word) (hoff : s.platform.offset addr = some off)
include hoff

theorem hostRead_legal (h : size = 8 ∧ off % 8 = 0) :
    s.hostRead addr size = { s with response := .data (s.readReg off) } := by
  simp only [State.hostRead, hoff, (legalAccess_iff off size).2 h, if_true]

theorem hostRead_illegal (h : ¬(size = 8 ∧ off % 8 = 0)) : s.hostRead addr size = { s with response := .error } := by
  simp only [State.hostRead, hoff, legalAccess_iff, h, if_false]

theorem hostWrite_legal (h : size = 8 ∧ off % 8 = 0) :
    s.hostWrite addr size v = { s.writeReg off v with response := .written } := by
  simp only [State.hostWrite, hoff, (legalAccess_iff off size).2 h, if_true]

theorem hostWrite_illegal (h : ¬(size = 8 ∧ off % 8 = 0)) :
    s.hostWrite addr size v = { s with response := .error } := by
  simp only [State.hostWrite, hoff, legalAccess_iff, h, if_false]

end

/-- Settles O47: the step delivers the access to the offset that the address has in the window. -/
theorem hostPortAccess : Obligations.HostPortAccess := by
  intro s addr size off v rest haddr hlt
  have hoff : ({ s with inputs := rest } : State).platform.offset addr = some off :=
    (offset_eq_some_iff _ _ _).2 ⟨haddr, hlt⟩
  refine ⟨fun hin => ?_, fun hin => ?_⟩ <;> rw [step_deliver s _ rest hin]
  · exact ⟨fun h => congrArg _ (hostRead_legal _ addr size off hoff h),
      fun h => congrArg _ (hostRead_illegal _ addr size off hoff h)⟩
  · exact ⟨fun h => congrArg _ (hostWrite_legal _ addr size off v hoff h),
      fun h => congrArg _ (hostWrite_illegal _ addr size off v hoff h)⟩

/-! ### Acceptance and completion -/

/-- Settles O48: offset 0x08 issues the word, which is an overrun or an acceptance. -/
theorem cmdWriteIssues : Obligations.CmdWriteIssues := by
  intro s w
  have hissue : s.writeReg 0x08 w = s.issue w := rfl
  rw [hissue]
  refine ⟨fun h => issue_busy w s h, fun h => ?_⟩
  rw [issue_idle w s h]
  exact ⟨s.draws + 1, rfl, Bool.and_false _⟩

/-- STATUS after completion: bit 1, OVR as before, and the codes of the verdict (60_exceptions R181). -/
theorem finished_word_toNat (st : Status) (v : Verdict) :
    (st.finished v).word.toNat = 2 + 4 * st.ovr.toNat + (16 * v.err.toNat + 256 * v.detail.toNat) := by
  rw [statusWord_toNat, finished_busy, finished_done, finished_ovr, finished_err, finished_detail, Bool.toNat_false,
    Bool.toNat_true]
  omega

/-- Settles O49: both tables are those of the verdict's codes, row by row. -/
theorem finishRecordsTheVerdict : Obligations.FinishRecordsTheVerdict := by
  intro s v
  refine ⟨rfl, ?_, ?_⟩
  · show v.errAddr = _
    rcases v with _ | ⟨_ | _, _⟩ | _ | _ | _ <;> rfl
  · refine (finished_word_toNat s.status v).trans (congrArg _ ?_)
    rcases v with _ | ⟨_ | _, _⟩ | _ | ⟨_ | _, _⟩ | ⟨_ | _⟩ <;> rfl

/-! ### Reset -/

theorem resetStatus_word : Status.reset.word = 0#64 := by decide

/-- Every register of the window but ID reads 0 after a reset (10_state R22, R41). -/
theorem readReg_doReset (s : State) (off : Nat) :
    s.doReset.readReg off = if off = 0 then 0x0540000154434F44#64 else 0#64 := by
  by_cases hid : off = 0
  · rw [if_pos hid, hid]; rfl
  · rw [if_neg hid]
    unfold State.readReg
    split <;> try rfl
    · exact absurd rfl hid
    · exact resetStatus_word

/-- Settles O59: the step is `doReset`, whose registers are those of `State.reset`. -/
theorem resetClearsRegisters : Obligations.ResetClearsRegisters := fun s rest hin =>
  ⟨({ s with inputs := rest } : State).doReset, step_deliver s _ rest hin, readReg_doReset _, rfl, rfl, rfl, rfl, rfl⟩

end Sys2Proof.Machine
end

section
/-! What a command does to the registers and to memory, and what its outcome depends on (10_state R36, 20_memory R64,
60_exceptions R181, R183): O36 and O40. -/

namespace Sys2Proof.Machine

/-! ### The four ways a command completes -/

/-- The commands whose result goes to TOUT (10_state R36). -/
def writesTout (i : Instr) : Prop := (∃ n, i = .senc n) ∨ i = .unpack

/-- The commands whose result goes to RESULT (10_state R36). -/
def writesResult (i : Instr) : Prop := (∃ n, i = .sdec n) ∨ i = .pack ∨ ∃ n, i = .reqb n

/-- The commands with memory accesses (10_state R36, 20_memory R60). -/
def usesMemory (i : Instr) : Prop := (∃ n, i = .menc n) ∨ ∃ n, i = .mdec n

/-- How command `i` can take a state to its completion: nothing but the verdict, a trit vector in TOUT, a word in RESULT, or
another memory, canonical if it was. -/
inductive Completion (i : Instr) (s : State) : State → Prop where
  | verdict (v : Verdict) : Completion i s (s.finish v)
  | trits (h : writesTout i) (ts : List Trit) :
    Completion i s (({ s with toutLo := tritsLo ts, toutHi := tritsHi ts } : State).finish .ok)
  | result (h : writesResult i) (r : Word) : Completion i s (({ s with result := r } : State).finish .ok)
  | memory (h : usesMemory i) (m : Memory) (hwf : s.mem.wf = true → m.wf = true) (v : Verdict) :
    Completion i s (({ s with mem := m } : State).finish v)

/-- Settling the races of a command that uses memory changes memory alone. -/
theorem conclude_completion (i : Instr) (s : State) (v : Verdict) (h : usesMemory i) :
    Completion i s (s.conclude i v) := by
  rw [conclude_eq]
  exact .memory h _ (settle_wf i s) v

/-- So does the last phase of such a command. -/
theorem writeOut_completion (i : Instr) (s : State) (bytes : List Byte) (h : usesMemory i) :
    Completion i s (s.writeOut i bytes) := by
  obtain ⟨m, v, heq⟩ := writeOut_eq i bytes s
  have hwf := writeOut_wf i bytes s
  rw [heq] at hwf ⊢
  exact .memory h m hwf v

/-- Every command completes in every state, in one of the four ways (60_exceptions R181, R185). -/
theorem exec_completion (i : Instr) (s : State) : ∃ t, exec i s = .next t ∧ Completion i s t := by
  cases i with
  | senc n =>
    obtain ⟨-, h⟩ | ⟨-, -, h⟩ | ⟨ts, -, -, h⟩ := execSenc_cases n s
    · exact ⟨_, h, .verdict _⟩
    · exact ⟨_, h, .verdict _⟩
    · exact ⟨_, h, .trits (.inl ⟨n, rfl⟩) ts⟩
  | sdec n =>
    obtain ⟨-, h⟩ | ⟨-, h⟩ | ⟨_, -, -, -, h⟩ | ⟨_, -, -, -, h⟩ := execSdec_cases n s
    · exact ⟨_, h, .verdict _⟩
    · exact ⟨_, h, .result (.inl ⟨n, rfl⟩) _⟩
    · exact ⟨_, h, .verdict _⟩
    · exact ⟨_, h, .result (.inl ⟨n, rfl⟩) _⟩
  | pack =>
    obtain ⟨_, -, h⟩ | ⟨_, -, h⟩ := execPack_cases s
    · exact ⟨_, h, .verdict _⟩
    · exact ⟨_, h, .result (.inr (.inl rfl)) _⟩
  | unpack => exact ⟨_, rfl, .trits (.inr rfl) _⟩
  | reqb n =>
    obtain ⟨_, -, h⟩ | ⟨-, -, h⟩ | ⟨-, -, h⟩ := execReqb_cases n s
    · exact ⟨_, h, .verdict _⟩
    · exact ⟨_, h, .verdict _⟩
    · exact ⟨_, h, .result (.inr (.inr ⟨n, rfl⟩)) _⟩
  | menc n =>
    have hmem : usesMemory (.menc n) := .inl ⟨n, rfl⟩
    obtain ⟨_, -, h⟩ | ⟨_, -, -, h⟩ | ⟨_, -, -, h⟩ := execMenc_cases n s
    · exact ⟨_, h, conclude_completion _ s _ hmem⟩
    · exact ⟨_, h, conclude_completion _ s _ hmem⟩
    · exact ⟨_, h, writeOut_completion _ s _ hmem⟩
  | mdec n =>
    have hmem : usesMemory (.mdec n) := .inr ⟨n, rfl⟩
    obtain ⟨_, -, h⟩ | ⟨_, -, -, h⟩ | ⟨_, -, -, h⟩ := execMdec_cases n s
    · exact ⟨_, h, conclude_completion _ s _ hmem⟩
    · exact ⟨_, h, conclude_completion _ s _ hmem⟩
    · exact ⟨_, h, writeOut_completion _ s _ hmem⟩

/-- Settles O36: by the way the command completes. -/
theorem everyCommandCompletes : Obligations.EveryCommandCompletes := by
  intro i s
  obtain ⟨t, hexec, hcompl⟩ := exec_completion i s
  refine ⟨t, hexec, ?_⟩
  cases hcompl with
  | verdict v => exact ⟨rfl, rfl, rfl, rfl, fun _ _ => ⟨rfl, rfl⟩, fun _ _ _ => rfl, fun _ _ => rfl⟩
  | trits h ts =>
    refine ⟨rfl, rfl, rfl, rfl, fun hsenc hunpack => ?_, fun _ _ _ => rfl, fun _ _ => rfl⟩
    exact (h.elim (fun ⟨n, hn⟩ => hsenc n hn) hunpack).elim
  | result h r =>
    refine ⟨rfl, rfl, rfl, rfl, fun _ _ => ⟨rfl, rfl⟩, fun hsdec hpack hreqb => ?_, fun _ _ => rfl⟩
    exact (h.elim (fun ⟨n, hn⟩ => hsdec n hn) (·.elim hpack fun ⟨n, hn⟩ => hreqb n hn)).elim
  | memory h m hwf v =>
    refine ⟨rfl, rfl, rfl, rfl, fun _ _ => ⟨rfl, rfl⟩, fun _ _ _ => rfl, fun hmenc hmdec => ?_⟩
    exact (h.elim (fun ⟨n, hn⟩ => hmenc n hn) fun ⟨n, hn⟩ => hmdec n hn).elim

/-! ### Commands without memory accesses do not look at memory -/

/-- A step's answer with the memory replaced. -/
def onMem (m : Memory) : Host.Outcome State Fault Refusal → Host.Outcome State Fault Refusal
  | .next t => .next { t with mem := m }
  | .fault r => .fault r
  | .refused r => .refused r

/-- Such a command only carries memory along. -/
theorem exec_withMem (i : Instr) (s : State) (m : Memory) (h : ¬usesMemory i) :
    exec i { s with mem := m } = onMem m (exec i s) := by
  cases i with
  | senc n =>
    simp only [exec, execSenc]
    cases nOutOfRange n
    · cases enc s.engine.lat.float n <;> rfl
    · rfl
  | sdec n =>
    simp only [exec, execSdec]
    split
    · rfl
    · split
      · rfl
      · cases s.engine.lat.trits n <;> rfl
  | pack =>
    simp only [exec, execPack]
    cases s.engine.lat.trits Config.group <;> rfl
  | unpack => rfl
  | reqb n =>
    simp only [exec, execReqb]
    cases checkDims s.engine.lat n
    · simp only
      split <;> rfl
    · rfl
  | menc n => exact absurd (.inl ⟨n, rfl⟩) h
  | mdec n => exact absurd (.inr ⟨n, rfl⟩) h

/-! ### What the matrix commands read lies in their read footprint -/

theorem portByte_withMem (s : State) (m : Memory) (a : Nat) (h : m.read a = s.mem.read a) :
    ({ s with mem := m } : State).portByte a = s.portByte a := by
  simp only [State.portByte, h]

theorem portFloat_withMem (s : State) (m : Memory) (a : Nat)
    (h : ∀ a', a ≤ a' → a' < a + 4 → m.read a' = s.mem.read a') :
    ({ s with mem := m } : State).portFloat a = s.portFloat a := by
  simp only [State.portFloat]
  rw [portByte_withMem s m a (h _ (by omega) (by omega)), portByte_withMem s m (a + 1) (h _ (by omega) (by omega)),
    portByte_withMem s m (a + 2) (h _ (by omega) (by omega)), portByte_withMem s m (a + 3) (h _ (by omega) (by omega))]

/-- MENC's scan reads the elements it covers and nothing else (42_matrix R154). -/
theorem scanMenc_withMem (n : Nat) (s : State) (m : Memory) (e count : Nat)
    (h : ∀ a, s.engine.lat.src + 4 * e ≤ a → a < s.engine.lat.src + 4 * (e + count) → m.read a = s.mem.read a) :
    scanMenc n { s with mem := m } e count = scanMenc n s e count := by
  induction count generalizing e with
  | zero => rfl
  | succ count ih =>
    have hfloat := portFloat_withMem s m (s.engine.lat.src + 4 * e) fun a _ _ => h a (by omega) (by omega)
    have hrest := ih (e + 1) fun a _ _ => h a (by omega) (by omega)
    simp only [scanMenc, hfloat, hrest]

/-- MDEC's read covers its bytes and nothing else (42_matrix R164). -/
theorem readMdec_withMem (s : State) (m : Memory) (j count : Nat)
    (h : ∀ a, s.engine.lat.src + j ≤ a → a < s.engine.lat.src + (j + count) → m.read a = s.mem.read a) :
    readMdec { s with mem := m } j count = readMdec s j count := by
  induction count generalizing j with
  | zero => rfl
  | succ count ih =>
    have hbyte := portByte_withMem s m (s.engine.lat.src + j) (h _ (by omega) (by omega))
    have hrest := ih (j + 1) fun a _ _ => h a (by omega) (by omega)
    simp only [readMdec, hbyte, hrest]

/-! ### A failed check or read is no success -/

theorem scanMenc_error_err (n : Nat) (s : State) (e count : Nat) (v : Verdict) (h : scanMenc n s e count = .error v) :
    v.err ≠ 0#4 := by
  induction count generalizing e with
  | zero => cases h
  | succ count ih =>
    rw [scanMenc] at h
    split at h
    · cases h; simp [Verdict.err]
    · split at h
      · cases h; simp [Verdict.err]
      · split at h
        · rename_i hrest
          cases h
          exact ih (e + 1) hrest
        · cases h

theorem readMdec_error_err (s : State) (j count : Nat) (v : Verdict) (h : readMdec s j count = .error v) :
    v.err ≠ 0#4 := by
  induction count generalizing j with
  | zero => cases h
  | succ count ih =>
    rw [readMdec] at h
    split at h
    · cases h; simp [Verdict.err]
    · split at h
      · rename_i hrest
        cases h
        exact ih (j + 1) hrest
      · cases h

theorem validateMdec_err (l : Latches) (n : Nat) (v : Verdict) (h : validateMdec l n = some v) : v.err ≠ 0#4 := by
  unfold validateMdec at h
  repeat' split at h
  all_goals cases h
  all_goals simp [Verdict.err]

/-! ### The outcome of a command over two memories -/

/-- `u` ends as `t` does: the same registers, the same address but for BUS_ERROR WRITE, and after a success the same bytes in
the write footprint that command `i` has in `s` (60_exceptions R183). -/
def SameOutcome (i : Instr) (s t u : State) : Prop :=
  u = { t with mem := u.mem, errAddr := u.errAddr } ∧
    (¬(t.status.err = 3#4 ∧ t.status.detail = 2#8) → u.errAddr = t.errAddr) ∧
    (t.status.err = 0#4 → ∀ a, a < 2 ^ 64 → inRange (writeRange i s.engine.lat) a = true → u.mem.read a = t.mem.read a)

/-- Without a race the last phase completes with OK exactly when every write access does, else with BUS_ERROR WRITE. -/
theorem writeOut_raceFree (i : Instr) (bytes : List Byte) (s : State) (hrace : s.engine.raced = false) :
    (failingWrites s.platform i s.engine.lat = [] ∧
      s.writeOut i bytes =
        ({ s with mem := s.mem.writeBytes (writeRange i s.engine.lat).1 bytes } : State).finish .ok) ∨
    (failingWrites s.platform i s.engine.lat ≠ [] ∧
      ∃ x, s.writeOut i bytes = (s.spoil i).finish (.busError .write x)) := by
  obtain ⟨hok, ht⟩ | ⟨x, hx, ht⟩ := writeOut_cases i bytes s
  · exact .inl ⟨hok, ht.trans (conclude_raceFree _ _ _ hrace)⟩
  · exact .inr ⟨List.ne_nil_of_mem hx, _, ht.trans (conclude_raceFree _ _ _ hrace)⟩

section
variable (i : Instr) (s : State) (m : Memory) (hrace : s.engine.raced = false)
include hrace

/-- A failure reports the same over any memory. -/
theorem conclude_sameOutcome (v : Verdict) (hv : v.err ≠ 0#4) :
    SameOutcome i s (s.conclude i v) (({ s with mem := m } : State).conclude i v) := by
  rw [conclude_raceFree i v s hrace, conclude_raceFree i v { s with mem := m } hrace]
  exact ⟨rfl, fun _ => rfl, fun h => absurd h hv⟩

/-- The last phase leaves the same bytes over any memory, when it writes the whole footprint. -/
theorem writeOut_sameOutcome (bytes : List Byte) (hs : s.mem.wf = true) (hm : m.wf = true)
    (hlen : (writeRange i s.engine.lat).2 ≤ bytes.length) :
    SameOutcome i s (s.writeOut i bytes) (({ s with mem := m } : State).writeOut i bytes) := by
  obtain ⟨hok, ht⟩ | ⟨hfail, x, ht⟩ := writeOut_raceFree i bytes s hrace <;>
    obtain ⟨hok', hu⟩ | ⟨hfail', x', hu⟩ := writeOut_raceFree i bytes { s with mem := m } hrace <;>
    rw [ht, hu]
  · refine ⟨rfl, fun _ => rfl, fun _ a ha hrange => ?_⟩
    have hin : (writeRange i s.engine.lat).1 ≤ a ∧ a < (writeRange i s.engine.lat).1 + bytes.length ∧
        a < Config.memSize := by
      obtain ⟨hlo, hhi⟩ := of_decide_eq_true hrange
      exact ⟨hlo, by omega, ha⟩
    rw [finish_mem, finish_mem, read_writeBytes _ _ _ _ hs, read_writeBytes _ _ _ _ hm, if_pos hin, if_pos hin]
  · exact absurd hok hfail'
  · exact absurd hok' hfail
  · exact ⟨rfl, fun h => absurd ⟨rfl, rfl⟩ h, fun h => absurd h (by simp [Verdict.err])⟩

/-- MENC over a memory that agrees on the elements: the checks do not look at memory and the scan gives the same. -/
theorem execMenc_sameOutcome (n : Nat) (hs : s.mem.wf = true) (hm : m.wf = true)
    (hread : ∀ a, inRange (readRange (.menc n) s.engine.lat) a = true → m.read a = s.mem.read a) :
    ∃ t u, execMenc n s = .next t ∧ execMenc n { s with mem := m } = .next u ∧ SameOutcome (.menc n) s t u := by
  have hscan := scanMenc_withMem n s m 0 s.engine.lat.elems fun a hlo hhi =>
    hread a (decide_eq_true ⟨hlo, by simpa [readRange] using hhi⟩)
  simp only [execMenc, hscan]
  cases validateMenc s.engine.lat n with
  | some why => exact ⟨_, _, rfl, rfl, conclude_sameOutcome _ s m hrace _ (by simp [Verdict.err])⟩
  | none =>
    cases hcase : scanMenc n s 0 s.engine.lat.elems with
    | error v => exact ⟨_, _, rfl, rfl, conclude_sameOutcome _ s m hrace v (scanMenc_error_err n s 0 _ v hcase)⟩
    | ok tss =>
      refine ⟨_, _, rfl, rfl, writeOut_sameOutcome _ s m hrace _ hs hm ?_⟩
      simp only [writeRange, mencOutput, List.length_append, List.length_replicate]
      omega

/-- MDEC over a memory that agrees on the packed bytes: likewise, with the read. -/
theorem execMdec_sameOutcome (n : Nat) (hs : s.mem.wf = true) (hm : m.wf = true)
    (hread : ∀ a, inRange (readRange (.mdec n) s.engine.lat) a = true → m.read a = s.mem.read a) :
    ∃ t u, execMdec n s = .next t ∧ execMdec n { s with mem := m } = .next u ∧ SameOutcome (.mdec n) s t u := by
  have hbytes := readMdec_withMem s m 0 (requiredBytes s.engine.lat.elems n) fun a hlo hhi =>
    hread a (decide_eq_true ⟨hlo, by simpa [readRange] using hhi⟩)
  simp only [execMdec, hbytes]
  cases hv : validateMdec s.engine.lat n with
  | some v => exact ⟨_, _, rfl, rfl, conclude_sameOutcome _ s m hrace v (validateMdec_err _ n v hv)⟩
  | none =>
    cases hcase : readMdec s 0 (requiredBytes s.engine.lat.elems n) with
    | error v => exact ⟨_, _, rfl, rfl, conclude_sameOutcome _ s m hrace v (readMdec_error_err s 0 _ v hcase)⟩
    | ok bytes => exact ⟨_, _, rfl, rfl, writeOut_sameOutcome _ s m hrace _ hs hm (mdecOutput_length _ _ _).ge⟩

end

/-- A command without memory accesses has an empty write footprint (20_memory R60). -/
theorem inRange_writeRange_false (i : Instr) (l : Latches) (a : Nat) (h : ¬usesMemory i) :
    inRange (writeRange i l) a = false := by
  cases i with
  | menc n => exact absurd (.inl ⟨n, rfl⟩) h
  | mdec n => exact absurd (.inr ⟨n, rfl⟩) h
  | senc _ | sdec _ | pack | unpack | reqb _ => simp [inRange, writeRange]

/-- Settles O40: a command without memory accesses carries the other memory along, and the matrix commands go through their
checks, their read and their last phase alike. -/
theorem commandsReadOnlyTheirFootprint : Obligations.CommandsReadOnlyTheirFootprint := by
  intro i s t m hs hm hfree hread hexec
  have hrace : s.engine.raced = false := (raced_false_iff s.engine).2 hfree
  by_cases hmem : usesMemory i
  · obtain ⟨n, rfl⟩ | ⟨n, rfl⟩ := hmem
    · obtain ⟨t', u, ht, hu, hsame⟩ := execMenc_sameOutcome s m hrace n hs hm hread
      cases hexec.symm.trans ht
      exact ⟨u, hu, hsame⟩
    · obtain ⟨t', u, ht, hu, hsame⟩ := execMdec_sameOutcome s m hrace n hs hm hread
      cases hexec.symm.trans ht
      exact ⟨u, hu, hsame⟩
  · refine ⟨{ t with mem := m }, by rw [exec_withMem i s m hmem, hexec, onMem], rfl, fun _ => rfl, fun _ a _ hin => ?_⟩
    rw [inRange_writeRange_false i _ a hmem] at hin
    cases hin

end Sys2Proof.Machine
end

section
/-! The invariant of the state (10_state R20, R25, R26, R31, R39, 60_exceptions R180, R181): every step keeps it, and the
reset state has it (O57, O58). -/

namespace Sys2Proof.Machine

/-! ### The parts of the invariant as propositions -/

/-- The (ERR, DETAIL) pair is a row of the table, and nothing but OVR is set while a command runs (10_state R26). -/
theorem legal_iff (st : Status) : st.legal = true ↔ (st.err.toNat, st.detail.toNat) ∈ statusCodes ∧
    (st.busy = true → st.done = false ∧ st.err = 0#4 ∧ st.detail = 0#8) := by
  cases hb : st.busy <;> simp [Status.legal, hb, and_assoc]

theorem toutValid_iff (s : State) :
    s.toutValid = true ↔ ∀ i, i < 64 → tritCodeAt s.toutLo s.toutHi i ≠ 0b10#2 := by
  simp [State.toutValid]

theorem engineLegal_busy (s : State) (h : s.status.busy = true) : s.engineLegal = true ↔
    s.engine.lat.cmd = s.cmd ∧ ∀ a ∈ s.engine.racedReads, inRange s.busyReadRange a = true := by
  simp [State.engineLegal, h]

theorem engineLegal_idle (s : State) (h : s.status.busy = false) :
    s.engineLegal = true ↔ s.engine = Engine.idle := by
  simp [State.engineLegal, h]

theorem inv_iff (s : State) : s.inv = true ↔
    s.status.legal = true ∧ s.toutValid = true ∧ s.engineLegal = true ∧ s.mem.wf = true := by
  simp [State.inv, and_assoc]

/-! ### What the parts depend on -/

theorem toutValid_congr {s t : State} (hlo : t.toutLo = s.toutLo) (hhi : t.toutHi = s.toutHi) :
    t.toutValid = s.toutValid := by
  rw [State.toutValid, State.toutValid, hlo, hhi]

/-- The footprint of the running command is a matter of BUSY and the latches. -/
theorem busyReadRange_congr {s t : State} (hbusy : t.status.busy = s.status.busy) (hlat : t.engine.lat = s.engine.lat) :
    t.busyReadRange = s.busyReadRange := by
  rw [State.busyReadRange, State.busyReadRange, hbusy, hlat]

theorem engineLegal_congr {s t : State} (hbusy : t.status.busy = s.status.busy) (hcmd : t.cmd = s.cmd)
    (hengine : t.engine = s.engine) : t.engineLegal = s.engineLegal := by
  rw [State.engineLegal, State.engineLegal, busyReadRange_congr hbusy (by rw [hengine]), hbusy, hcmd, hengine]

/-! ### STATUS stays legal -/

/-- Every verdict is a row of the table of 60_exceptions R180. -/
theorem verdict_mem_statusCodes (v : Verdict) : (v.err.toNat, v.detail.toNat) ∈ statusCodes := by
  rcases v with _ | ⟨_ | _, _⟩ | _ | ⟨_ | _, _⟩ | ⟨_ | _⟩ <;>
    simp [Verdict.err, Verdict.detail, argDetailCode, statusCodes]

theorem legal_finished (st : Status) (v : Verdict) : (st.finished v).legal = true :=
  (legal_iff _).2 ⟨verdict_mem_statusCodes v, nofun⟩

theorem legal_accepted (st : Status) : st.accepted.legal = true :=
  (legal_iff _).2 ⟨by simp [statusCodes], fun _ => ⟨rfl, rfl, rfl⟩⟩

theorem legal_overrun (st : Status) (h : st.legal = true) : st.overrun.legal = true := h

theorem legal_clear (st : Status) (w : Word) (h : st.legal = true) : (st.clear w).legal = true := by
  obtain ⟨hcodes, hbusy⟩ := (legal_iff st).1 h
  refine (legal_iff _).2 ⟨hcodes, fun hb => ?_⟩
  obtain ⟨hdone, herr, hdetail⟩ := hbusy hb
  exact ⟨by rw [clear_done, hdone, Bool.false_and], herr, hdetail⟩

/-! ### The engine's turn -/

/-- TOUT holds trits after a trit vector was written to it (30_encoding R87). -/
theorem toutValid_trits (s : State) (ts : List Trit) (hlo : s.toutLo = tritsLo ts) (hhi : s.toutHi = tritsHi ts) :
    s.toutValid = true := by
  refine (toutValid_iff s).2 fun i hi => ?_
  rw [hlo, hhi, tritCodeAt_trits ts i hi]
  split
  · exact code_valid _
  · decide

/-- Completion needs nothing of STATUS or the engine: it writes both. -/
theorem inv_finish (s : State) (v : Verdict) (htout : s.toutValid = true) (hmem : s.mem.wf = true) :
    (s.finish v).inv = true :=
  (inv_iff _).2 ⟨legal_finished _ v, htout, (engineLegal_idle _ rfl).2 rfl, hmem⟩

/-- Every completion keeps the invariant. -/
theorem Completion.inv {i : Instr} {s t : State} (h : Completion i s t) (hs : s.inv = true) : t.inv = true := by
  obtain ⟨-, htout, -, hmem⟩ := (inv_iff s).1 hs
  cases h with
  | verdict v => exact inv_finish s v htout hmem
  | trits _ ts => exact inv_finish _ _ (toutValid_trits _ ts rfl rfl) hmem
  | result _ r => exact inv_finish { s with result := r } _ htout hmem
  | memory _ m hwf v => exact inv_finish { s with mem := m } v htout (hwf hmem)

theorem runEngine_keeps_inv (s t : State) (hs : s.inv = true) (h : runEngine s = .next t) : t.inv = true := by
  obtain ⟨-, htout, -, hmem⟩ := (inv_iff s).1 hs
  cases hbusy : s.status.busy with
  | false =>
    cases (runEngine_idle s hbusy).symm.trans h
    exact hs
  | true =>
    cases hdec : decode s.engine.lat.cmd with
    | error why =>
      cases (runEngine_illegal s why hbusy hdec).symm.trans h
      exact inv_finish s _ htout hmem
    | ok i =>
      obtain ⟨t', hexec, hcompl⟩ := exec_completion i s
      cases ((runEngine_exec s i hbusy hdec).trans hexec).symm.trans h
      exact hcompl.inv hs

/-! ### The host's accesses, reset and the platform -/

theorem inv_accept (s : State) (w : Word) (hs : s.inv = true) : (s.accept w).inv = true := by
  obtain ⟨-, htout, -, hmem⟩ := (inv_iff s).1 hs
  refine (inv_iff _).2 ⟨legal_accepted _, htout, (engineLegal_busy _ rfl).2 ⟨rfl, ?_⟩, hmem⟩
  exact fun a ha => absurd ha List.not_mem_nil

theorem inv_writeReg (s : State) (off : Nat) (v : Word) (hs : s.inv = true) : (s.writeReg off v).inv = true := by
  obtain ⟨hlegal, htout, hengine, hmem⟩ := (inv_iff s).1 hs
  obtain ⟨heng, hcmd, hstatus⟩ | ⟨-, haccept⟩ := writeReg_cases s off v
  · obtain ⟨hframe, -, -, hlo, hhi, -, -⟩ := writeReg_frame s off v
    have hst : (s.writeReg off v).status.legal = true ∧ (s.writeReg off v).status.busy = s.status.busy := by
      obtain h | h | h := hstatus <;> rw [h]
      · exact ⟨hlegal, rfl⟩
      · exact ⟨legal_clear _ v hlegal, rfl⟩
      · exact ⟨legal_overrun _ hlegal, rfl⟩
    rw [inv_iff, toutValid_congr hlo hhi, engineLegal_congr hst.2 hcmd heng, hframe]
    exact ⟨hst.1, htout, hengine, hmem⟩
  · rw [haccept]
    exact inv_accept s v hs

theorem inv_hostWrite (s : State) (addr : Word) (size : Nat) (v : Word) (hs : s.inv = true) :
    (s.hostWrite addr size v).inv = true := by
  obtain ⟨r, h⟩ | ⟨off, h⟩ := hostWrite_cases addr size v s <;> rw [h]
  · exact hs
  · exact inv_writeReg s off v hs

/-- A race is recorded only in the read footprint, and only while a command runs (20_memory R72). -/
theorem engineLegal_hostStore (s : State) (addr : Word) (b : Byte) (h : s.engineLegal = true) :
    (s.hostStore addr b).engineLegal = true := by
  cases hbusy : s.status.busy with
  | false =>
    rw [engineLegal_idle s hbusy] at h
    rw [engineLegal_idle (s.hostStore addr b) hbusy, hostStore_engine, noteRace_idle _ s hbusy, h]
  | true =>
    obtain ⟨hcmd, hraced⟩ := (engineLegal_busy s hbusy).1 h
    have hrange : (s.hostStore addr b).busyReadRange = s.busyReadRange := busyReadRange_congr rfl rfl
    refine (engineLegal_busy (s.hostStore addr b) hbusy).2 ⟨hcmd, fun a ha => ?_⟩
    rw [hostStore_engine, State.noteRace] at ha
    rw [hrange]
    split at ha
    · obtain rfl | ha := List.mem_cons.1 ha
      · assumption
      · exact hraced a ha
    · exact hraced a ha

theorem inv_hostStore (s : State) (addr : Word) (b : Byte) (hs : s.inv = true) : (s.hostStore addr b).inv = true := by
  obtain ⟨hlegal, htout, hengine, hmem⟩ := (inv_iff s).1 hs
  exact (inv_iff _).2 ⟨hlegal, htout, engineLegal_hostStore s addr b hengine, write_wf _ _ _ hmem⟩

/-- Settles O58: STATUS is clear, TOUT holds the empty vector, the engine is idle and no byte is listed. -/
theorem resetHasInvariant : Obligations.ResetHasInvariant :=
  (inv_iff _).2 ⟨by decide, toutValid_trits _ [] rfl rfl, (engineLegal_idle _ rfl).2 rfl, rfl⟩

/-- Reset has the invariant of the reset state, over a memory that stays canonical (70_reset R221). -/
theorem inv_doReset (s : State) (hmem : s.mem.wf = true) : s.doReset.inv = true := by
  obtain ⟨hlegal, htout, hengine, -⟩ := (inv_iff _).1 resetHasInvariant
  exact (inv_iff _).2 ⟨hlegal, htout, hengine, resetMem_wf s hmem⟩

theorem inv_remap (s : State) (holes : List BusHole) (hs : s.inv = true) : (s.remap holes).inv = true := by
  obtain ⟨-, h⟩ | ⟨-, h⟩ := remap_cases holes s <;> rw [h] <;> exact hs

/-! ### The step -/

theorem deliver_keeps_inv (x : Input) (s t : State) (hs : s.inv = true) (h : deliver x s = .next t) :
    t.inv = true := by
  cases x with
  | regRead addr size =>
    obtain ⟨r, hr⟩ := hostRead_eq addr size s
    cases (congrArg Host.Outcome.next hr).symm.trans h
    exact hs
  | regWrite addr size v => cases h; exact inv_hostWrite s addr size v hs
  | memRead addr =>
    obtain ⟨r, d, hr⟩ := hostLoad_eq addr s
    cases (congrArg Host.Outcome.next hr).symm.trans h
    exact hs
  | memWrite addr b => cases h; exact inv_hostStore s addr b hs
  | engine => exact runEngine_keeps_inv s t hs h
  | reset =>
    obtain ⟨-, -, -, hmem⟩ := (inv_iff s).1 hs
    cases h
    exact inv_doReset s hmem
  | busMap holes => cases h; exact inv_remap s holes hs

/-- Settles O57: the step is the engine's turn or the delivery of the first input; the invariant does not look at the
inputs that are left. -/
theorem stepKeepsInvariant : Obligations.StepKeepsInvariant := by
  intro s t hs h
  cases hin : s.inputs with
  | nil => exact runEngine_keeps_inv s t hs ((step_runEngine s hin).symm.trans h)
  | cons x rest => exact deliver_keeps_inv x { s with inputs := rest } t hs ((step_deliver s x rest hin).symm.trans h)

end Sys2Proof.Machine
end

section
/-! Memory, its two ports and the footprints (20_memory R61, R64, R68 to R70, R72): O39, O42, O51 and O52. -/

namespace Sys2Proof.Machine

/-! ### The bytes of a float (20_memory R61) -/

theorem leWord_toNat (b0 b1 b2 b3 : Byte) : (leWord b0 b1 b2 b3).toNat =
    b0.toNat + 2 ^ 8 * b1.toNat + 2 ^ 16 * b2.toNat + 2 ^ 24 * b3.toNat := by
  simp only [leWord, toNat_append_eq_add]
  omega

/-- A pattern cut into its bytes and joined again is the pattern. -/
theorem leWord_extract (b : BitVec 32) :
    leWord (b.extractLsb' 0 8) (b.extractLsb' 8 8) (b.extractLsb' 16 8) (b.extractLsb' 24 8) = b := by
  refine BitVec.eq_of_toNat_eq ?_
  simp only [leWord_toNat, BitVec.extractLsb'_toNat, Nat.shiftRight_eq_div_pow]
  omega

/-- Settles O42: the bytes are those of `leBytes`, and the weighted sum is that of the word they join to. -/
theorem floatBytesAreLittleEndian : Obligations.FloatBytesAreLittleEndian := by
  intro b
  refine ⟨_, _, _, _, rfl, leWord_extract b, ?_⟩
  rw [← leWord_toNat, leWord_extract]

/-! ### The host's own accesses (20_memory R70, R72) -/

/-- Outside the running command's write footprint the host reads what memory holds. -/
theorem hostLoad_outside (addr : Word) (s : State) (h : inRange s.busyWriteRange addr.toNat = false) :
    s.hostLoad addr = { s with response := .byte (s.mem.read addr.toNat) } := by
  simp [State.hostLoad, h]

/-- Outside both footprints a host write changes its byte and leaves the engine's record of races. -/
theorem hostStore_outside (addr : Word) (b : Byte) (s : State) (hr : inRange s.busyReadRange addr.toNat = false)
    (hw : inRange s.busyWriteRange addr.toNat = false) :
    s.hostStore addr b = { s with mem := s.mem.write addr.toNat b, response := .stored } := by
  rw [State.hostStore, noteRace_outside _ s hr hw]

/-- Settles O52: the step delivers the access; the footprints do not look at the inputs that are left. -/
theorem hostMemoryAccessOutsideFootprints : Obligations.HostMemoryAccessOutsideFootprints := by
  intro s addr b rest hw
  refine ⟨fun hin => ?_, fun hr hin => ?_⟩
  · rw [step_deliver s _ rest hin]
    exact congrArg Host.Outcome.next (hostLoad_outside addr { s with inputs := rest } hw)
  · rw [step_deliver s _ rest hin]
    exact congrArg Host.Outcome.next (hostStore_outside addr b { s with inputs := rest } hr hw)

/-! ### No write outside the write footprint (20_memory R64) -/

/-- A scan that succeeds gives one list of `n` trits for each element (42_matrix R145). -/
theorem scanMenc_ok_lengths (n : Nat) (s : State) (e count : Nat) (tss : List (List Trit))
    (h : scanMenc n s e count = .ok tss) : tss.length = count ∧ ∀ ts ∈ tss, ts.length = n := by
  induction count generalizing e tss with
  | zero => cases h; exact ⟨rfl, nofun⟩
  | succ count ih =>
    rw [scanMenc] at h
    split at h
    · cases h
    · split at h
      · cases h
      · rename_i ts hts
        split at h
        · cases h
        · rename_i rest hrest
          obtain ⟨hlen, hall⟩ := ih (e + 1) rest hrest
          cases h
          exact ⟨congrArg (· + 1) hlen, List.forall_mem_cons.2 ⟨enc_length _ n ts hts, hall⟩⟩

/-- The capacity check: a MENC that passes its checks has room for the packed bytes (42_matrix R152). -/
theorem requiredBytes_le_cap (l : Latches) (n : Nat) (h : validateMenc l n = none) :
    requiredBytes l.elems n ≤ l.cap := by
  by_contra hcap
  simp only [validateMenc, if_pos (Nat.not_le.1 hcap)] at h
  repeat' split at h
  all_goals cases h

/-- MENC's output, packed bytes and zeros, is as long as its write footprint (42_matrix R156). -/
theorem mencOutput_length (n : Nat) (s : State) (tss : List (List Trit)) (hv : validateMenc s.engine.lat n = none)
    (hs : scanMenc n s 0 s.engine.lat.elems = .ok tss) : (mencOutput s.engine.lat tss).length = s.engine.lat.cap := by
  obtain ⟨hlen, hall⟩ := scanMenc_ok_lengths n s 0 _ tss hs
  have hcap := requiredBytes_le_cap _ n hv
  rw [requiredBytes, ← hlen, ← flatten_length tss n hall, ← packedBytes_length] at hcap
  rw [mencOutput, List.length_append, List.length_replicate]
  omega

/-- Completion over another memory keeps its bytes outside the write footprint, raced or not. -/
theorem read_conclude_outside (i : Instr) (v : Verdict) (s : State) (m : Memory) (a : Nat) (hm : m.wf = true)
    (ha : inRange (writeRange i s.engine.lat) a = false) :
    (({ s with mem := m } : State).conclude i v).mem.read a = m.read a :=
  read_settle_outside i { s with mem := m } a hm ha

/-- The last phase, with no more bytes than the write footprint has, writes nothing outside it, whether its writes fail or
not and whether the host raced it or not. -/
theorem read_writeOut_outside (i : Instr) (bytes : List Byte) (s : State) (a : Nat) (hwf : s.mem.wf = true)
    (hlen : bytes.length ≤ (writeRange i s.engine.lat).2) (ha : inRange (writeRange i s.engine.lat) a = false) :
    (s.writeOut i bytes).mem.read a = s.mem.read a := by
  obtain ⟨-, h⟩ | ⟨x, -, h⟩ := writeOut_cases i bytes s
  · rw [h, read_conclude_outside i _ s _ a (writeBytes_wf _ _ _ hwf) ha, read_writeBytes _ _ _ _ hwf, if_neg]
    have hout := of_decide_eq_false ha
    omega
  · rw [h, State.spoil, read_conclude_outside i _ s _ a (spoiledMem_wf i s hwf) ha]
    exact read_spoiledMem i s a hwf (.inl ha)

theorem execMenc_frame (n : Nat) (s t : State) (a : Nat) (hwf : s.mem.wf = true) (h : execMenc n s = .next t)
    (ha : inRange (writeRange (.menc n) s.engine.lat) a = false) : t.mem.read a = s.mem.read a := by
  obtain ⟨why, -, ht⟩ | ⟨v, -, -, ht⟩ | ⟨tss, hv, hs, ht⟩ := execMenc_cases n s <;> cases ht.symm.trans h
  · exact read_settle_outside _ s a hwf ha
  · exact read_settle_outside _ s a hwf ha
  · exact read_writeOut_outside _ _ s a hwf (mencOutput_length n s tss hv hs).le ha

theorem execMdec_frame (n : Nat) (s t : State) (a : Nat) (hwf : s.mem.wf = true) (h : execMdec n s = .next t)
    (ha : inRange (writeRange (.mdec n) s.engine.lat) a = false) : t.mem.read a = s.mem.read a := by
  obtain ⟨v, -, ht⟩ | ⟨v, -, -, ht⟩ | ⟨bytes, -, -, ht⟩ := execMdec_cases n s <;> cases ht.symm.trans h
  · exact read_settle_outside _ s a hwf ha
  · exact read_settle_outside _ s a hwf ha
  · exact read_writeOut_outside _ _ s a hwf (mdecOutput_length _ n bytes).le ha

/-- A command without memory accesses leaves memory as it is (20_memory R60). -/
theorem Completion.mem_eq {i : Instr} {s t : State} (h : Completion i s t) (hmem : ¬usesMemory i) : t.mem = s.mem := by
  cases h with
  | verdict | trits | result => rfl
  | memory h => exact absurd h hmem

/-- Settles O39: MENC and MDEC by their frames, the other commands because they leave memory as it is. -/
theorem engineWritesOnlyItsFootprint : Obligations.EngineWritesOnlyItsFootprint := by
  intro i s t a hwf hexec hout
  have ha : inRange (writeRange i s.engine.lat) a = false := decide_eq_false hout
  by_cases hmem : usesMemory i
  · obtain ⟨n, rfl⟩ | ⟨n, rfl⟩ := hmem
    · exact execMenc_frame n s t a hwf hexec ha
    · exact execMdec_frame n s t a hwf hexec ha
  · obtain ⟨t', ht, hcompl⟩ := exec_completion i s
    cases ht.symm.trans hexec
    rw [hcompl.mem_eq hmem]

/-! ### The checks of the matrix commands pass (42_matrix R142, R152, R162) -/

theorem checkDims_eq_none (l : Latches) (n : Nat) (h : l.dimsOk n) : checkDims l n = none := by
  obtain ⟨hr1, hr2, hc1, hc2, hn1, hn2⟩ := h
  have hr : dimOutOfRange l.rowCount = false := (dimOutOfRange_toInt l.rows).2 ⟨hr1, hr2⟩
  have hc : dimOutOfRange l.colCount = false := (dimOutOfRange_toInt l.cols).2 ⟨hc1, hc2⟩
  have hn : nOutOfRange n = false := decide_eq_false (by rw [Config.tpvMax]; omega)
  simp [checkDims, hr, hc, hn]

/-- On legal dimensions the engine's element count is the area. -/
theorem elems_eq_area (l : Latches) (n : Nat) (h : l.dimsOk n) : l.elems = l.area := by
  obtain ⟨-, hr, -, hc, -, -⟩ := h
  exact elems_eq l hr hc

theorem wraps_eq_false (a len : Nat) (h : a + len ≤ 2 ^ 64) : wraps a len = false :=
  decide_eq_false (by rw [Config.memSize]; omega)

theorem validateMenc_eq_none (l : Latches) (n : Nat) (h : l.mencOk n) : validateMenc l n = none := by
  obtain ⟨hsrc, hdst, hdims, hcap, halign, hws, hwd, hdisj⟩ := h
  have hroom : ¬l.cap < requiredBytes l.area n := by rw [requiredBytes]; omega
  have hoverlap : overlap l.src (4 * l.area) l.dst l.cap = false := decide_eq_false (by omega)
  simp [validateMenc, hsrc, hdst, checkDims_eq_none l n hdims, elems_eq_area l n hdims, hroom, halign,
    wraps_eq_false _ _ hws, wraps_eq_false _ _ hwd, hoverlap]

theorem validateMdec_eq_none (l : Latches) (n : Nat) (h : l.mdecOk n) : validateMdec l n = none := by
  obtain ⟨hsrc, hdst, hdims, halign, hws, hwd, hroom, hdisj⟩ := h
  have hlen : ¬l.len < requiredBytes l.area n := by rw [requiredBytes]; omega
  have hoverlap : overlap l.src (min l.len (requiredBytes l.area n)) l.dst (4 * l.area) = false :=
    decide_eq_false (by rw [requiredBytes]; omega)
  simp [validateMdec, hsrc, hdst, checkDims_eq_none l n hdims, elems_eq_area l n hdims, hlen, halign,
    wraps_eq_false _ _ hws, wraps_eq_false _ _ hwd, hoverlap]

/-! ### A failing access ends the command with BUS_ERROR (20_memory R68) -/

/-- Accesses made in order all complete, or there is a first one that fails. -/
theorem all_or_lowest_failure (ok : Nat → Bool) (count : Nat) :
    (∀ j, j < count → ok j = true) ∨ ∃ j, j < count ∧ (∀ k, k < j → ok k = true) ∧ ok j = false := by
  by_cases h : ∃ j, j < count ∧ ok j = false
  · obtain ⟨hlt, hbad⟩ := Nat.find_spec h
    exact .inr ⟨Nat.find h, hlt, fun k hk => Bool.eq_true_of_not_eq_false fun hf =>
      Nat.find_min h hk ⟨hk.trans hlt, hf⟩, hbad⟩
  · exact .inl fun j hj => Bool.eq_true_of_not_eq_false fun hf => h ⟨j, hj, hf⟩

/-- The code a command ends with is its verdict's, raced or not. -/
@[simp] theorem conclude_err (i : Instr) (v : Verdict) (s : State) : (s.conclude i v).status.err = v.err := rfl

theorem writeOut_err_of_failing (i : Instr) (bytes : List Byte) (s : State)
    (h : failingWrites s.platform i s.engine.lat ≠ []) : (s.writeOut i bytes).status.err = 3#4 := by
  obtain ⟨hok, -⟩ | ⟨x, -, ht⟩ := writeOut_cases i bytes s
  · exact absurd hok h
  · rw [ht, conclude_err, Verdict.err]

theorem failingWrites_ne_nil (p : Platform) (i : Instr) (l : Latches) (x : Nat) (hx : x ∈ writeAddrs i l)
    (hbad : busOK p x (writeSize i) .write = false) : failingWrites p i l ≠ [] :=
  List.ne_nil_of_mem (List.mem_filter.2 ⟨hx, by rw [hbad, Bool.not_false]⟩)

/-- A MENC that passes its checks and meets no NaN, and an access of which fails, ends with BUS_ERROR (42_matrix R155,
R158). -/
theorem execMenc_busError (n : Nat) (s : State) (hv : validateMenc s.engine.lat n = none)
    (hnum : ∀ e, e < s.engine.lat.elems → enc (s.portFloat (s.engine.lat.src + 4 * e)) n ≠ none)
    (hfail : (∃ e, e < s.engine.lat.elems ∧ busOK s.platform (s.engine.lat.src + 4 * e) .four .read = false) ∨
      ∃ j, j < s.engine.lat.cap ∧ busOK s.platform (s.engine.lat.dst + j) .one .write = false) :
    ∃ t, execMenc n s = .next t ∧ t.status.err = 3#4 := by
  obtain hok | ⟨e, he, hlow, hbad⟩ :=
    all_or_lowest_failure (fun e => busOK s.platform (s.engine.lat.src + 4 * e) .four .read) s.engine.lat.elems
  · have hscan := scanMenc_ok n s (fun e => (enc (s.portFloat (s.engine.lat.src + 4 * e)) n).getD []) 0 s.engine.lat.elems
      (by simpa using hok) fun e he => by
        obtain ⟨ts, hts⟩ := Option.ne_none_iff_exists'.1 (hnum e he)
        simp [hts]
    obtain ⟨e, he, hbad⟩ | ⟨j, hj, hbad⟩ := hfail
    · exact absurd (hok e he) (by simp [hbad])
    · refine ⟨_, by rw [execMenc, hv, hscan], writeOut_err_of_failing _ _ s ?_⟩
      exact failingWrites_ne_nil _ _ _ _ (List.mem_map.2 ⟨j, List.mem_range.2 hj, rfl⟩) hbad
  · have hscan := (scanMenc_error n s 0 e s.engine.lat.elems he fun k hk => by
      rw [Nat.zero_add]; exact ⟨hlow k hk, hnum k (hk.trans he)⟩).1 (by rw [Nat.zero_add]; exact hbad)
    exact ⟨_, by rw [execMenc, hv, hscan], rfl⟩

/-- An MDEC that passes its checks, and an access of which fails, ends with BUS_ERROR (42_matrix R164, R167). -/
theorem execMdec_busError (n : Nat) (s : State) (hv : validateMdec s.engine.lat n = none)
    (hfail : (∃ j, j < requiredBytes s.engine.lat.elems n ∧
        busOK s.platform (s.engine.lat.src + j) .one .read = false) ∨
      ∃ e, e < s.engine.lat.elems ∧ busOK s.platform (s.engine.lat.dst + 4 * e) .four .write = false) :
    ∃ t, execMdec n s = .next t ∧ t.status.err = 3#4 := by
  obtain hok | ⟨j, hj, hlow, hbad⟩ := all_or_lowest_failure
    (fun j => busOK s.platform (s.engine.lat.src + j) .one .read) (requiredBytes s.engine.lat.elems n)
  · have hread := readMdec_ok s 0 (requiredBytes s.engine.lat.elems n) (by simpa using hok)
    obtain ⟨j, hj, hbad⟩ | ⟨e, he, hbad⟩ := hfail
    · exact absurd (hok j hj) (by simp [hbad])
    · refine ⟨_, by rw [execMdec, hv, hread], writeOut_err_of_failing _ _ s ?_⟩
      exact failingWrites_ne_nil _ _ _ _ (List.mem_map.2 ⟨e, List.mem_range.2 he, rfl⟩) hbad
  · have hread := readMdec_error s 0 j _ hj (by simpa using hlow) (by simpa using hbad)
    exact ⟨_, by rw [execMdec, hv, hread], rfl⟩

/-! ### The register window on the memory port (20_memory R69) -/

/-- An access one byte of which is a byte of the window does not complete. -/
theorem busOK_window_byte (p : Platform) (addr a : Nat) (size : AccessSize) (dir : Dir)
    (hwin : p.tcodecBase.toNat ≤ a ∧ a < p.tcodecBase.toNat + 256) (hlo : addr ≤ a) (hhi : a < addr + size.bytes) :
    busOK p addr size dir = false :=
  busOK_window p addr size dir ((touchesWindow_iff p addr size).2 ⟨by omega, by omega⟩)

section
variable (base count : Nat) (p : Platform) (dir : Dir) (a : Nat)
  (hwin : p.tcodecBase.toNat ≤ a ∧ a < p.tcodecBase.toNat + 256)
include hwin

/-- A range accessed byte by byte that holds a byte of the window has a failing access. -/
theorem exists_failing_byte (h : inRange (base, count) a = true) :
    ∃ j, j < count ∧ busOK p (base + j) .one dir = false := by
  obtain ⟨hlo, hhi⟩ := of_decide_eq_true h
  simp only at hlo hhi
  exact ⟨a - base, by omega, busOK_window_byte p _ a .one dir hwin (by omega) (by simp only [AccessSize.bytes]; omega)⟩

/-- A range accessed in elements of four bytes that holds a byte of the window has a failing access. -/
theorem exists_failing_element (h : inRange (base, 4 * count) a = true) :
    ∃ e, e < count ∧ busOK p (base + 4 * e) .four dir = false := by
  obtain ⟨hlo, hhi⟩ := of_decide_eq_true h
  simp only at hlo hhi
  exact ⟨(a - base) / 4, by omega,
    busOK_window_byte p _ a .four dir hwin (by omega) (by simp only [AccessSize.bytes]; omega)⟩

end

/-- BusOK is fixed while a command runs (20_memory R68). -/
theorem remap_busy (s : State) (holes : List BusHole) (h : s.status.busy = true) : s.remap holes = s := by
  rw [State.remap, if_pos h]

/-- Settles O51: `remap` while BUSY = 1, the window's accesses, and for MENC and MDEC the access that holds the byte of the
window. -/
theorem busOkRules : Obligations.BusOkRules := by
  refine ⟨fun s holes rest hbusy hin => ?_, fun p addr size dir hlo hhi => ?_,
    fun n s a hlo hhi => ⟨fun hfree hok hnum hfoot => ?_, fun hok hfoot => ?_⟩⟩
  · rw [step_deliver s _ rest hin]
    exact congrArg Host.Outcome.next (remap_busy { s with inputs := rest } holes hbusy)
  · exact busOK_window p addr size dir ((touchesWindow_iff p addr size).2 ⟨hlo, hhi⟩)
  · have hv := validateMenc_eq_none _ n hok
    obtain ⟨hraced, -⟩ := hfree
    obtain ⟨-, -, hdims, -⟩ := hok
    rw [← elems_eq_area _ n hdims] at hnum hfoot
    refine execMenc_busError n s hv (fun e he hnone => ?_) ?_
    · rw [portFloat_raceFree s _ hraced, enc_none_iff] at hnone
      exact hnum e he hnone
    · exact hfoot.imp (exists_failing_element _ _ _ .read a ⟨hlo, hhi⟩)
        (exists_failing_byte _ _ _ .write a ⟨hlo, hhi⟩)
  · have hv := validateMdec_eq_none _ n hok
    obtain ⟨-, -, hdims, -⟩ := hok
    rw [← elems_eq_area _ n hdims] at hfoot
    exact execMdec_busError n s hv
      (hfoot.imp (exists_failing_byte _ _ _ .read a ⟨hlo, hhi⟩) (exists_failing_element _ _ _ .write a ⟨hlo, hhi⟩))

end Sys2Proof.Machine
end

section
/-! Command words (30_encoding R80 to R83, R89, R90): the decoder against the encoder, the illegal words and the masks, and
the engine's turn on the word in flight: O1 to O5, O53 and O54. -/

namespace Sys2Proof

/-! ### The fields of a word (R80) -/

theorem opField_lt (w : Word) : opField w < 16 := (w.extractLsb' 0 4).isLt

theorem nField_lt (w : Word) : nField w < 128 := (w.extractLsb' 4 7).isLt

/-- A word is its three fields, RSV above N above OP. -/
theorem fields_append (w : Word) :
    w = (w.extractLsb' 11 53 ++ w.extractLsb' 4 7 ++ w.extractLsb' 0 4 : BitVec (53 + 7 + 4)) := by
  refine BitVec.eq_of_toNat_eq ?_
  simp only [Machine.toNat_append_eq_add, BitVec.extractLsb'_toNat, Nat.shiftRight_eq_div_pow]
  omega

/-- The weights of the three fields. -/
theorem toNat_eq_fields (w : Word) : w.toNat = 2048 * rsvField w + 16 * nField w + opField w := by
  conv_lhs => rw [fields_append w]
  rw [Machine.toNat_append_eq_add, Machine.toNat_append_eq_add, rsvField, nField, opField]
  omega

/-- Words with the same fields are the same word. -/
theorem word_ext {w w' : Word} (hop : opField w = opField w') (hn : nField w = nField w')
    (hrsv : rsvField w = rsvField w') : w = w' := by
  refine BitVec.eq_of_toNat_eq ?_
  rw [toNat_eq_fields, toNat_eq_fields, hop, hn, hrsv]

/-! ### The codes of a command (R81) -/

theorem wellFormed_iff (i : Instr) : i.wellFormed = true ↔ nCode i < 128 := by
  cases i <;> simp [Instr.wellFormed, fitsN, nCode]

/-- Every operation code from 1 to 7 is a command's, with any N but for PACK and UNPACK, which have N = 0. -/
theorem exists_instr_of_codes (op n : Nat) (hlo : 1 ≤ op) (hhi : op < 8) (hn : op = 3 ∨ op = 4 → n = 0) :
    ∃ i, op = opCode i ∧ n = nCode i := by
  interval_cases op
  · exact ⟨.senc n, rfl, rfl⟩
  · exact ⟨.sdec n, rfl, rfl⟩
  · exact ⟨.pack, rfl, hn (.inl rfl)⟩
  · exact ⟨.unpack, rfl, hn (.inr rfl)⟩
  · exact ⟨.reqb n, rfl, rfl⟩
  · exact ⟨.menc n, rfl, rfl⟩
  · exact ⟨.mdec n, rfl, rfl⟩

/-- The three fields of the word of a well-formed command, over all commands. -/
theorem encode_fields (i : Instr) : Laws.EncodeFields.Statement i := by
  cases i with
  | senc n => exact Laws.EncodeFields.senc n
  | sdec n => exact Laws.EncodeFields.sdec n
  | pack => exact Laws.EncodeFields.pack
  | unpack => exact Laws.EncodeFields.unpack
  | reqb n => exact Laws.EncodeFields.reqb n
  | menc n => exact Laws.EncodeFields.menc n
  | mdec n => exact Laws.EncodeFields.mdec n

/-! ### What the decoder answers (R83) -/

theorem isReservedOp_iff (op : Nat) : isReservedOp op = true ↔ op = 0 ∨ 8 ≤ op := by simp [isReservedOp]

/-- A word whose fields are the codes of a command, with RSV 0, passes the three tests and selects that command. -/
theorem decode_of_codes (w : Word) (i : Instr) (hop : opField w = opCode i) (hn : nField w = nCode i)
    (hrsv : rsvField w = 0) : decode w = .ok i := by
  cases i <;> simp only [opCode, nCode] at hop hn <;> simp [decode, isReservedOp, hop, hn, hrsv]

/-- The three tests in their order, and a command with the word's codes when none of them refuses the word. -/
theorem decode_cases (w : Word) :
    ((opField w = 0 ∨ 8 ≤ opField w) ∧ decode w = .error .reservedOp) ∨
    ((1 ≤ opField w ∧ opField w < 8) ∧ rsvField w ≠ 0 ∧ decode w = .error .reservedBits) ∨
    ((opField w = 3 ∨ opField w = 4) ∧ rsvField w = 0 ∧ nField w ≠ 0 ∧ decode w = .error .nonzeroN) ∨
    ((1 ≤ opField w ∧ opField w < 8) ∧ rsvField w = 0 ∧ (opField w = 3 ∨ opField w = 4 → nField w = 0) ∧
      ∃ i, opField w = opCode i ∧ nField w = nCode i ∧ decode w = .ok i) := by
  by_cases hres : isReservedOp (opField w) = true
  · exact .inl ⟨(isReservedOp_iff _).1 hres, by rw [decode, if_pos hres]⟩
  have hop : 1 ≤ opField w ∧ opField w < 8 := by
    rw [isReservedOp_iff] at hres
    omega
  by_cases hrsv : rsvField w ≠ 0
  · exact .inr (.inl ⟨hop, hrsv, by rw [decode, if_neg hres, if_pos hrsv]⟩)
  by_cases hnz : (opField w = 3 ∨ opField w = 4) ∧ nField w ≠ 0
  · exact .inr (.inr (.inl ⟨hnz.1, not_not.1 hrsv, hnz.2, by rw [decode, if_neg hres, if_neg hrsv, if_pos hnz]⟩))
  have hn : opField w = 3 ∨ opField w = 4 → nField w = 0 := fun h => not_not.1 fun h0 => hnz ⟨h, h0⟩
  obtain ⟨i, hiop, hin⟩ := exists_instr_of_codes _ _ hop.1 hop.2 hn
  exact .inr (.inr (.inr ⟨hop, not_not.1 hrsv, hn, i, hiop, hin, decode_of_codes w i hiop hin (not_not.1 hrsv)⟩))

/-- A word decodes to a command exactly when its fields are the command's codes and RSV is 0. -/
theorem decode_eq_ok_iff (w : Word) (i : Instr) :
    decode w = .ok i ↔ opField w = opCode i ∧ nField w = nCode i ∧ rsvField w = 0 := by
  refine ⟨fun h => ?_, fun ⟨hop, hn, hrsv⟩ => decode_of_codes w i hop hn hrsv⟩
  obtain ⟨-, hj⟩ | ⟨-, -, hj⟩ | ⟨-, -, -, hj⟩ | ⟨-, hrsv, -, j, hop, hn, hj⟩ := decode_cases w <;>
    cases hj.symm.trans h
  exact ⟨hop, hn, hrsv⟩

/-! ### Decoder and encoder -/

/-- Settles O1: the word's fields are the command's codes. -/
theorem decodeEncodeRoundTrip : Obligations.DecodeEncodeRoundTrip := fun i hwf =>
  (decode_eq_ok_iff _ i).2 (encode_fields i hwf)

/-- Settles O2: the word and the encoding of its command have the same three fields. -/
theorem decodedWordEncodesBack : Obligations.DecodedWordEncodesBack := by
  intro w i h
  obtain ⟨hop, hn, hrsv⟩ := (decode_eq_ok_iff w i).1 h
  have hwf : i.wellFormed = true := (wellFormed_iff i).2 (hn ▸ nField_lt w)
  obtain ⟨hop', hn', hrsv'⟩ := encode_fields i hwf
  exact ⟨hwf, word_ext (hop'.trans hop.symm) (hn'.trans hn.symm) (hrsv'.trans hrsv.symm)⟩

/-- The words of a command are its own encoding. -/
theorem decode_eq_ok_iff_encode (w : Word) (i : Instr) : decode w = .ok i ↔ i.wellFormed = true ∧ encode i = w :=
  ⟨decodedWordEncodesBack w i, fun ⟨hwf, hw⟩ => hw ▸ decodeEncodeRoundTrip i hwf⟩

/-- Settles O5: each word is the encoding of the command that the spec names. -/
theorem specWordsDecode : Obligations.SpecWordsDecode := by
  simp only [Obligations.SpecWordsDecode, decode_eq_ok_iff_encode]
  decide

/-- Settles O3: the tests exclude each other, and the word's value gives its fields. -/
theorem illegalWordsInOrder : Obligations.IllegalWordsInOrder := by
  intro w
  have hw := toNat_eq_fields w
  have hop := opField_lt w
  have hn := nField_lt w
  have hmod : w.toNat % 16 = opField w := by omega
  rw [hmod]
  obtain ⟨htest, h⟩ | ⟨hleg, hrsv, h⟩ | ⟨htest, hrsv, hnz, h⟩ | ⟨hleg, hrsv, hz, i, -, -, h⟩ := decode_cases w <;>
    simp only [h, Except.error.injEq, reduceCtorEq, true_iff, false_iff] <;>
    omega

/-! ### Masks and matches (R89) -/

/-- A mask with a field of zeros drops that field. -/
theorem append_and_mask {a b c : Nat} (x : BitVec a) (y : BitVec b) (z : BitVec c) :
    (x ++ y ++ z) &&& (BitVec.allOnes a ++ 0#b ++ BitVec.allOnes c) = x ++ 0#b ++ z := by
  rw [BitVec.and_append, BitVec.and_append, BitVec.and_allOnes, BitVec.and_allOnes, BitVec.and_zero]

/-- The mask of the commands with an N field drops N and keeps OP and RSV. -/
theorem and_mask_toNat (w : Word) : (w &&& 0xFFFFFFFFFFFFF80F#64).toNat = 2048 * rsvField w + opField w := by
  have hmask : 0xFFFFFFFFFFFFF80F#64 = (BitVec.allOnes 53 ++ 0#7 ++ BitVec.allOnes 4 : BitVec (53 + 7 + 4)) := by decide
  conv_lhs => rw [fields_append w, hmask]
  refine (congrArg BitVec.toNat (append_and_mask _ _ _)).trans ?_
  rw [Machine.toNat_append_eq_add, Machine.toNat_append_eq_add, BitVec.toNat_ofNat, rsvField, opField]
  omega

theorem and_mask_eq_iff (w : Word) (op : Nat) (hop : op < 16) :
    w &&& 0xFFFFFFFFFFFFF80F#64 = BitVec.ofNat 64 op ↔ opField w = op ∧ rsvField w = 0 := by
  have hlt := opField_lt w
  rw [← BitVec.toNat_inj, and_mask_toNat, BitVec.toNat_ofNat, Nat.mod_eq_of_lt (by omega : op < 2 ^ 64)]
  omega

/-- A family of commands that carries its N in the word: its words are those of its mask and match. -/
theorem exists_decode_iff_mask (w : Word) (c : Nat → Instr) (op : Nat) (hop : op < 16)
    (hc : ∀ n, opCode (c n) = op ∧ nCode (c n) = n) :
    (∃ n, decode w = .ok (c n)) ↔ w &&& 0xFFFFFFFFFFFFF80F#64 = BitVec.ofNat 64 op := by
  simp only [decode_eq_ok_iff, hc, and_mask_eq_iff w op hop]
  exact ⟨fun ⟨_, h, _, hrsv⟩ => ⟨h, hrsv⟩, fun ⟨h, hrsv⟩ => ⟨_, h, rfl, hrsv⟩⟩

/-- PACK and UNPACK have one word each. -/
theorem decode_iff_full_mask (w : Word) (i : Instr) (hwf : i.wellFormed = true) :
    decode w = .ok i ↔ w &&& 0xFFFFFFFFFFFFFFFF#64 = encode i := by
  have hmask : w &&& 0xFFFFFFFFFFFFFFFF#64 = w := BitVec.and_allOnes
  rw [hmask, decode_eq_ok_iff_encode]
  exact ⟨fun h => h.2.symm, fun h => ⟨hwf, h.symm⟩⟩

/-- Settles O4: `decode` is a function, and each command's words are those of its codes. -/
theorem wordsMatchTheirMasks : Obligations.WordsMatchTheirMasks := by
  intro w
  refine ⟨?_, exists_decode_iff_mask w _ 1 (by omega) fun _ => ⟨rfl, rfl⟩,
    exists_decode_iff_mask w _ 2 (by omega) fun _ => ⟨rfl, rfl⟩, decode_iff_full_mask w .pack rfl,
    decode_iff_full_mask w .unpack rfl, exists_decode_iff_mask w _ 5 (by omega) fun _ => ⟨rfl, rfl⟩,
    exists_decode_iff_mask w _ 6 (by omega) fun _ => ⟨rfl, rfl⟩,
    exists_decode_iff_mask w _ 7 (by omega) fun _ => ⟨rfl, rfl⟩⟩
  cases decode w with
  | error why => exact .inl ⟨why, rfl⟩
  | ok i => exact .inr ⟨i, rfl, fun j hj => (Except.ok.inj hj).symm⟩

end Sys2Proof

namespace Sys2Proof.Machine

/-! ### The engine's turn on the word in flight (R83, R90) -/

/-- With no input left, or at an input `engine`, the step is the engine's turn. -/
theorem step_engineTurn (s : State) (rest : List Input) (h : s.inputs = [] ∧ rest = [] ∨ s.inputs = .engine :: rest) :
    step s = runEngine { s with inputs := rest } := by
  obtain ⟨hnil, rfl⟩ | hcons := h
  · rw [← hnil]
    exact step_runEngine s hnil
  · exact step_deliver s .engine rest hcons

/-- A command word that is placed runs in the next step, on what acceptance latched. -/
theorem step_withCommand (s : State) (w : Word) : step (s.withCommand w) = runEngine (s.accept w) := by
  refine step_engineTurn (s.withCommand w) s.inputs ?_
  cases hin : s.inputs with
  | nil => exact .inl ⟨by simp [State.withCommand, hin], rfl⟩
  | cons x rest => exact .inr (by simp [State.withCommand, hin])

/-- Settles O53: the step is the engine's turn, which runs the word in flight; a placed word is in flight. -/
theorem stepRunsTheDecodedCommand : Obligations.StepRunsTheDecodedCommand := by
  intro s i
  refine ⟨fun hbusy hd => ⟨fun hin => ?_, fun rest hin => ?_⟩, fun w hd => ?_⟩
  · rw [step_runEngine s hin, runEngine_exec s i hbusy hd]
  · rw [step_engineTurn s rest (.inr hin), runEngine_exec { s with inputs := rest } i hbusy hd]
  · rw [State.withFetchWord, step_withCommand, runEngine_exec (s.accept (BitVec.ofNat 64 (w % 2 ^ 64))) i rfl hd]

/-- Settles O54: the engine's turn finishes the word with its verdict. -/
theorem illegalWordCompletes : Obligations.IllegalWordCompletes := by
  intro s why rest hbusy hd hin
  rw [step_engineTurn s rest hin, runEngine_illegal { s with inputs := rest } why hbusy hd]
  cases why <;> rfl

end Sys2Proof.Machine
end

section
/-! What a command does depends on the latched copies of the argument registers, not on the registers (30_encoding R85,
70_reset R231): O41. -/

namespace Sys2Proof.Machine

/-- `s` with its argument registers changed by `g`, which is given them in the form that acceptance latches them. -/
def State.withArgs (g : Latches → Latches) (s : State) : State :=
  { s with
    arg := (g (s.latched s.cmd)).arg, tinLo := (g (s.latched s.cmd)).tinLo, tinHi := (g (s.latched s.cmd)).tinHi,
    rows := (g (s.latched s.cmd)).rows, cols := (g (s.latched s.cmd)).cols, srcAddr := (g (s.latched s.cmd)).srcAddr,
    srcLen := (g (s.latched s.cmd)).srcLen, dstAddr := (g (s.latched s.cmd)).dstAddr,
    dstLen := (g (s.latched s.cmd)).dstLen }

/-- A host write to an argument register is such a change. -/
theorem writeReg_eq_withArgs (off : Nat) (v : Word)
    (hoff : off ∈ [0x20, 0x28, 0x30, 0x50, 0x58, 0x60, 0x68, 0x70, 0x78]) :
    ∃ g, ∀ s : State, s.writeReg off v = s.withArgs g := by
  simp only [List.mem_cons, List.not_mem_nil, or_false] at hoff
  rcases hoff with rfl | rfl | rfl | rfl | rfl | rfl | rfl | rfl | rfl
  · exact ⟨fun l => { l with arg := v }, fun _ => rfl⟩
  · exact ⟨fun l => { l with tinLo := v }, fun _ => rfl⟩
  · exact ⟨fun l => { l with tinHi := v }, fun _ => rfl⟩
  · exact ⟨fun l => { l with rows := v }, fun _ => rfl⟩
  · exact ⟨fun l => { l with cols := v }, fun _ => rfl⟩
  · exact ⟨fun l => { l with srcAddr := v }, fun _ => rfl⟩
  · exact ⟨fun l => { l with srcLen := v }, fun _ => rfl⟩
  · exact ⟨fun l => { l with dstAddr := v }, fun _ => rfl⟩
  · exact ⟨fun l => { l with dstLen := v }, fun _ => rfl⟩

section
variable (g : Latches → Latches)

/-! ### The engine sees none of the changed registers (10_state R36) -/

@[simp] theorem withArgs_engine (s : State) : (s.withArgs g).engine = s.engine := rfl
@[simp] theorem withArgs_platform (s : State) : (s.withArgs g).platform = s.platform := rfl
@[simp] theorem withArgs_mem (s : State) : (s.withArgs g).mem = s.mem := rfl
@[simp] theorem withArgs_portByte (s : State) (a : Nat) : (s.withArgs g).portByte a = s.portByte a := rfl
@[simp] theorem withArgs_portFloat (s : State) (a : Nat) : (s.withArgs g).portFloat a = s.portFloat a := rfl
@[simp] theorem withArgs_racedMem (i : Instr) (s : State) : (s.withArgs g).racedMem i = s.racedMem i := rfl

theorem scanMenc_withArgs (n : Nat) (s : State) (e count : Nat) :
    scanMenc n (s.withArgs g) e count = scanMenc n s e count := by
  induction count generalizing e with
  | zero => rfl
  | succ count ih => simp only [scanMenc, withArgs_engine, withArgs_platform, withArgs_portFloat, ih]

theorem readMdec_withArgs (s : State) (j count : Nat) : readMdec (s.withArgs g) j count = readMdec s j count := by
  induction count generalizing j with
  | zero => rfl
  | succ count ih => simp only [readMdec, withArgs_engine, withArgs_platform, withArgs_portByte, ih]

/-! ### Completion keeps the change -/

theorem conclude_withArgs (i : Instr) (v : Verdict) (s : State) :
    (s.withArgs g).conclude i v = (s.conclude i v).withArgs g := by
  have hmem : ((s.withArgs g).settle i).mem = (s.settle i).mem := by
    rw [settle_mem, settle_mem, withArgs_engine, withArgs_racedMem, withArgs_mem]
  rw [conclude_eq, conclude_eq, hmem]
  rfl

theorem writeOut_withArgs (i : Instr) (bytes : List Byte) (s : State) :
    (s.withArgs g).writeOut i bytes = (s.writeOut i bytes).withArgs g := by
  simp only [State.writeOut, withArgs_engine, withArgs_platform, withArgs_mem]
  cases failingWrites s.platform i s.engine.lat with
  | nil => exact conclude_withArgs g i .ok { s with mem := s.mem.writeBytes (writeRange i s.engine.lat).1 bytes }
  | cons x xs => exact conclude_withArgs g i _ (s.spoil i)

/-- Every command does the same with the change made before it or after it. -/
theorem exec_withArgs (i : Instr) (s : State) :
    ∃ t, exec i s = .next t ∧ exec i (s.withArgs g) = .next (t.withArgs g) := by
  cases i with
  | senc n =>
    simp only [exec, execSenc, withArgs_engine]
    split
    · exact ⟨_, rfl, rfl⟩
    · cases enc s.engine.lat.float n <;> exact ⟨_, rfl, rfl⟩
  | sdec n =>
    simp only [exec, execSdec, withArgs_engine]
    split
    · exact ⟨_, rfl, rfl⟩
    · split
      · exact ⟨_, rfl, rfl⟩
      · cases s.engine.lat.trits n <;> exact ⟨_, rfl, rfl⟩
  | pack =>
    simp only [exec, execPack, withArgs_engine]
    cases s.engine.lat.trits Config.group <;> exact ⟨_, rfl, rfl⟩
  | unpack => exact ⟨_, rfl, rfl⟩
  | reqb n =>
    simp only [exec, execReqb, withArgs_engine]
    cases checkDims s.engine.lat n with
    | some why => exact ⟨_, rfl, rfl⟩
    | none =>
      by_cases hsize : 2 ^ 64 ≤ requiredBytes s.engine.lat.elems n
      · exact ⟨_, if_pos hsize, if_pos hsize⟩
      · exact ⟨_, if_neg hsize, if_neg hsize⟩
  | menc n =>
    simp only [exec, execMenc, withArgs_engine, scanMenc_withArgs, conclude_withArgs, writeOut_withArgs]
    cases validateMenc s.engine.lat n with
    | some why => exact ⟨_, rfl, rfl⟩
    | none => cases scanMenc n s 0 s.engine.lat.elems <;> exact ⟨_, rfl, rfl⟩
  | mdec n =>
    simp only [exec, execMdec, withArgs_engine, readMdec_withArgs, conclude_withArgs, writeOut_withArgs]
    cases validateMdec s.engine.lat n with
    | some v => exact ⟨_, rfl, rfl⟩
    | none => cases readMdec s 0 (requiredBytes s.engine.lat.elems n) <;> exact ⟨_, rfl, rfl⟩

end

/-- Settles O41: the write is a change of the argument registers. -/
theorem lateArgumentsDoNotMatter : Obligations.LateArgumentsDoNotMatter := by
  intro i s t off v hoff hexec
  obtain ⟨g, hg⟩ := writeReg_eq_withArgs off v hoff
  obtain ⟨t', ht, hlate⟩ := exec_withArgs g i s
  obtain rfl : t' = t := Host.Outcome.next.inj (ht.symm.trans hexec)
  rw [hg, hg]
  exact hlate

end Sys2Proof.Machine
end

section
/-! The scalar codec (40_scalar R100 to R104): balanced ternary and its digits, that `enc` loses no digit, and how far a value
or a trit vector moves when it is encoded and decoded (O9 to O13). -/

namespace Sys2Proof.Machine

/-! ### max_val and balanced ternary -/

theorem two_mul_maxVal_add_one (n : Nat) : 2 * maxVal n + 1 = 3 ^ n := by
  have hodd : 3 ^ n % 2 = 1 := Nat.odd_iff.mp (Odd.pow (by decide))
  rw [maxVal]
  generalize 3 ^ n = p at hodd ⊢
  omega

/-- Settles O10: 3^n is odd; the listed values and bounds are evaluated. -/
theorem maxValIsExact : Obligations.MaxValIsExact :=
  ⟨two_mul_maxVal_add_one, by decide⟩

theorem maxVal_succ (n : Nat) : maxVal (n + 1) = 3 * maxVal n + 1 := by
  have h := two_mul_maxVal_add_one n
  have hsucc := two_mul_maxVal_add_one (n + 1)
  rw [pow_succ] at hsucc
  omega

theorem maxVal_strictMono : StrictMono maxVal :=
  strictMono_nat_of_lt_succ fun n => by rw [maxVal_succ]; omega

theorem maxVal_pos {n : Nat} (h : 1 ≤ n) : 0 < maxVal n := maxVal_strictMono h

theorem natAbs_val_le_one (t : Trit) : t.val.natAbs ≤ 1 := by cases t <;> decide

/-- The recursion of `bt_value` is the weighted sum (40_scalar R100). -/
theorem btValue_eq_sum (ts : List Trit) :
    btValue ts = ∑ i ∈ Finset.range ts.length, (ts.getD i .zero).val * 3 ^ i := by
  induction ts with
  | nil => rfl
  | cons t ts ih =>
    rw [btValue, ih, List.length_cons, Finset.sum_range_succ', Finset.mul_sum, add_comm]
    simp only [List.getD_cons_succ, List.getD_cons_zero, pow_zero, mul_one, pow_succ]
    congr 1
    exact Finset.sum_congr rfl fun i _ => by ring

/-- `n` trits reach no further than `max_val(n)`. -/
theorem natAbs_btValue_le (ts : List Trit) : (btValue ts).natAbs ≤ maxVal ts.length := by
  induction ts with
  | nil => decide
  | cons t ts ih =>
    have ht := natAbs_val_le_one t
    rw [btValue, List.length_cons, maxVal_succ]
    omega

/-- Every integer is a trit plus a multiple of 3. -/
theorem exists_val_add_three_mul (k : Int) : ∃ (t : Trit) (q : Int), k = t.val + 3 * q := by
  obtain h | h | h : k % 3 = 0 ∨ k % 3 = 1 ∨ k % 3 = 2 := by omega
  · exact ⟨.zero, k / 3, by rw [Trit.val]; omega⟩
  · exact ⟨.pos, k / 3, by rw [Trit.val]; omega⟩
  · exact ⟨.neg, k / 3 + 1, by rw [Trit.val]; omega⟩

/-- Digit extraction takes off exactly that trit (40_scalar R102). -/
theorem btDigits_val_add (t : Trit) (q : Int) (n : Nat) : btDigits (t.val + 3 * q) (n + 1) = t :: btDigits q n := by
  rw [btDigits]
  cases t with
  | zero =>
    have hval : Trit.zero.val = 0 := rfl
    rw [if_pos (by omega), show (Trit.zero.val + 3 * q) / 3 = q by omega]
  | pos =>
    have hval : Trit.pos.val = 1 := rfl
    rw [if_neg (by omega), if_pos (by omega), show (Trit.pos.val + 3 * q - 1) / 3 = q by omega]
  | neg =>
    have hval : Trit.neg.val = -1 := rfl
    rw [if_neg (by omega), if_neg (by omega), show (Trit.neg.val + 3 * q + 1) / 3 = q by omega]

/-- A trit sequence is the digits of its value, so the value determines it. -/
theorem btDigits_btValue (ts : List Trit) : btDigits (btValue ts) ts.length = ts := by
  induction ts with
  | nil => rfl
  | cons t ts ih => rw [btValue, List.length_cons, btDigits_val_add, ih]

/-- The digits of an integer of the range have its value. -/
theorem btValue_btDigits (k : Int) (n : Nat) (h : k.natAbs ≤ maxVal n) : btValue (btDigits k n) = k := by
  induction n generalizing k with
  | zero =>
    have hzero : maxVal 0 = 0 := rfl
    rw [btDigits, btValue]
    omega
  | succ n ih =>
    obtain ⟨t, q, rfl⟩ := exists_val_add_three_mul k
    have ht := natAbs_val_le_one t
    rw [maxVal_succ] at h
    rw [btDigits_val_add, btValue, ih q (by omega)]

/-- Settles O9: `btDigits` and `btValue` invert each other on the range. -/
theorem balancedTernaryBijection : Obligations.BalancedTernaryBijection := by
  refine ⟨fun ts => ⟨btValue_eq_sum ts, natAbs_btValue_le ts⟩, fun n k hk => ?_⟩
  have hvalue := btValue_btDigits k n hk
  refine ⟨⟨btDigits k n, ⟨btDigits_length k n, hvalue⟩, ?_⟩, btDigits_length k n, hvalue⟩
  rintro ts ⟨rfl, rfl⟩
  exact (btDigits_btValue ts).symm

/-! ### The quantized integer is in range -/

theorem clamped_natAbs_le (x : F32) (v : Int) (h : x.clamped = some v) : v.natAbs ≤ f32Scale := by
  cases x with
  | nan => cases h
  | inf negative => cases negative <;> cases h <;> omega
  | finite z =>
    rw [F32.clamped, Option.some.injEq] at h
    omega

/-- Rounding keeps a bound that is an integer. -/
theorem natAbs_roundHaz_le (num : Int) (den m : Nat) (hd : 0 < den) (h : num.natAbs ≤ m * den) :
    (roundHaz num den).natAbs ≤ m := by
  obtain ⟨hnear, -⟩ := roundHaz_nearest num den hd
  have hprod : (roundHaz num den * den).natAbs = (roundHaz num den).natAbs * den := by
    rw [Int.natAbs_mul, Int.natAbs_natCast]
  refine Nat.le_of_lt_succ (Nat.lt_of_mul_lt_mul_right (a := den) ?_)
  rw [Nat.succ_mul]
  omega

theorem natAbs_quantize_le (b : BitVec 32) (n : Nat) (k : Int) (h : quantize b n = some k) : k.natAbs ≤ maxVal n := by
  obtain ⟨v, hv, rfl⟩ := Option.map_eq_some_iff.mp h
  refine natAbs_roundHaz_le _ _ _ f32Scale_pos ?_
  rw [Int.natAbs_mul, Int.natAbs_natCast, mul_comm]
  exact Nat.mul_le_mul_left _ (clamped_natAbs_le _ v hv)

/-- `enc` gives the digits of the quantized integer (40_scalar R103). -/
theorem enc_of_quantize (b : BitVec 32) (n : Nat) (k : Int) (h : quantize b n = some k) : enc b n = some (btDigits k n) := by
  rw [enc, h]; rfl

/-- Settles O11: every pattern but a NaN is quantized, within the range that `n` trits represent. -/
theorem encodedValueInRange : Obligations.EncodedValueInRange := by
  intro n b _ _ hnan
  obtain ⟨ts, henc⟩ := Option.ne_none_iff_exists'.mp (mt (enc_none_iff b n).mp hnan)
  obtain ⟨k, hk, rfl⟩ := Option.map_eq_some_iff.mp henc
  have hle := natAbs_quantize_le b n k hk
  exact ⟨k, _, hk, hle, henc, btDigits_length k n, btValue_btDigits k n hle⟩

/-! ### Encoding, then decoding -/

/-- Decoding the digits of an integer of the range rounds its quotient by `max_val(n)` (40_scalar R104). -/
theorem dec_btDigits (k : Int) (n : Nat) (h : k.natAbs ≤ maxVal n) : dec (btDigits k n) = rne32 k (maxVal n) := by
  rw [dec, btValue_btDigits k n h, btDigits_length]

/-- A value whose product with `m` is within 1/2 of `k` is within 1/(2m) of `k / m`. -/
theorem abs_sub_div_le_half (x m : ℚ) (k : Int) (hm : 0 < m) (h : |(k : ℚ) - x * m| ≤ 1 / 2) :
    |x - k / m| ≤ 1 / 2 / m := by
  rwa [sub_div' hm.ne', abs_div, abs_of_pos hm, div_le_div_iff_of_pos_right hm, abs_sub_comm]

/-- Settles O12: the value is itself a binary32 within 1/(2·max_val(n)) of the quotient that `dec` rounds, so the nearest
binary32 is as near, and the two distances add up. -/
theorem scalarRoundTripBound : Obligations.ScalarRoundTripBound := by
  intro n b z hn _ hz habs
  obtain ⟨-, -, -, hquant⟩ := quantizeRoundsTheClampedProduct b n
  obtain ⟨k, hk, -, -, hround⟩ := hquant z hz
  have hle := natAbs_quantize_le b n k hk
  have hpos : (0 : ℚ) < maxVal n := Nat.cast_pos.mpr (maxVal_pos hn)
  obtain ⟨-, z', hz', hnear⟩ := rne32IsNearestEven k (maxVal n) (maxVal_pos hn) hle
  refine ⟨btDigits k n, z', enc_of_quantize b n k hk, by rw [dec_btDigits k n hle, hz'], ?_⟩
  have hencode := abs_sub_div_le_half (scaledRat z) (maxVal n) k hpos (hround habs).1
  calc |scaledRat z' - scaledRat z|
      ≤ |scaledRat z' - k / maxVal n| + |k / maxVal n - scaledRat z| := abs_sub_le _ _ _
    _ ≤ 1 / 2 / maxVal n + 1 / 2 / maxVal n := by
      rw [abs_sub_comm (k / maxVal n : ℚ)]
      exact add_le_add ((hnear b z hz).1.trans hencode) hencode
    _ = 1 / (maxVal n : ℚ) := by rw [← add_div, add_halves]

/-! ### Decoding, then encoding -/

theorem f32Magnitude_one : f32Magnitude 0x3F800000 = f32Scale := by decide

/-- The distance to the next pattern: one unit of the exponent's last place, the same for a subnormal as for exponent 1. -/
theorem f32Magnitude_succ (p : Nat) : f32Magnitude (p + 1) = f32Magnitude p + 2 ^ (p / 2 ^ 23 - 1) := by
  unfold f32Magnitude
  by_cases hfrac : (p + 1) % 2 ^ 23 = 0
  · have hlast : p % 2 ^ 23 = 2 ^ 23 - 1 := by omega
    have hexp : (p + 1) / 2 ^ 23 = p / 2 ^ 23 + 1 := by omega
    rw [hfrac, hexp, hlast, if_neg (Nat.succ_ne_zero _), Nat.add_sub_cancel]
    split
    case isTrue h => rw [h]; norm_num
    case isFalse h =>
      obtain ⟨e, he⟩ := Nat.exists_eq_succ_of_ne_zero h
      rw [he, Nat.succ_eq_add_one, Nat.add_sub_cancel, pow_succ]
      omega
  · have hnext : (p + 1) % 2 ^ 23 = p % 2 ^ 23 + 1 := by omega
    have hexp : (p + 1) / 2 ^ 23 = p / 2 ^ 23 := by omega
    rw [hnext, hexp]
    split
    case isTrue h => rw [h, Nat.zero_sub, pow_zero]
    case isFalse h => ring

/-- Below 1.0 two neighbouring patterns are at most 2^-24 apart. -/
theorem f32Magnitude_succ_le (p : Nat) (h : p < 0x3F800000) : f32Magnitude (p + 1) ≤ f32Magnitude p + 2 ^ 125 := by
  rw [f32Magnitude_succ]
  exact Nat.add_le_add_left (Nat.pow_le_pow_right two_pos (by omega)) _

/-- RNE32 of a quotient of at most 1 is at most 1: 1.0 itself is a candidate. -/
theorem f32Magnitude_f32Nearest_le (num den : Nat) (hd : 0 < den) (h : num ≤ den) :
    f32Magnitude (f32Nearest num den) ≤ f32Scale := by
  obtain ⟨hnear, -⟩ := f32Nearest_asNear num den 0x3F800000 hd h
  rw [f32Magnitude_one] at hnear
  have hle : num * f32Scale ≤ f32Scale * den := by rw [mul_comm]; exact Nat.mul_le_mul_left _ h
  refine Nat.le_of_mul_le_mul_right (c := den) ?_ hd
  omega

/-- RNE32 of a quotient of at most 1 is within 2^-25 of it. -/
theorem f32Nearest_near (num den : Nat) (hd : 0 < den) (h : num ≤ den) :
    ((f32Magnitude (f32Nearest num den) * den : ℕ) - (num * f32Scale : ℕ) : ℤ).natAbs ≤ 2 ^ 124 * den := by
  obtain ⟨hbound, hlo, hhi⟩ := f32Floor_brackets num den hd h
  obtain ⟨hnear_lo, -⟩ := f32Nearest_asNear num den (f32Floor num den 31 0) hd h
  obtain ⟨hnear_hi, -⟩ := f32Nearest_asNear num den (f32Floor num den 31 0 + 1) hd h
  obtain heq | hlt := hbound.eq_or_lt
  · rw [heq, f32Magnitude_one] at hlo hnear_lo
    have hle : num * f32Scale ≤ f32Scale * den := by rw [mul_comm]; exact Nat.mul_le_mul_left _ h
    omega
  · have hgap := Nat.mul_le_mul_right den (f32Magnitude_succ_le _ hlt)
    rw [Nat.add_mul] at hgap
    omega

/-- `roundHaz` answers any integer that is less than 1/2 away from the quotient. -/
theorem roundHaz_eq_of_near (num k : Int) (den : Nat) (hd : 0 < den) (h : 2 * (k * den - num).natAbs < den) :
    roundHaz num den = k := by
  obtain ⟨hle, -⟩ := roundHaz_nearest num den hd
  by_contra hne
  have hfar : den ≤ ((roundHaz num den - k) * den).natAbs := by
    rw [Int.natAbs_mul, Int.natAbs_natCast]
    exact Nat.le_mul_of_pos_left _ (by omega)
  rw [Int.sub_mul] at hfar
  omega

/-- Multiplied by less than 2^24, the rounding error of the quotient stays under 1/2, so quantizing gives the integer back. -/
theorem quantize_rne32 (k : Int) (n : Nat) (hpos : 0 < maxVal n) (hsmall : maxVal n < 2 ^ 24)
    (hk : k.natAbs ≤ maxVal n) : quantize (rne32 k (maxVal n)) n = some k := by
  have hmag := f32Magnitude_f32Nearest_le k.natAbs (maxVal n) hpos hk
  have hclamp : (f32 (rne32 k (maxVal n))).clamped =
      some (withSign (k < 0) (f32Magnitude (f32Nearest k.natAbs (maxVal n)))) := by
    rw [f32_rne32 k _ hpos hk]
    apply clamped_of_mem_unit <;> unfold withSign <;> omega
  rw [quantize_of_clamped _ n _ hclamp, Option.some.injEq]
  apply roundHaz_eq_of_near _ _ _ f32Scale_pos
  have hnear := f32Nearest_near k.natAbs (maxVal n) hpos hk
  rw [← natAbs_withSign_sub_same (neg := k < 0) Iff.rfl, ← withSign_mul, ← withSign_mul, withSign_natAbs,
    ← Int.natAbs_neg, Int.neg_sub] at hnear
  have hscale : f32Scale = 2 ^ 149 := rfl
  omega

/-- RNE32 of `1 - 1/m` is not below 1.0 for m above 2^25: the pattern before 1.0 is 2^-24 away from it, 1.0 is 1/m away from
the quotient. -/
theorem f32Scale_le_f32Magnitude_f32Nearest (m : Nat) (hlarge : 2 ^ 25 < m) :
    f32Scale ≤ f32Magnitude (f32Nearest (m - 1) m) := by
  obtain ⟨hnear, -⟩ := f32Nearest_asNear (m - 1) m 0x3F800000 (by omega) (Nat.sub_le m 1)
  rw [f32Magnitude_one] at hnear
  by_contra hlt
  rw [← f32Magnitude_one, not_le, f32Magnitude_strictMono.lt_iff_lt] at hlt
  have hpred : f32Magnitude (f32Nearest (m - 1) m) ≤ f32Magnitude 0x3F7FFFFF :=
    f32Magnitude_strictMono.monotone (Nat.le_of_lt_succ hlt)
  have hgap : f32Magnitude 0x3F7FFFFF = 2 ^ 149 - 2 ^ 125 := by decide
  have hprod := Nat.mul_le_mul_right m (hgap ▸ hpred)
  rw [show f32Scale = 2 ^ 149 from rfl] at hnear
  omega

/-- With `max_val(n)` above 2^25 the integer below it decodes to 1.0, which is encoded as `max_val(n)`. -/
theorem quantize_rne32_pred (n : Nat) (hlarge : 2 ^ 25 < maxVal n) :
    quantize (rne32 ((maxVal n : Int) - 1) (maxVal n)) n = some (maxVal n : Int) := by
  have hpos : 0 < maxVal n := by omega
  have hle : ((maxVal n : Int) - 1).natAbs ≤ maxVal n := by omega
  have hmag := f32Scale_le_f32Magnitude_f32Nearest (maxVal n) hlarge
  apply quantize_of_clamped_one
  rw [f32_rne32 _ _ hpos hle, withSign, if_neg (by omega), show ((maxVal n : Int) - 1).natAbs = maxVal n - 1 by omega]
  exact clamped_of_one_le _ (Int.ofNat_le.mpr hmag)

/-- Trits of value `k` that come back with another value do not come back. -/
theorem enc_dec_btDigits_ne (k k' : Int) (n : Nat) (hk : k.natAbs ≤ maxVal n) (hne : k' ≠ k)
    (hquant : quantize (rne32 k (maxVal n)) n = some k') : enc (dec (btDigits k n)) n ≠ some (btDigits k n) := by
  rw [dec_btDigits k n hk, enc_of_quantize _ n k' hquant, ne_eq, Option.some.injEq]
  intro heq
  have hvalue := congrArg btValue heq
  rw [btValue_btDigits k' n (natAbs_quantize_le _ n k' hquant), btValue_btDigits k n hk] at hvalue
  exact hne hvalue

/-- The vector of V-S14: at n = 16 the rounding error reaches 1/2. -/
theorem quantize_rne32_sixteen : quantize (rne32 (-12014049) (maxVal 16)) 16 = some (-12014048) := by
  decide +kernel

/-- Settles O13: up to n = 15 `max_val(n)` is below 2^24, at n = 16 the named vector fails, and from n = 17 on `max_val(n)` is
above 2^25 and the vector of value `max_val(n) - 1` fails. -/
theorem tritRoundTripUpTo15 : Obligations.TritRoundTripUpTo15 := by
  have hsixteen : (-12014049 : Int).natAbs ≤ maxVal 16 := by decide
  refine ⟨fun n ts hn hn' hlen => ?_, ?_, fun n hn _ => ?_⟩
  · have hsmall : maxVal n ≤ maxVal 15 := maxVal_strictMono.monotone hn'
    have hfifteen : maxVal 15 < 2 ^ 24 := by decide
    have hk : (btValue ts).natAbs ≤ maxVal n := hlen ▸ natAbs_btValue_le ts
    rw [dec, hlen, enc_of_quantize _ n _ (quantize_rne32 _ n (maxVal_pos hn) (by omega) hk), ← hlen, btDigits_btValue]
  · rw [dec_btDigits _ 16 hsixteen]
    exact enc_of_quantize _ 16 _ quantize_rne32_sixteen
  · obtain rfl | hlt := hn.eq_or_lt
    · exact ⟨_, btDigits_length _ 16, enc_dec_btDigits_ne _ _ 16 hsixteen (by decide) quantize_rne32_sixteen⟩
    · have hlarge : maxVal 17 ≤ maxVal n := maxVal_strictMono.monotone hlt
      have hseventeen : 2 ^ 25 < maxVal 17 := by decide
      exact ⟨_, btDigits_length _ n,
        enc_dec_btDigits_ne _ _ n (by omega) (by omega) (quantize_rne32_pred n (by omega))⟩

end Sys2Proof.Machine
end

section
/-! The scalar commands and the codes of every command (40_scalar R103, R104, 41_packer R122, 60_exceptions R186): what SENC
and SDEC write, their errors and PACK's, and the (ERR, DETAIL) pairs a command can end with (O19 to O22, O38). -/

namespace Sys2Proof.Machine

/-! ### SENC (40_scalar R103) -/

theorem nOutOfRange_iff (n : Nat) : nOutOfRange n = true ↔ n < 1 ∨ 64 < n := decide_eq_true_iff

theorem nOutOfRange_eq_false (n : Nat) (hlo : 1 ≤ n) (hhi : n ≤ 64) : nOutOfRange n = false :=
  Bool.eq_false_iff.mpr fun h => by rw [nOutOfRange_iff] at h; omega

theorem execSenc_nRange (n : Nat) (s : State) (h : n < 1 ∨ 64 < n) :
    execSenc n s = .next (s.finish (.invalidArgument .nRange 0#64)) := by
  rw [execSenc, if_pos ((nOutOfRange_iff n).mpr h)]

theorem execSenc_nan (n : Nat) (s : State) (hlo : 1 ≤ n) (hhi : n ≤ 64) (h : f32 s.engine.lat.float = .nan) :
    execSenc n s = .next (s.finish (.invalidArgument .nanValue 0#64)) := by
  simp only [execSenc, nOutOfRange_eq_false n hlo hhi, (enc_none_iff _ n).mpr h, Bool.false_eq_true, if_false]

theorem execSenc_ok (n : Nat) (s : State) (ts : List Trit) (hlo : 1 ≤ n) (hhi : n ≤ 64)
    (h : enc s.engine.lat.float n = some ts) :
    execSenc n s = .next (({ s with toutLo := tritsLo ts, toutHi := tritsHi ts } : State).finish .ok) := by
  simp only [execSenc, nOutOfRange_eq_false n hlo hhi, h, Bool.false_eq_true, if_false]

/-- Settles O20: the two error branches of SENC. -/
theorem sencErrors : Obligations.SencErrors := fun n s =>
  ⟨execSenc_nRange n s, fun hlo hhi hnan => execSenc_nan n s hlo hhi hnan⟩

/-- Settles O19: TOUT holds the digits of the quantized integer, read back position by position. -/
theorem sencWritesTrits : Obligations.SencWritesTrits := by
  intro n s k hlo hhi hk
  refine ⟨_, _, execSenc_ok n s _ hlo hhi (enc_of_quantize _ n k hk), fun i hi => ?_⟩
  rw [tritCodeAt_trits _ i hi, btDigits_length, code_eq_ofInt]

/-! ### Trit operands (40_scalar R104, 41_packer R122) -/

/-- Trits that each stand in TIN as their two's complement are the operand that a command reads. -/
theorem trits_eq_ok (l : Latches) (ts : List Trit)
    (h : ∀ i, i < ts.length → tritCodeAt l.tinLo l.tinHi i = BitVec.ofInt 2 (ts.getD i .zero).val) :
    l.trits ts.length = .ok ts :=
  readTrits_ok _ _ ts 0 fun j hj => by rw [Nat.zero_add, h j hj, code_eq_ofInt]

/-- The lowest position with code 0b10 is the one reported. -/
theorem trits_eq_error (l : Latches) (j count : Nat) (hj : j < count) (hbad : tritCodeAt l.tinLo l.tinHi j = 0b10#2)
    (hlow : ∀ i, i < j → tritCodeAt l.tinLo l.tinHi i ≠ 0b10#2) : l.trits count = .error j := by
  have hread := readTrits_error l.tinLo l.tinHi 0 j count hj
  rw [Nat.zero_add] at hread
  exact hread hbad fun k hk => by rw [Nat.zero_add]; exact hlow k hk

theorem execSdec_nRange (n : Nat) (s : State) (h : 64 < n) :
    execSdec n s = .next (s.finish (.invalidArgument .nRange 0#64)) := if_pos h

theorem execSdec_zero (s : State) : execSdec 0 s = .next (({ s with result := 0#64 } : State).finish .ok) := rfl

theorem execSdec_badTrit (n j : Nat) (s : State) (hlo : 1 ≤ n) (hhi : n ≤ 64) (h : s.engine.lat.trits n = .error j) :
    execSdec n s = .next (s.finish (.invalidArgument .badTrit (BitVec.ofNat 64 j))) := by
  rw [execSdec, Config.tpvMax, if_neg (not_lt.mpr hhi), if_neg (by omega), h]

theorem execSdec_ok (n : Nat) (s : State) (ts : List Trit) (hlo : 1 ≤ n) (hhi : n ≤ 64)
    (h : s.engine.lat.trits n = .ok ts) :
    execSdec n s = .next (({ s with result := (dec ts).setWidth 64 } : State).finish .ok) := by
  rw [execSdec, Config.tpvMax, if_neg (not_lt.mpr hhi), if_neg (by omega), h]

theorem execPack_badTrit (j : Nat) (s : State) (h : s.engine.lat.trits 5 = .error j) :
    execPack s = .next (s.finish (.invalidArgument .badTrit (BitVec.ofNat 64 j))) := by
  rw [execPack, Config.group, h]

/-- Settles O21: n = 0 has its own branch; else the operand is `ts`, whose value is the sum. -/
theorem sdecWritesQuotient : Obligations.SdecWritesQuotient := by
  rintro n s ts hn rfl hcodes
  obtain hzero | hpos := ts.length.eq_zero_or_pos
  · rw [hzero]
    exact execSdec_zero s
  · rw [if_neg hpos.ne', ← btValue_eq_sum]
    exact execSdec_ok _ s ts hpos hn (trits_eq_ok _ ts hcodes)

/-- Settles O22: the trit operand of either command is the error at the lowest bad index. -/
theorem tritOperandErrors : Obligations.TritOperandErrors := by
  refine fun s => ⟨fun n hn => execSdec_nRange n s hn, fun j hbad hlow => ⟨fun n hn hj => ?_, fun hj => ?_⟩⟩
  · exact execSdec_badTrit n j s (by omega) hn (trits_eq_error _ j n hj hbad hlow)
  · exact execPack_badTrit j s (trits_eq_error _ j 5 hj hbad hlow)

/-! ### The codes a command can end with (60_exceptions R186) -/

/-- ERR and DETAIL of a verdict, as numbers. -/
def Verdict.codes (v : Verdict) : Nat × Nat := (v.err.toNat, v.detail.toNat)

theorem codes_invalidArgument (why : ArgDetail) (a : Word) :
    (Verdict.invalidArgument why a).codes = (1, (argDetailCode why).toNat) := rfl

/-- A detail of a list of details gives a pair of the list of their codes. -/
theorem codes_mem_of_detail {details : List ArgDetail} {pairs : List (Nat × Nat)} {why : ArgDetail} (a : Word)
    (hwhy : why ∈ details) (hrow : ∀ d ∈ details, (1, (argDetailCode d).toNat) ∈ pairs) :
    (Verdict.invalidArgument why a).codes ∈ pairs := hrow why hwhy

theorem codes_busError_read (a : Word) : (Verdict.busError .read a).codes = (3, 1) := rfl

/-- A command ends in a state whose ERR and DETAIL are among the pairs listed. -/
def EndsWith (o : Host.Outcome State Fault Refusal) (pairs : List (Nat × Nat)) : Prop :=
  ∃ t, o = .next t ∧ (t.status.err.toNat, t.status.detail.toNat) ∈ pairs

theorem EndsWith.codes_mem {o : Host.Outcome State Fault Refusal} {pairs : List (Nat × Nat)} {t : State}
    (hends : EndsWith o pairs) (h : o = .next t) : (t.status.err.toNat, t.status.detail.toNat) ∈ pairs := by
  obtain ⟨t', ht', hmem⟩ := hends
  obtain rfl : t' = t := Host.Outcome.next.inj (ht'.symm.trans h)
  exact hmem

section
variable {o : Host.Outcome State Fault Refusal} {s : State} {v : Verdict} {i : Instr} {pairs : List (Nat × Nat)}

theorem endsWith_of_finish (h : o = .next (s.finish v)) (hv : v.codes ∈ pairs) : EndsWith o pairs := ⟨_, h, hv⟩

/-- Races settled at completion change no code. -/
theorem endsWith_of_conclude (h : o = .next (s.conclude i v)) (hv : v.codes ∈ pairs) : EndsWith o pairs := ⟨_, h, hv⟩

/-- The last phase of a matrix command ends with OK or BUS_ERROR WRITE (42_matrix R158, R167). -/
theorem endsWith_of_writeOut {bytes : List Byte} (h : o = .next (s.writeOut i bytes)) (hok : (0, 0) ∈ pairs)
    (hbus : (3, 2) ∈ pairs) : EndsWith o pairs := by
  obtain ⟨-, ht⟩ | ⟨x, -, ht⟩ := writeOut_cases i bytes s
  · exact endsWith_of_conclude (h.trans (congrArg _ ht)) hok
  · exact endsWith_of_conclude (h.trans (congrArg _ ht)) hbus

end

/-! The details of the failing checks and reads. -/

theorem checkDims_mem (l : Latches) (n : Nat) (why : ArgDetail) (h : checkDims l n = some why) :
    why ∈ [.rowsRange, .colsRange, .nRange] := by
  unfold checkDims at h
  split_ifs at h <;> cases h <;> decide

theorem validateMenc_mem (l : Latches) (n : Nat) (why : ArgDetail) (h : validateMenc l n = some why) :
    why ∈ [.nullSrc, .nullDst, .rowsRange, .colsRange, .nRange, .capacity, .misaligned, .rangeWrap, .overlap] := by
  unfold validateMenc at h
  cases hdims : checkDims l n with
  | none =>
    simp only [hdims] at h
    split_ifs at h <;> cases h <;> decide
  | some why' =>
    simp only [hdims] at h
    split_ifs at h <;> cases h
    · decide
    · decide
    · exact List.subset_def.mp (by decide) (checkDims_mem l n _ hdims)

theorem validateMdec_codes (l : Latches) (n : Nat) (v : Verdict) (h : validateMdec l n = some v) :
    v.codes ∈ [(1, 1), (1, 2), (1, 3), (1, 4), (1, 5), (1, 7), (1, 8), (1, 9), (2, 0)] := by
  unfold validateMdec at h
  cases hdims : checkDims l n with
  | none =>
    simp only [hdims] at h
    split_ifs at h <;> cases h <;> decide
  | some why' =>
    simp only [hdims] at h
    split_ifs at h <;> cases h
    · decide
    · decide
    · exact codes_mem_of_detail _ (checkDims_mem l n _ hdims) (by decide)

theorem scanMenc_error_codes (n : Nat) (s : State) (e count : Nat) (v : Verdict) (h : scanMenc n s e count = .error v) :
    v.codes ∈ [(1, 11), (3, 1)] := by
  induction count generalizing e with
  | zero => cases h
  | succ count ih =>
    rw [scanMenc] at h
    split at h
    case isTrue => cases h; rw [codes_busError_read]; decide
    case isFalse =>
      split at h
      case h_1 => cases h; rw [codes_invalidArgument]; decide
      case h_2 =>
        split at h
        case h_1 hrest => cases h; exact ih (e + 1) hrest
        case h_2 => cases h

theorem readMdec_error_codes (s : State) (j count : Nat) (v : Verdict) (h : readMdec s j count = .error v) :
    v.codes = (3, 1) := by
  induction count generalizing j with
  | zero => cases h
  | succ count ih =>
    rw [readMdec] at h
    split at h
    case isTrue => cases h; rw [codes_busError_read]
    case isFalse =>
      split at h
      case h_1 hrest => cases h; exact ih (j + 1) hrest
      case h_2 => cases h

/-! One row of the table for each command. -/

theorem execSenc_endsWith (n : Nat) (s : State) : EndsWith (execSenc n s) [(0, 0), (1, 5), (1, 11)] := by
  obtain ⟨-, h⟩ | ⟨-, -, h⟩ | ⟨ts, -, -, h⟩ := execSenc_cases n s
  · exact endsWith_of_finish h (by decide)
  · exact endsWith_of_finish h (by decide)
  · exact endsWith_of_finish h (by decide)

theorem execSdec_endsWith (n : Nat) (s : State) : EndsWith (execSdec n s) [(0, 0), (1, 5), (1, 10)] := by
  obtain ⟨-, h⟩ | ⟨-, h⟩ | ⟨j, -, -, -, h⟩ | ⟨ts, -, -, -, h⟩ := execSdec_cases n s
  · exact endsWith_of_finish h (by decide)
  · exact endsWith_of_finish h (by decide)
  · exact endsWith_of_finish h (by rw [codes_invalidArgument]; decide)
  · exact endsWith_of_finish h (by decide)

theorem execPack_endsWith (s : State) : EndsWith (execPack s) [(0, 0), (1, 10)] := by
  obtain ⟨j, -, h⟩ | ⟨ts, -, h⟩ := execPack_cases s
  · exact endsWith_of_finish h (by rw [codes_invalidArgument]; decide)
  · exact endsWith_of_finish h (by decide)

theorem execUnpack_endsWith (s : State) : EndsWith (execUnpack s) [(0, 0)] :=
  endsWith_of_finish (v := .ok) rfl (by decide)

theorem execReqb_endsWith (n : Nat) (s : State) : EndsWith (execReqb n s) [(0, 0), (1, 3), (1, 4), (1, 5), (1, 12)] := by
  obtain ⟨why, hdims, h⟩ | ⟨-, -, h⟩ | ⟨-, -, h⟩ := execReqb_cases n s
  · exact endsWith_of_finish h (codes_mem_of_detail _ (checkDims_mem _ n why hdims) (by decide))
  · exact endsWith_of_finish h (by decide)
  · exact endsWith_of_finish h (by decide)

theorem execMenc_endsWith (n : Nat) (s : State) : EndsWith (execMenc n s)
    [(0, 0), (1, 1), (1, 2), (1, 3), (1, 4), (1, 5), (1, 6), (1, 7), (1, 8), (1, 9), (1, 11), (3, 1), (3, 2)] := by
  obtain ⟨why, hcheck, h⟩ | ⟨v, -, hscan, h⟩ | ⟨tss, -, -, h⟩ := execMenc_cases n s
  · exact endsWith_of_conclude h (codes_mem_of_detail _ (validateMenc_mem _ n why hcheck) (by decide))
  · exact endsWith_of_conclude h (List.subset_def.mp (by decide) (scanMenc_error_codes n s _ _ v hscan))
  · exact endsWith_of_writeOut h (by decide) (by decide)

theorem execMdec_endsWith (n : Nat) (s : State) : EndsWith (execMdec n s)
    [(0, 0), (1, 1), (1, 2), (1, 3), (1, 4), (1, 5), (1, 7), (1, 8), (1, 9), (2, 0), (3, 1), (3, 2)] := by
  obtain ⟨v, hcheck, h⟩ | ⟨v, -, hread, h⟩ | ⟨bytes, -, -, h⟩ := execMdec_cases n s
  · exact endsWith_of_conclude h (List.subset_def.mp (by decide) (validateMdec_codes _ n v hcheck))
  · exact endsWith_of_conclude h (by rw [readMdec_error_codes s _ _ v hread]; decide)
  · exact endsWith_of_writeOut h (by decide) (by decide)

/-- Settles O38: each command by its own row. -/
theorem commandsEndWithTheirCodes : Obligations.CommandsEndWithTheirCodes := by
  intro i s t hexec
  cases i with
  | senc n => exact (execSenc_endsWith n s).codes_mem hexec
  | sdec n => exact (execSdec_endsWith n s).codes_mem hexec
  | pack => exact (execPack_endsWith s).codes_mem hexec
  | unpack => exact (execUnpack_endsWith s).codes_mem hexec
  | reqb n => exact (execReqb_endsWith n s).codes_mem hexec
  | menc n => exact (execMenc_endsWith n s).codes_mem hexec
  | mdec n => exact (execMdec_endsWith n s).codes_mem hexec

end Sys2Proof.Machine
end

section
/-! The byte packer (41_packer R120 to R126): packing and unpacking as base-3 numerals of any length, which invert each other
as `bt_value` and `bt_digits` do, and what PACK and UNPACK write (O14, O15, O23, O24). -/

namespace Sys2Proof.Machine

/-! ### Base-3 numerals (00_scope R15) -/

theorem digit_ofDigit (d : Nat) (h : d < 3) : (Trit.ofDigit d).digit = d := by
  match d, h with
  | 0, _ => rfl
  | 1, _ => rfl
  | 2, _ => rfl

/-- The trits of the lowest `n` base-3 digits of a number, least significant first: `unpack5` is the case of five digits of
a byte (`unpack5_eq_tritDigits`). -/
def tritDigits (k n : Nat) : List Trit := (List.range n).map fun j => Trit.ofDigit (k / 3 ^ j % 3)

/-- The lowest digit comes first; the others are the digits of the quotient. -/
theorem tritDigits_succ (k n : Nat) : tritDigits k (n + 1) = Trit.ofDigit (k % 3) :: tritDigits (k / 3) n := by
  simp [tritDigits, List.range_succ_eq_map, pow_succ', Nat.div_div_eq_div_mul]

theorem tritDigits_length (k n : Nat) : (tritDigits k n).length = n := by simp [tritDigits]

theorem getD_tritDigits (k n i : Nat) (hi : i < n) : (tritDigits k n).getD i .zero = Trit.ofDigit (k / 3 ^ i % 3) := by
  simp [tritDigits, List.getD_eq_getElem?_getD, hi]

/-- The lowest `n` digits of a number are worth its residue modulo `3^n`. -/
theorem digitSum_tritDigits (k n : Nat) : digitSum (tritDigits k n) = k % 3 ^ n := by
  induction n generalizing k with
  | zero => rw [pow_zero, Nat.mod_one]; rfl
  | succ n ih =>
    rw [tritDigits_succ, digitSum, ih, digit_ofDigit _ (Nat.mod_lt k (by decide)), pow_succ', Nat.mod_mul]

/-- A trit sequence is the digits of its digit sum, so the digit sum determines it. -/
theorem tritDigits_digitSum (ts : List Trit) : tritDigits (digitSum ts) ts.length = ts := by
  induction ts with
  | nil => rfl
  | cons t ts ih =>
    have hdigit := digit_lt_three t
    have hmod : digitSum (t :: ts) % 3 = t.digit := by rw [digitSum]; omega
    have hdiv : digitSum (t :: ts) / 3 = digitSum ts := by rw [digitSum]; omega
    rw [List.length_cons, tritDigits_succ, hmod, hdiv, ih, ofDigit_digit]

theorem digitSum_lt {n : Nat} (ts : List Trit) (h : ts.length = n) : digitSum ts < 3 ^ n := by
  have hmod := digitSum_tritDigits (digitSum ts) ts.length
  rw [tritDigits_digitSum, h] at hmod
  exact hmod ▸ Nat.mod_lt _ (by positivity)

/-- The lowest `n` digits do not see multiples of `3^n`. -/
theorem tritDigits_mod (k n : Nat) : tritDigits (k % 3 ^ n) n = tritDigits k n := by
  have h := tritDigits_digitSum (tritDigits k n)
  rwa [digitSum_tritDigits, tritDigits_length] at h

/-- The recursion of the digit sum is the weighted sum of the digits (41_packer R120). -/
theorem digitSum_eq_sum (ts : List Trit) :
    digitSum ts = ∑ j ∈ Finset.range ts.length, (ts.getD j .zero).digit * 3 ^ j := by
  induction ts with
  | nil => rfl
  | cons t ts ih =>
    rw [digitSum, ih, List.length_cons, Finset.sum_range_succ', Finset.mul_sum, add_comm]
    simp only [List.getD_cons_succ, List.getD_cons_zero, pow_zero, mul_one, pow_succ', mul_left_comm]

/-! ### Packed bytes (41_packer R120, R121) -/

theorem unpack5_eq_tritDigits (b : Byte) : unpack5 b = tritDigits b.toNat 5 := rfl

/-- Five trits fit a byte: `3^5 = 243 ≤ 256` (41_packer R125). -/
theorem pack5_toNat (ts : List Trit) (h : ts.length = 5) : (pack5 ts).toNat = digitSum ts := by
  have hlt := digitSum_lt ts h
  rw [pack5, BitVec.toNat_ofNat, Nat.mod_eq_of_lt (by omega)]

/-- Settles O14: the packed byte is the digit sum, whose digits are the trits. -/
theorem unpackInvertsPack : Obligations.UnpackInvertsPack := by
  intro ts h
  rw [unpack5_eq_tritDigits, pack5_toNat ts h, ← h, tritDigits_digitSum]

/-- Unpacking keeps the lowest five base-3 digits of a byte, so packing again gives it back modulo `3^5` (41_packer R126). -/
theorem pack5_unpack5_toNat (b : Byte) : (pack5 (unpack5 b)).toNat = b.toNat % 3 ^ 5 := by
  rw [pack5_toNat _ (unpack5_length b), unpack5_eq_tritDigits, digitSum_tritDigits]

/-- Bytes that agree modulo `3^5` unpack alike (41_packer R126). -/
theorem unpack5_congr {a b : Byte} (h : a.toNat % 3 ^ 5 = b.toNat % 3 ^ 5) : unpack5 a = unpack5 b := by
  rw [unpack5_eq_tritDigits, unpack5_eq_tritDigits, ← tritDigits_mod a.toNat, h, tritDigits_mod]

/-- Settles O15: a digit sum of five trits is below 243, and a byte counts modulo 243. -/
theorem packedBytesAndOthers : Obligations.PackedBytesAndOthers := by
  refine ⟨fun ts h => ⟨?_, pack5_toNat ts h⟩, fun b => ⟨fun hlow => ?_, fun hhigh => ?_⟩⟩
  · have hlt := digitSum_lt ts h
    omega
  · exact BitVec.eq_of_toNat_eq (by rw [pack5_unpack5_toNat]; omega)
  · refine unpack5_congr ?_
    have hsub : (b - 243#8).toNat = b.toNat - 243 := BitVec.toNat_sub_of_le hhigh
    omega

/-! ### PACK (41_packer R122) -/

/-- RESULT after PACK is the sum that R120 writes, of `t[j] + 1` weighted by `3^j`. -/
theorem pack5_setWidth (ts : List Trit) (h : ts.length = 5) :
    (pack5 ts).setWidth 64 = BitVec.ofNat 64 (∑ j ∈ Finset.range 5, ((ts.getD j .zero).val + 1) * 3 ^ j).toNat := by
  have hsum : ∑ j ∈ Finset.range 5, ((ts.getD j .zero).val + 1) * 3 ^ j = (digitSum ts : Int) := by
    rw [digitSum_eq_sum, h]
    push_cast
    simp only [digit_eq_val]
  rw [hsum, Int.toNat_natCast, ← pack5_toNat ts h, BitVec.ofNat_toNat]

theorem execPack_ok (s : State) (ts : List Trit) (h : s.engine.lat.trits 5 = .ok ts) :
    execPack s = .next (({ s with result := (pack5 ts).setWidth 64 } : State).finish .ok) := by
  rw [execPack, Config.group, h]

/-- Settles O23: the operand is `ts`, whose packed byte is the sum. -/
theorem packWritesByte : Obligations.PackWritesByte := by
  intro s ts hlen hcodes
  rw [← pack5_setWidth ts hlen]
  refine execPack_ok s ts ?_
  rw [← hlen] at hcodes ⊢
  exact trits_eq_ok _ ts hcodes

/-! ### UNPACK (41_packer R123) -/

theorem byte_toNat (l : Latches) : l.byte.toNat = l.arg.toNat % 256 := by
  rw [Latches.byte, BitVec.extractLsb'_toNat, Nat.shiftRight_zero]

/-- Settles O24: TOUT holds the unpacked digits, read back position by position. -/
theorem unpackWritesTrits : Obligations.UnpackWritesTrits := by
  refine fun s => ⟨_, _, rfl, fun i hi => ?_⟩
  rw [tritCodeAt_trits _ i hi, unpack5_length]
  refine ite_congr rfl (fun hlow => ?_) fun _ => rfl
  rw [unpack5_eq_tritDigits, getD_tritDigits _ _ _ hlow, ofDigit_code _ (Nat.mod_lt _ (by decide)), byte_toNat]

end Sys2Proof.Machine
end

section
/-! The trit stream and the packed buffer (42_matrix R140, R145, R146, R165): the size, what a position of the stream and of
the unpacked buffer holds, and that the source's two streaming loops compute the closed formulas (O16 to O18). -/

namespace Sys2Proof.Machine

/-! ### The packed size (R140) -/

/-- The packed size is the least number of bytes that hold all trits. -/
theorem requiredBytes_le_iff (elems n k : Nat) : requiredBytes elems n ≤ k ↔ elems * n ≤ 5 * k := by
  rw [requiredBytes]
  omega

/-- Settles O16: the least count holds all trits, and one less does not. -/
theorem requiredBytesIsMinimal : Obligations.RequiredBytesIsMinimal := by
  refine ⟨fun elems n => ⟨(requiredBytes_le_iff _ _ _).mp le_rfl, fun hpos => ?_⟩, by decide⟩
  have hle := (requiredBytes_le_iff elems n (requiredBytes elems n - 1)).mpr
  have hone := (requiredBytes_le_iff elems n 0).mp
  omega

/-! ### Groups of five trits (R146) -/

/-- The first `k` packed bytes of a stream. -/
def packGroups (ts : List Trit) (k : Nat) : List Byte := (List.range k).map fun j => pack5 ((ts.drop (5 * j)).take 5)

theorem packedBytes_eq_packGroups (elems : List (List Trit)) :
    packedBytes elems = packGroups (tritStream elems) ((elems.flatten.length + 4) / 5) := by
  rw [packedBytes, tritStream_length, Nat.mul_div_cancel_left _ (by decide), packGroups]

/-- Groups that lie within the first part of a stream do not see the rest. -/
theorem packGroups_append (ts us : List Trit) (k : Nat) (h : 5 * k ≤ ts.length) :
    packGroups (ts ++ us) k = packGroups ts k := by
  refine List.map_congr_left fun j hj => ?_
  have hjk := List.mem_range.mp hj
  rw [List.drop_append_of_le_length (by omega), List.take_append_of_le_length (by rw [List.length_drop]; omega)]

/-- The group that begins after `k` whole groups is the next byte. -/
theorem packGroups_succ (ts us : List Trit) (k : Nat) (h : 5 * k ≤ ts.length)
    (hlen : (ts.drop (5 * k) ++ us).length = 5) :
    packGroups (ts ++ us) (k + 1) = packGroups ts k ++ [pack5 (ts.drop (5 * k) ++ us)] := by
  rw [packGroups, List.range_succ, List.map_append, ← packGroups, packGroups_append ts us k h, List.map_singleton,
    List.drop_append_of_le_length h, List.take_of_length_le hlen.le]

/-! ### The encode loop (R151) -/

/-- The loop's state after the trits `ts`: the whole groups are packed, the trits left over wait in the accumulator. -/
def EncLoop.after (ts : List Trit) : EncLoop :=
  { acc := ts.drop (5 * (ts.length / 5)), out := packGroups ts (ts.length / 5) }

theorem encLoopPush_after (ts : List Trit) (t : Trit) : encLoopPush (EncLoop.after ts) t = EncLoop.after (ts ++ [t]) := by
  have hle : 5 * (ts.length / 5) ≤ ts.length := Nat.mul_div_le _ _
  have hacc : (ts.drop (5 * (ts.length / 5)) ++ [t]).length = ts.length % 5 + 1 := by
    rw [List.length_append, List.length_drop, List.length_singleton]
    omega
  simp only [encLoopPush, EncLoop.after, hacc, Config.group, List.length_append, List.length_singleton]
  by_cases hfull : ts.length % 5 + 1 = 5
  · have hdiv : (ts.length + 1) / 5 = ts.length / 5 + 1 := by omega
    have hempty : (ts ++ [t]).drop (5 * (ts.length / 5 + 1)) = [] :=
      List.drop_of_length_le (by rw [List.length_append, List.length_singleton]; omega)
    rw [if_pos hfull, hdiv, packGroups_succ ts [t] _ hle (hacc.trans hfull), hempty]
  · have hdiv : (ts.length + 1) / 5 = ts.length / 5 := by omega
    rw [if_neg hfull, hdiv, packGroups_append ts [t] _ hle, List.drop_append_of_le_length hle]

theorem foldl_encLoopPush (ts : List Trit) : ts.foldl encLoopPush { acc := [], out := [] } = EncLoop.after ts := by
  induction ts using List.reverseRecOn with
  | nil => rfl
  | append_singleton ts t ih => rw [List.foldl_concat, ih, encLoopPush_after]

/-- Flushing packs the trits left over with the pad trits of the stream. -/
theorem encLoopFlush_after (ts : List Trit) : encLoopFlush (EncLoop.after ts) =
    packGroups (ts ++ List.replicate (5 * ((ts.length + 4) / 5) - ts.length) .zero) ((ts.length + 4) / 5) := by
  have hle : 5 * (ts.length / 5) ≤ ts.length := Nat.mul_div_le _ _
  have hacc : (ts.drop (5 * (ts.length / 5))).length = ts.length % 5 := by
    rw [List.length_drop]
    omega
  simp only [encLoopFlush, EncLoop.after, hacc, Config.group]
  by_cases hwhole : ts.length % 5 = 0
  · have hdiv : (ts.length + 4) / 5 = ts.length / 5 := by omega
    rw [if_pos hwhole, hdiv, packGroups_append _ _ _ hle]
  · have hdiv : (ts.length + 4) / 5 = ts.length / 5 + 1 := by omega
    have hpad : 5 * (ts.length / 5 + 1) - ts.length = 5 - ts.length % 5 := by omega
    rw [if_neg hwhole, hdiv, hpad, packGroups_succ _ _ _ hle]
    rw [List.length_append, hacc, List.length_replicate]
    omega

/-- Settles O17: the loop over the elements is one loop over their trits in order. -/
theorem encodeLoopIsClosedFormula : Obligations.EncodeLoopIsClosedFormula := by
  intro elems
  rw [encodeLoop, ← List.foldl_flatten, foldl_encLoopPush, encLoopFlush_after, packedBytes_eq_packGroups, tritStream]

/-! ### The decode loop (R161) -/

/-- The trits the decode loop has still to pull. -/
def DecLoop.stream (l : DecLoop) : List Trit := l.group ++ unpackedStream l.rest

/-- A pull takes the next trit of the stream, whether the group or the next byte holds it. -/
theorem decLoopPull_of_stream (l : DecLoop) (t : Trit) (ts : List Trit) (h : l.stream = t :: ts) :
    ∃ l', decLoopPull l = some (t, l') ∧ l'.stream = ts := by
  obtain ⟨rest, _ | ⟨g, group⟩⟩ := l
  · cases rest with
    | nil => cases h
    | cons b bs => cases h; exact ⟨_, rfl, rfl⟩
  · cases h
    exact ⟨_, rfl, rfl⟩

theorem decLoopPull_exhausted (l : DecLoop) (h : l.stream = []) : decLoopPull l = none := by
  obtain ⟨rest, _ | ⟨g, group⟩⟩ := l
  · cases rest with
    | nil => rfl
    | cons b bs => cases h
  · cases h

/-- An element takes the next `n` trits of the stream. -/
theorem decLoopElement_of_le (n : Nat) (l : DecLoop) (h : n ≤ l.stream.length) :
    ∃ l', decLoopElement n l = some (l.stream.take n, l') ∧ l'.stream = l.stream.drop n := by
  induction n generalizing l with
  | zero => exact ⟨l, rfl, rfl⟩
  | succ n ih =>
    obtain ⟨t, ts, hl⟩ := List.exists_cons_of_length_pos (Nat.zero_lt_of_lt h)
    obtain ⟨l', hpull, rfl⟩ := decLoopPull_of_stream l t ts hl
    rw [hl, List.length_cons] at h
    obtain ⟨l'', helem, hrest⟩ := ih l' (by omega)
    exact ⟨l'', by rw [decLoopElement, hpull]; simp only [helem, hl, List.take_succ_cons], by rw [hrest, hl]; rfl⟩

theorem decLoopElement_of_lt (n : Nat) (l : DecLoop) (h : l.stream.length < n) : decLoopElement n l = none := by
  induction n generalizing l with
  | zero => cases h
  | succ n ih =>
    rw [decLoopElement]
    cases hl : l.stream with
    | nil => rw [decLoopPull_exhausted l hl]
    | cons t ts =>
      obtain ⟨l', hpull, rfl⟩ := decLoopPull_of_stream l t ts hl
      rw [hl, List.length_cons] at h
      simp only [hpull, ih l' (by omega)]

/-- Elements take the stream's trits in order (R165). -/
theorem decLoopElements_of_le (n elems : Nat) (l : DecLoop) (h : elems * n ≤ l.stream.length) :
    decLoopElements n elems l = some ((List.range elems).map (elementTrits l.stream n)) := by
  induction elems generalizing l with
  | zero => rfl
  | succ elems ih =>
    rw [Nat.succ_mul] at h
    obtain ⟨l', helem, hrest⟩ := decLoopElement_of_le n l (by omega)
    have htail := ih l' (by rw [hrest, List.length_drop]; omega)
    have hshift : elementTrits l'.stream n = elementTrits l.stream n ∘ Nat.succ := funext fun e => by
      rw [hrest, elementTrits, List.drop_drop, Function.comp_apply, elementTrits, Nat.succ_mul, Nat.add_comm]
    have hfirst : elementTrits l.stream n 0 = l.stream.take n := by rw [elementTrits, Nat.zero_mul, List.drop_zero]
    simp only [decLoopElements, helem, htail, List.range_succ_eq_map, List.map_cons, List.map_map, hfirst, hshift]

theorem decLoopElements_of_lt (n elems : Nat) (l : DecLoop) (h : l.stream.length < elems * n) :
    decLoopElements n elems l = none := by
  induction elems generalizing l with
  | zero => rw [Nat.zero_mul] at h; cases h
  | succ elems ih =>
    rw [decLoopElements]
    by_cases hn : n ≤ l.stream.length
    · obtain ⟨l', helem, hrest⟩ := decLoopElement_of_le n l hn
      rw [Nat.succ_mul] at h
      simp only [helem, ih l' (by rw [hrest, List.length_drop]; omega)]
    · rw [decLoopElement_of_lt n l (Nat.lt_of_not_le hn)]

theorem unpackedStream_length (bytes : List Byte) : (unpackedStream bytes).length = 5 * bytes.length := by
  simp [unpackedStream, List.length_flatMap, Nat.mul_comm]

/-- Settles O18: the loop starts with the whole unpacked stream before it, five trits a byte. -/
theorem decodeLoopIsClosedFormula : Obligations.DecodeLoopIsClosedFormula := by
  intro bytes n elems
  have hsize := requiredBytes_le_iff elems n bytes.length
  rw [← unpackedStream_length] at hsize
  exact ⟨fun h => decLoopElements_of_le n elems _ (hsize.mp h),
    fun h => decLoopElements_of_lt n elems _ (Nat.lt_of_not_le fun hle => Nat.not_le_of_lt h (hsize.mpr hle))⟩

end Sys2Proof.Machine
end

section
/-! REQB, and how MENC and MDEC fail (42_matrix R142, R148, R152, R155, R158, R162 to R164, R167): the checks in order, the
lowest failing read, and a failing write (O25, O26, O28 to O30, O32 to O34). -/

namespace Sys2Proof.Machine

/-! ### The dimension checks (R142) -/

/-- The three dimension checks at the head of a list of checks, whatever each of them reports, are `check_dims`. -/
theorem firstFailure_dims {α : Type} (f : ArgDetail → α) (l : Latches) (n : Nat) (rest : List (Bool × α)) :
    firstFailure ((decide (l.rows.toInt < 1 ∨ 2 ^ 31 - 1 < l.rows.toInt), f .rowsRange) ::
      (decide (l.cols.toInt < 1 ∨ 2 ^ 31 - 1 < l.cols.toInt), f .colsRange) ::
      (decide (n < 1 ∨ 64 < n), f .nRange) :: rest) =
    ((checkDims l n).map f).or (firstFailure rest) := by
  have hrows : dimOutOfRange l.rowCount = decide (l.rows.toInt < 1 ∨ 2 ^ 31 - 1 < l.rows.toInt) := rfl
  have hcols : dimOutOfRange l.colCount = decide (l.cols.toInt < 1 ∨ 2 ^ 31 - 1 < l.cols.toInt) := rfl
  have hn : nOutOfRange n = decide (n < 1 ∨ 64 < n) := rfl
  rw [checkDims, hrows, hcols, hn]
  simp only [firstFailure]
  repeat' split
  all_goals rfl

theorem dimsOk_of_checkDims (l : Latches) (n : Nat) (h : checkDims l n = none) : l.dimsOk n := by
  rw [checkDims] at h
  split_ifs at h with hrows hcols hn
  obtain ⟨hr, hr'⟩ := (dimOutOfRange_toInt l.rows).mp (Bool.eq_false_of_not_eq_true hrows)
  obtain ⟨hc, hc'⟩ := (dimOutOfRange_toInt l.cols).mp (Bool.eq_false_of_not_eq_true hcols)
  rw [nOutOfRange_iff] at hn
  exact ⟨hr, hr', hc, hc', by omega, by omega⟩

theorem area_pos (l : Latches) (n : Nat) (h : l.dimsOk n) : 0 < l.area := by
  obtain ⟨hr, -, hc, -⟩ := h
  exact Nat.mul_pos hr hc

/-- On legal dimensions there is a trit to store. -/
theorem area_mul_pos (l : Latches) (n : Nat) (h : l.dimsOk n) : 0 < l.area * n := by
  have harea := area_pos l n h
  obtain ⟨-, -, -, -, hn, -⟩ := h
  exact Nat.mul_pos harea hn

/-- `wraps` as the checks write it. -/
theorem wraps_eq (a len : Nat) : wraps a len = decide (2 ^ 64 < a + len) := rfl

/-- The packed size is above `k` exactly when `k` bytes do not hold all trits (R140). -/
theorem lt_requiredBytes_iff (elems n k : Nat) : k < requiredBytes elems n ↔ 5 * k < elems * n := by
  rw [← Nat.not_le, requiredBytes_le_iff, Nat.not_le]

/-! ### REQB (R148) -/

/-- Settles O25: the two bounds say that `r` is the packed size, which therefore fits RESULT. -/
theorem reqbWritesSize : Obligations.ReqbWritesSize := by
  intro n s r hdims hlo hhi
  have hsize : requiredBytes s.engine.lat.elems n = r.toNat := by
    rw [elems_eq_area _ n hdims, requiredBytes]
    omega
  obtain ⟨why, hwhy, -⟩ | ⟨-, hover, -⟩ | ⟨-, -, h⟩ := execReqb_cases n s
  · rw [checkDims_eq_none _ n hdims] at hwhy; cases hwhy
  · rw [hsize] at hover; exact absurd r.isLt (Nat.not_lt.mpr hover)
  · rw [hsize, BitVec.ofNat_toNat, BitVec.setWidth_eq] at h; exact h

/-- Settles O26: the dimension checks are `check_dims`; the size overflows as `5·(2^64 - 1) < E·n` says. -/
theorem reqbErrors : Obligations.ReqbErrors := by
  intro n s why hfail
  rw [firstFailure_dims (fun why => why)] at hfail
  obtain ⟨why', hdims, h⟩ | ⟨hdims, hover, h⟩ | ⟨hdims, hfit, -⟩ := execReqb_cases n s
  · rw [hdims] at hfail; cases hfail; exact h
  · have harea := elems_eq_area _ n (dimsOk_of_checkDims _ n hdims)
    have hlt := (lt_requiredBytes_iff s.engine.lat.area n (2 ^ 64 - 1)).mp (by rw [← harea]; omega)
    rw [hdims, Option.map_none, Option.none_or, firstFailure, if_pos (decide_eq_true hlt)] at hfail
    cases hfail
    exact h
  · have harea := elems_eq_area _ n (dimsOk_of_checkDims _ n hdims)
    have hle := (requiredBytes_le_iff s.engine.lat.area n (2 ^ 64 - 1)).mp (by rw [← harea]; omega)
    rw [hdims, Option.map_none, Option.none_or, firstFailure, if_neg (by simpa using hle)] at hfail
    cases hfail

/-! ### The checks of MENC and MDEC in their order (R152, R162) -/

/-- `validate_menc` is the table of R152: past the dimension checks both count E elements, and past the capacity check
neither range is empty. -/
theorem validateMenc_eq_firstFailure (l : Latches) (n : Nat) : validateMenc l n = firstFailure (l.mencChecks n) := by
  rw [firstFailure, firstFailure, firstFailure_dims (fun why => why), validateMenc]
  simp only [decide_eq_true_eq]
  refine ite_congr rfl (fun _ => rfl) fun _ => ite_congr rfl (fun _ => rfl) fun _ => ?_
  cases hdims : checkDims l n with
  | some why => rfl
  | none =>
    have hok := dimsOk_of_checkDims l n hdims
    have harea := area_pos l n hok
    have htrits := area_mul_pos l n hok
    simp only [Option.map_none, Option.none_or, firstFailure, decide_eq_true_eq, elems_eq_area l n hok,
      lt_requiredBytes_iff, wraps_eq, Bool.or_eq_true, overlap]
    refine ite_congr rfl (fun _ => rfl) fun hcap => ite_congr rfl (fun _ => rfl) fun _ =>
      ite_congr rfl (fun _ => rfl) fun _ => ite_congr (propext ?_) (fun _ => rfl) fun _ => rfl
    omega

/-- `validate_mdec` is the table of R162, with starvation last: past the dimension checks there is an element and a packed
byte. -/
theorem validateMdec_eq_firstFailure (l : Latches) (n : Nat) : validateMdec l n = firstFailure (l.mdecChecks n) := by
  rw [firstFailure, firstFailure, firstFailure_dims (Verdict.invalidArgument · 0#64), validateMdec]
  simp only [decide_eq_true_eq]
  refine ite_congr rfl (fun _ => rfl) fun _ => ite_congr rfl (fun _ => rfl) fun _ => ?_
  cases hdims : checkDims l n with
  | some why => rfl
  | none =>
    have hok := dimsOk_of_checkDims l n hdims
    have harea := area_pos l n hok
    have htrits := area_mul_pos l n hok
    simp only [Option.map_none, Option.none_or, firstFailure, decide_eq_true_eq, elems_eq_area l n hok,
      lt_requiredBytes_iff, wraps_eq, Bool.or_eq_true, overlap]
    refine ite_congr rfl (fun _ => rfl) fun _ => ite_congr rfl (fun _ => rfl) fun _ =>
      ite_congr (propext ?_) (fun _ => rfl) fun _ => rfl
    rw [requiredBytes]
    omega

section
variable (n : Nat) (s : State) (hfree : s.raceFree)
include hfree

/-- A state with no race completes by `finish` alone. -/
theorem conclude_of_raceFree (i : Instr) (v : Verdict) : s.conclude i v = s.finish v :=
  conclude_raceFree i v s ((raced_false_iff s.engine).mpr hfree)

theorem execMenc_invalid (why : ArgDetail) (h : validateMenc s.engine.lat n = some why) :
    execMenc n s = .next (s.finish (.invalidArgument why 0#64)) := by
  rw [execMenc, h, ← conclude_of_raceFree s hfree (.menc n)]

theorem execMenc_scanError (hok : s.engine.lat.mencOk n) (v : Verdict)
    (h : scanMenc n s 0 s.engine.lat.area = .error v) : execMenc n s = .next (s.finish v) := by
  have hv := validateMenc_eq_none _ n hok
  obtain ⟨-, -, hdims, -⟩ := hok
  rw [← elems_eq_area _ n hdims] at h
  simp only [execMenc, hv, h, conclude_of_raceFree s hfree]

theorem execMdec_invalid (v : Verdict) (h : validateMdec s.engine.lat n = some v) :
    execMdec n s = .next (s.finish v) := by
  rw [execMdec, h, ← conclude_of_raceFree s hfree (.mdec n)]

theorem execMdec_readError (hok : s.engine.lat.mdecOk n) (v : Verdict)
    (h : readMdec s 0 (requiredBytes s.engine.lat.area n) = .error v) : execMdec n s = .next (s.finish v) := by
  have hv := validateMdec_eq_none _ n hok
  obtain ⟨-, -, hdims, -⟩ := hok
  rw [← elems_eq_area _ n hdims] at h
  simp only [execMdec, hv, h, conclude_of_raceFree s hfree]

end

/-- Settles O28: the checks are those of `validate_menc`. -/
theorem mencErrorsInOrder : Obligations.MencErrorsInOrder := fun n s why hfree hfail =>
  execMenc_invalid n s hfree why ((validateMenc_eq_firstFailure _ n).trans hfail)

/-- Settles O32: the checks are those of `validate_mdec`. -/
theorem mdecErrorsInOrder : Obligations.MdecErrorsInOrder := fun n s v hfree hfail =>
  execMdec_invalid n s hfree v ((validateMdec_eq_firstFailure _ n).trans hfail)

/-! ### The lowest failure (R155, R164) -/

/-- Without a race an element has no encoding exactly when memory holds a NaN there (R155). -/
theorem enc_portFloat_eq_none_iff (n : Nat) (s : State) (a : Nat) (hfree : s.raceFree) :
    enc (s.portFloat a) n = none ↔ f32 (memFloat s.mem a) = .nan := by
  rw [portFloat_raceFree s a hfree.1, enc_none_iff, memFloat]

/-- Settles O29: the scan stops at the lowest element whose read fails or that is a NaN. -/
theorem mencReportsLowestElement : Obligations.MencReportsLowestElement := by
  intro n s e hfree hok he hlow
  obtain ⟨hread, hnan⟩ := scanMenc_error n s 0 e s.engine.lat.area he fun k hk => by
    rw [Nat.zero_add, ne_eq, enc_portFloat_eq_none_iff n s _ hfree]
    exact hlow k hk
  rw [Nat.zero_add, enc_portFloat_eq_none_iff n s _ hfree] at hnan
  rw [Nat.zero_add] at hread
  exact ⟨fun hbad => execMenc_scanError n s hfree hok _ (hread hbad),
    fun hbus hbad => execMenc_scanError n s hfree hok _ (hnan hbus hbad)⟩

/-- Settles O33: the read stops at the lowest byte whose access fails. -/
theorem mdecReportsLowestByte : Obligations.MdecReportsLowestByte := by
  intro n s j hfree hok hj hlow hbad
  refine execMdec_readError n s hfree hok _ ?_
  simpa using readMdec_error s 0 j (requiredBytes s.engine.lat.area n) hj (by simpa using hlow) (by simpa using hbad)

/-! ### The last phase (R156, R158, R165, R167) -/

theorem mem_failingWrites_menc (p : Platform) (n : Nat) (l : Latches) (x : Nat) :
    x ∈ failingWrites p (.menc n) l ↔ ∃ j, j < l.cap ∧ busOK p (l.dst + j) .one .write = false ∧ l.dst + j = x := by
  simp [failingWrites, writeAddrs, writeSize, List.filter_map, and_assoc]

theorem mem_failingWrites_mdec (p : Platform) (n : Nat) (l : Latches) (x : Nat) :
    x ∈ failingWrites p (.mdec n) l ↔
      ∃ e, e < l.elems ∧ busOK p (l.dst + 4 * e) .four .write = false ∧ l.dst + 4 * e = x := by
  simp [failingWrites, writeAddrs, writeSize, List.filter_map, and_assoc]

section
variable (i : Instr) (bytes : List Byte) (s : State) (hfree : s.raceFree)
include hfree

/-- With every write access completing, the last phase writes the bytes and completes with OK. -/
theorem writeOut_ok (hok : ∀ x, x ∉ failingWrites s.platform i s.engine.lat) :
    s.writeOut i bytes =
      ({ s with mem := s.mem.writeBytes (writeRange i s.engine.lat).1 bytes } : State).finish .ok := by
  obtain ⟨-, h⟩ | ⟨x, hx, -⟩ := writeOut_cases i bytes s
  · rw [h, conclude_of_raceFree _ (by exact hfree)]
  · exact absurd hx (hok x)

/-- With a failing write access, it completes with BUS_ERROR WRITE at some failing one and the footprint is spoiled. -/
theorem writeOut_busError (x : Nat) (hbad : x ∈ failingWrites s.platform i s.engine.lat) :
    ∃ y ∈ failingWrites s.platform i s.engine.lat, s.writeOut i bytes =
      ({ s with mem := s.spoiledMem i } : State).finish (.busError .write (BitVec.ofNat 64 y)) := by
  obtain ⟨hnil, -⟩ | ⟨y, hy, h⟩ := writeOut_cases i bytes s
  · exact absurd hnil (List.ne_nil_of_mem hbad)
  · exact ⟨y, hy, by rw [h, State.spoil, conclude_of_raceFree _ (by exact hfree)]⟩

end

/-- A MENC that passes its checks and reads goes on to write the packed elements. -/
theorem execMenc_writes (n : Nat) (s : State) (ts : Nat → List Trit) (hfree : s.raceFree) (hok : s.engine.lat.mencOk n)
    (hbus : ∀ e, e < s.engine.lat.area → busOK s.platform (s.engine.lat.src + 4 * e) .four .read = true)
    (henc : ∀ e, e < s.engine.lat.area → enc (memFloat s.mem (s.engine.lat.src + 4 * e)) n = some (ts e)) :
    execMenc n s =
      .next (s.writeOut (.menc n) (mencOutput s.engine.lat ((List.range s.engine.lat.area).map ts))) := by
  have hv := validateMenc_eq_none _ n hok
  obtain ⟨-, -, hdims, -⟩ := hok
  have hscan := scanMenc_ok n s ts 0 s.engine.lat.area (by simpa using hbus) fun e he => by
    rw [Nat.zero_add, portFloat_raceFree s _ hfree.1]
    exact henc e he
  rw [← elems_eq_area _ n hdims] at hscan ⊢
  simp only [execMenc, hv, hscan, Nat.zero_add]

/-- An MDEC that passes its checks and reads goes on to write what the packed bytes in memory decode to. -/
theorem execMdec_writes (n : Nat) (s : State) (hfree : s.raceFree) (hok : s.engine.lat.mdecOk n)
    (hbus : ∀ j, j < requiredBytes s.engine.lat.area n → busOK s.platform (s.engine.lat.src + j) .one .read = true) :
    execMdec n s = .next (s.writeOut (.mdec n) (mdecOutput s.engine.lat n
      ((List.range (requiredBytes s.engine.lat.area n)).map fun j => s.mem.read (s.engine.lat.src + j)))) := by
  have hv := validateMdec_eq_none _ n hok
  obtain ⟨-, -, hdims, -⟩ := hok
  have hread := readMdec_ok s 0 (requiredBytes s.engine.lat.area n) (by simpa using hbus)
  rw [← elems_eq_area _ n hdims] at hread ⊢
  simp only [execMdec, hv, hread, Nat.zero_add, portByte_raceFree s _ hfree.1]

/-- Settles O30: the spoiled footprint keeps the bytes whose access fails. -/
theorem mencWriteError : Obligations.MencWriteError := by
  intro n s hwf hfree hok hread ⟨j, hj, hbad⟩
  have hexec := execMenc_writes n s (fun e => (enc (memFloat s.mem (s.engine.lat.src + 4 * e)) n).getD []) hfree hok
    (fun e he => (hread e he).1) fun e he => by
      obtain ⟨ts, hts⟩ := Option.ne_none_iff_exists'.mp (mt (enc_none_iff _ n).mp (hread e he).2)
      rw [hts, Option.getD_some]
  obtain ⟨y, hy, hout⟩ := writeOut_busError (.menc n) (mencOutput s.engine.lat _) s hfree _
    ((mem_failingWrites_menc _ n _ _).mpr ⟨j, hj, hbad, rfl⟩)
  obtain ⟨j', hj', hbad', rfl⟩ := (mem_failingWrites_menc _ n _ y).mp hy
  refine ⟨_, j', hj', hbad', hexec.trans (congrArg _ hout), spoiledMem_wf _ s hwf, fun a ha => ?_⟩
  refine read_spoiledMem (.menc n) s a hwf ?_
  obtain hlo | hhi | hfail := ha
  · exact .inl (decide_eq_false fun h => Nat.not_le.mpr hlo h.1)
  · exact .inl (decide_eq_false fun h => Nat.not_le.mpr h.2 hhi)
  · exact .inr hfail

/-- The write access that covers a byte of MDEC's element `e` is that element's (R167). -/
theorem writable_mdec (p : Platform) (n : Nat) (l : Latches) (e i : Nat) (hi : i < 4) :
    writable p (.mdec n) l (l.dst + 4 * e + i) = busOK p (l.dst + 4 * e) .four .write := by
  have haddr : l.dst + 4 * ((l.dst + 4 * e + i - l.dst) / 4) = l.dst + 4 * e := by omega
  simp only [writable, writeAccess, haddr]

/-- Settles O34: the spoiled footprint keeps the elements whose access fails. -/
theorem mdecWriteError : Obligations.MdecWriteError := by
  intro n s hwf hfree hok hread ⟨e, he, hbad⟩
  have hexec := execMdec_writes n s hfree hok hread
  obtain ⟨-, -, hdims, -⟩ := hok
  rw [← elems_eq_area _ n hdims] at he ⊢
  obtain ⟨y, hy, hout⟩ := writeOut_busError (.mdec n) (mdecOutput s.engine.lat n _) s hfree _
    ((mem_failingWrites_mdec _ n _ _).mpr ⟨e, he, hbad, rfl⟩)
  obtain ⟨e', he', hbad', rfl⟩ := (mem_failingWrites_mdec _ n _ y).mp hy
  refine ⟨_, e', he', hbad', hexec.trans (congrArg _ hout), spoiledMem_wf _ s hwf, fun a ha => ?_,
    fun e i _ hi hfail => ?_⟩
  · refine read_spoiledMem (.mdec n) s a hwf (.inl (decide_eq_false fun h => ?_))
    obtain ⟨hlo, hhi⟩ := h
    exact ha.elim (Nat.not_lt.mpr hlo) (Nat.not_le.mpr hhi)
  · exact read_spoiledMem (.mdec n) s _ hwf (.inr ((writable_mdec _ n _ e i hi).trans hfail))

end Sys2Proof.Machine
end

section
/-! What MENC and MDEC write (42_matrix R145, R146, R156, R157, R165, R169): the bytes of the packed matrix, the decoded
elements, and what is left of a matrix that is encoded and decoded (O27, O31, O35). -/

namespace Sys2Proof.Machine

/-! ### Positions in lists of lists and in padded lists -/

/-- Position `p` of lists of `k` entries each, one after the other, is entry `p mod k` of list `p div k`. -/
theorem getD_flatten {α : Type} (xss : List (List α)) (k p : Nat) (d : α) (hk : 0 < k) (h : ∀ xs ∈ xss, xs.length = k) :
    xss.flatten.getD p d = (xss.getD (p / k) []).getD (p % k) d := by
  induction xss generalizing p with
  | nil => simp
  | cons xs xss ih =>
    obtain ⟨hxs, hxss⟩ := List.forall_mem_cons.mp h
    rw [List.flatten_cons]
    by_cases hp : p < k
    · rw [List.getD_append _ _ _ _ (hxs ▸ hp), Nat.div_eq_of_lt hp, Nat.mod_eq_of_lt hp, List.getD_cons_zero]
    · obtain ⟨q, rfl⟩ := Nat.exists_eq_add_of_le' (Nat.le_of_not_lt hp)
      rw [List.getD_append_right _ _ _ _ (by omega), hxs, Nat.add_sub_cancel, ih q hxss, Nat.add_div_right q hk,
        Nat.add_mod_right, List.getD_cons_succ]

/-- Padding with the default does not change what a position holds. -/
theorem getD_append_replicate {α : Type} (xs : List α) (k p : Nat) (d : α) :
    (xs ++ List.replicate k d).getD p d = xs.getD p d := by
  obtain hp | hp := Nat.lt_or_ge p xs.length
  · rw [List.getD_append _ _ _ _ hp]
  · rw [List.getD_append_right _ _ _ _ hp, List.getD_eq_default _ _ hp, List.getD_eq_getElem?_getD,
      List.getElem?_getD_replicate_default_eq]

theorem getD_map_range {α : Type} (f : Nat → α) (k i : Nat) (d : α) :
    ((List.range k).map f).getD i d = if i < k then f i else d := by
  split
  · rename_i h; simp [List.getD_eq_getElem?_getD, h]
  · rename_i h; simp [List.getD_eq_getElem?_getD, h]

/-- A section of a list, position by position. -/
theorem take_drop_eq_map {α : Type} (xs : List α) (a k : Nat) (d : α) (h : a + k ≤ xs.length) :
    (xs.drop a).take k = (List.range k).map fun i => xs.getD (a + i) d := by
  have hlen : ((xs.drop a).take k).length = k := by rw [List.length_take, List.length_drop]; omega
  refine List.ext_getElem (by rw [hlen, List.length_map, List.length_range]) fun i hi _ => ?_
  rw [hlen] at hi
  simp [List.getD_eq_getElem?_getD, show a + i < xs.length by omega]

/-! ### The packed bytes of a matrix (R145, R146) -/

/-- The packed byte of five trits, as the sum that R120 writes. -/
theorem pack5_map_range (f : Nat → Trit) :
    pack5 ((List.range 5).map f) = BitVec.ofNat 8 (∑ i ∈ Finset.range 5, (f i).digit * 3 ^ i) := by
  rw [pack5, digitSum_eq_sum, List.length_map, List.length_range]
  refine congrArg _ (Finset.sum_congr rfl fun i hi => ?_)
  rw [getD_map_range, if_pos (Finset.mem_range.mp hi)]

section
variable (ts : Nat → List Trit) (elems n : Nat) (hlen : ∀ e, e < elems → (ts e).length = n)
include hlen

theorem flatten_map_length : ((List.range elems).map ts).flatten.length = elems * n := by
  rw [flatten_length _ n (by simpa using hlen), List.length_map, List.length_range]

/-- The stream of the elements, position by position (R145). -/
theorem getD_tritStream (hn : 0 < n) (p : Nat) :
    (tritStream ((List.range elems).map ts)).getD p .zero = streamTrit ts elems n p := by
  rw [tritStream, getD_append_replicate, getD_flatten _ n p _ hn (by simpa using hlen), getD_map_range, streamTrit]
  simp only [Nat.div_lt_iff_lt_mul hn]
  split <;> rfl

/-- Byte `j` packs the trits `5j` to `5j + 4` of the stream, and past the packed size there is none (R146). -/
theorem getD_packedBytes (hn : 0 < n) (j : Nat) :
    (packedBytes ((List.range elems).map ts)).getD j unlistedByte =
      if j < requiredBytes elems n then pack5 ((List.range 5).map fun i => streamTrit ts elems n (5 * j + i))
      else unlistedByte := by
  have hsize : ((List.range elems).map ts).flatten.length = elems * n := flatten_map_length ts elems n hlen
  rw [packedBytes_eq_packGroups, packGroups, getD_map_range, hsize, ← requiredBytes]
  refine ite_congr rfl (fun hj => ?_) fun _ => rfl
  have hstream := tritStream_length ((List.range elems).map ts)
  rw [hsize, ← requiredBytes] at hstream
  rw [take_drop_eq_map _ _ _ .zero (by omega)]
  simp only [getD_tritStream ts elems n hlen hn]

/-- The trits of element `e` stand in the stream at `e·n` (R145). -/
theorem map_streamTrit (e : Nat) (he : e < elems) :
    (List.range n).map (fun i => streamTrit ts elems n (e * n + i)) = ts e := by
  have hmul : e * n + n ≤ elems * n := Nat.succ_mul e n ▸ Nat.mul_le_mul_right n he
  have hself := take_drop_eq_map (ts e) 0 n .zero (by rw [Nat.zero_add, hlen e he])
  rw [List.drop_zero, List.take_of_length_le (hlen e he).le] at hself
  refine Eq.trans (List.map_congr_left fun i hi => ?_) hself.symm
  have hin := List.mem_range.mp hi
  rw [streamTrit, if_pos (by omega), Nat.add_comm (e * n), Nat.add_mul_div_right _ _ (by omega),
    Nat.div_eq_of_lt hin, Nat.add_mul_mod_self_right, Nat.mod_eq_of_lt hin, Nat.zero_add, Nat.zero_add]

end

/-! ### MENC (R156, R157) -/

/-- A byte within the list written from `base` on. -/
theorem read_writeBytes_offset (m : Memory) (base k : Nat) (bytes : List Byte) (hwf : m.wf = true)
    (hfit : base + bytes.length ≤ 2 ^ 64) (hk : k < bytes.length) :
    (m.writeBytes base bytes).read (base + k) = bytes.getD k unlistedByte := by
  rw [read_writeBytes _ _ _ _ hwf, if_pos ⟨by omega, by omega, by rw [Config.memSize]; omega⟩, Nat.add_sub_cancel_left]

/-- Outside the range written nothing changes. -/
theorem read_writeBytes_outside (m : Memory) (base a : Nat) (bytes : List Byte) (hwf : m.wf = true)
    (ha : a < base ∨ base + bytes.length ≤ a) : (m.writeBytes base bytes).read a = m.read a := by
  rw [read_writeBytes _ _ _ _ hwf, if_neg (by omega)]

section
variable (l : Latches) (n : Nat) (ts : Nat → List Trit) (hlen : ∀ e, e < l.area → (ts e).length = n)
include hlen

/-- With room for the packed bytes the output fills the capacity (R157). -/
theorem mencOutput_map_length (hroom : l.area * n ≤ 5 * l.cap) :
    (mencOutput l ((List.range l.area).map ts)).length = l.cap := by
  have hcap := (requiredBytes_le_iff l.area n l.cap).mpr hroom
  have hsize : (packedBytes ((List.range l.area).map ts)).length = requiredBytes l.area n := by
    rw [packedBytes_length, flatten_map_length ts l.area n hlen, ← requiredBytes]
  rw [mencOutput, List.length_append, List.length_replicate]
  omega

/-- MENC's output, byte by byte: the packed bytes, then zeros (R156, R157). -/
theorem getD_mencOutput (hn : 0 < n) (j : Nat) :
    (mencOutput l ((List.range l.area).map ts)).getD j unlistedByte =
      if j < requiredBytes l.area n then
        BitVec.ofNat 8 (∑ i ∈ Finset.range 5, (streamTrit ts l.area n (5 * j + i)).digit * 3 ^ i)
      else unlistedByte := by
  rw [mencOutput, ← pack5_map_range]
  exact (getD_append_replicate _ _ _ _).trans (getD_packedBytes ts l.area n hlen hn j)

end

/-- Settles O27: the output is written over the whole capacity, and read back byte by byte. -/
theorem mencWritesPackedMatrix : Obligations.MencWritesPackedMatrix := by
  intro n s ts hwf hfree hok hbus henc
  obtain ⟨hread, hwrite⟩ := hbus
  have hexec := execMenc_writes n s ts hfree hok hread henc
  obtain ⟨-, -, ⟨-, -, -, -, hn, -⟩, hroom, -, -, hfit, -⟩ := hok
  have hts (e : Nat) (he : e < s.engine.lat.area) : (ts e).length = n := enc_length _ n _ (henc e he)
  have hlen := mencOutput_map_length s.engine.lat n ts hts hroom
  have hcap := (requiredBytes_le_iff s.engine.lat.area n _).mpr hroom
  refine ⟨_, hexec.trans (congrArg _ (writeOut_ok _ _ s hfree fun x hx => ?_)), writeBytes_wf _ _ _ hwf, fun a => ?_⟩
  · obtain ⟨j, hj, hbad, -⟩ := (mem_failingWrites_menc _ n _ x).mp hx
    exact absurd (hwrite j hj) (by rw [hbad]; decide)
  · rw [writeRange, ← requiredBytes]
    by_cases ha : s.engine.lat.dst ≤ a ∧ a < s.engine.lat.dst + s.engine.lat.cap
    · obtain ⟨j, rfl⟩ := Nat.exists_eq_add_of_le ha.1
      rw [read_writeBytes_offset _ _ _ _ hwf (by omega) (by omega), getD_mencOutput _ n ts hts hn,
        Nat.add_sub_cancel_left, if_pos ha]
      exact ite_congr (propext (by omega)) (fun _ => rfl) fun _ => rfl
    · rw [read_writeBytes_outside _ _ _ _ hwf (by omega), if_neg (by omega), if_neg ha]

/-! ### MDEC (R165) -/

/-- A trit of a packed buffer is a trit of the byte that holds it. -/
theorem bufferTrit_eq_getD_unpack5 (m : Memory) (base p : Nat) :
    bufferTrit m base p = (unpack5 (m.read (base + p / 5))).getD (p % 5) .zero := by
  rw [unpack5_eq_tritDigits, getD_tritDigits _ _ _ (Nat.mod_lt p (by decide)), bufferTrit]

/-- The unpacked stream of a buffer in memory, position by position (R165). -/
theorem getD_unpackedStream (m : Memory) (base count p : Nat) (hp : p < 5 * count) :
    (unpackedStream ((List.range count).map fun j => m.read (base + j))).getD p .zero = bufferTrit m base p := by
  rw [unpackedStream, List.flatMap, List.map_map, getD_flatten _ 5 p _ (by decide) (by simp), getD_map_range,
    if_pos (by omega), bufferTrit_eq_getD_unpack5, Function.comp_apply]

/-- The trits of an element that lies within the buffer. -/
theorem elementTrits_unpackedStream (m : Memory) (base count n e : Nat) (h : e * n + n ≤ 5 * count) :
    elementTrits (unpackedStream ((List.range count).map fun j => m.read (base + j))) n e =
      (List.range n).map fun i => bufferTrit m base (e * n + i) := by
  rw [elementTrits, take_drop_eq_map _ _ _ .zero (by simpa [unpackedStream_length] using h)]
  refine List.map_congr_left fun i hi => getD_unpackedStream m base count _ ?_
  have hin := List.mem_range.mp hi
  omega

/-- Byte `i` of element `e` of MDEC's output. -/
theorem getD_mdecOutput (l : Latches) (n : Nat) (bytes : List Byte) (e i : Nat) (he : e < l.elems) (hi : i < 4) :
    (mdecOutput l n bytes).getD (4 * e + i) unlistedByte =
      (leBytes (dec (elementTrits (unpackedStream bytes) n e))).getD i unlistedByte := by
  rw [mdecOutput, decodedElements, List.flatMap, List.map_map, getD_flatten _ 4 _ _ (by decide) (by simp),
    getD_map_range, show (4 * e + i) / 4 = e by omega, show (4 * e + i) % 4 = i by omega, if_pos he,
    Function.comp_apply]

/-- Memory that holds the four bytes of a pattern holds its float (20_memory R61). -/
theorem memFloat_of_leBytes (m : Memory) (a : Nat) (b : BitVec 32)
    (h : ∀ i, i < 4 → m.read (a + i) = (leBytes b).getD i unlistedByte) : memFloat m a = b := by
  have h0 := h 0 (by decide)
  rw [Nat.add_zero] at h0
  rw [memFloat, h0, h 1 (by decide), h 2 (by decide), h 3 (by decide)]
  exact leWord_extract b

/-- Settles O31: the four bytes of each element are written at its address, from the trits of the bytes read. -/
theorem mdecWritesDecodedMatrix : Obligations.MdecWritesDecodedMatrix := by
  intro n s hwf hfree hok hbus
  obtain ⟨hread, hwrite⟩ := hbus
  have hexec := execMdec_writes n s hfree hok hread
  obtain ⟨-, -, hdims, -, -, hfit, -, -⟩ := hok
  have harea := elems_eq_area _ n hdims
  have hlen := mdecOutput_length s.engine.lat n
    ((List.range (requiredBytes s.engine.lat.area n)).map fun j => s.mem.read (s.engine.lat.src + j))
  refine ⟨_, hexec.trans (congrArg _ (writeOut_ok _ _ s hfree fun x hx => ?_)), writeBytes_wf _ _ _ hwf,
    fun e he => memFloat_of_leBytes _ _ _ fun i hi => ?_, fun a ha => ?_⟩
  · obtain ⟨e, he, hbad, -⟩ := (mem_failingWrites_mdec _ n _ x).mp hx
    exact absurd (hwrite e (harea ▸ he)) (by rw [hbad]; decide)
  · have hmul : e * n + n ≤ s.engine.lat.area * n := Nat.succ_mul e n ▸ Nat.mul_le_mul_right n he
    have hroom := (requiredBytes_le_iff s.engine.lat.area n _).mp le_rfl
    rw [Nat.add_assoc, writeRange, read_writeBytes_offset _ _ _ _ hwf (by omega) (by omega),
      getD_mdecOutput _ _ _ e i (by omega) hi, elementTrits_unpackedStream _ _ _ _ _ (by omega)]
  · exact read_writeBytes_outside _ _ _ _ hwf (by rw [writeRange]; omega)

/-! ### The round trip (R169) -/

/-- A quotient of 1 is the pattern of 1.0. -/
theorem f32Nearest_self (m : Nat) (hm : 0 < m) : f32Nearest m m = 0x3F800000 := by
  obtain ⟨hle, -, hhi⟩ := f32Floor_brackets m m hm le_rfl
  rw [Nat.mul_comm m, Nat.mul_lt_mul_right hm, ← f32Magnitude_one, f32Magnitude_strictMono.lt_iff_lt] at hhi
  have hfloor : f32Floor m m 31 0 = 0x3F800000 := by omega
  have hnext : f32Magnitude 0x3F800000 < f32Magnitude (0x3F800000 + 1) := f32Magnitude_strictMono (Nat.lt_succ_self _)
  have hnear : 2 * (m * f32Scale) <
      (f32Magnitude (f32Floor m m 31 0) + f32Magnitude (f32Floor m m 31 0 + 1)) * m := by
    have hmul := Nat.mul_lt_mul_of_pos_right hnext hm
    rw [hfloor, Nat.mul_comm m, ← f32Magnitude_one, Nat.add_mul]
    omega
  obtain ⟨h, -⟩ | ⟨-, h⟩ | ⟨h, -⟩ := f32Nearest_cases m m
  · exact h.trans hfloor
  · exact absurd h hnear.not_gt
  · exact absurd h hnear.ne

theorem rne32_self (m : Nat) (hm : 0 < m) : rne32 m m = 0x3F800000#32 := by
  rw [rne32, if_neg (by omega), Int.natAbs_natCast, f32Nearest_self m hm]

theorem rne32_neg_self (m : Nat) (hm : 0 < m) : rne32 (-m) m = 0xBF800000#32 := by
  rw [rne32, if_pos (by omega), Int.natAbs_neg, Int.natAbs_natCast, f32Nearest_self m hm]
  rfl

/-- Decoding what encodes a value quantized to `k` rounds `k / max_val(n)`. -/
theorem dec_of_quantize (b : BitVec 32) (n : Nat) (k : Int) (ts : List Trit) (hk : quantize b n = some k)
    (henc : enc b n = some ts) : dec ts = rne32 k (maxVal n) := by
  rw [enc_of_quantize b n k hk] at henc
  cases henc
  exact dec_btDigits k n (natAbs_quantize_le b n k hk)

section
variable (b : BitVec 32) (n : Nat) (ts : List Trit) (hn : 1 ≤ n) (henc : enc b n = some ts)
include hn henc

/-- A value of 1 or more comes back as 1.0 (R103, R169). -/
theorem dec_enc_of_one_le (h : f32 b = .inf false ∨ ∃ z, f32 b = .finite z ∧ 1 ≤ scaledRat z) :
    dec ts = 0x3F800000#32 := by
  have hclamp : (f32 b).clamped = some (f32Scale : Int) := by
    obtain hinf | ⟨z, hz, hone⟩ := h
    · rw [hinf]; rfl
    · rw [hz]
      exact clamped_of_one_le z (by simpa using (le_scaledRat_iff 1 z).mp (by exact_mod_cast hone))
  rw [dec_of_quantize b n _ ts (quantize_of_clamped_one b n hclamp) henc, rne32_self _ (maxVal_pos hn)]

/-- A value of -1 or less comes back as -1.0 (R103, R169). -/
theorem dec_enc_of_le_neg_one (h : f32 b = .inf true ∨ ∃ z, f32 b = .finite z ∧ scaledRat z ≤ -1) :
    dec ts = 0xBF800000#32 := by
  have hclamp : (f32 b).clamped = some (-(f32Scale : Int)) := by
    obtain hinf | ⟨z, hz, hone⟩ := h
    · rw [hinf]; rfl
    · rw [hz]
      exact clamped_of_le_neg_one z (by simpa using (scaledRat_le_iff (-1) z).mp (by exact_mod_cast hone))
  rw [dec_of_quantize b n _ ts (quantize_of_clamped_neg_one b n hclamp) henc, rne32_neg_self _ (maxVal_pos hn)]

/-- A value of [-1, 1] comes back within 1/max_val(n) (R106). -/
theorem dec_enc_near (hn' : n ≤ 64) (z : Int) (hz : f32 b = .finite z) (habs : |scaledRat z| ≤ 1) :
    ∃ z', f32 (dec ts) = .finite z' ∧ |scaledRat z' - scaledRat z| ≤ 1 / (maxVal n : ℚ) := by
  obtain ⟨ts', z', henc', hz', hnear⟩ := scalarRoundTripBound n b z hn hn' hz habs
  cases henc.symm.trans henc'
  exact ⟨z', hz', hnear⟩

end

/-- Unpacking the byte that packs a group of the stream gives the stream's trit back (R121). -/
theorem bufferTrit_of_packed (m : Memory) (base elems n p : Nat) (ts : Nat → List Trit)
    (h : m.read (base + p / 5) = pack5 ((List.range 5).map fun i => streamTrit ts elems n (5 * (p / 5) + i))) :
    bufferTrit m base p = streamTrit ts elems n p := by
  rw [bufferTrit_eq_getD_unpack5, h, unpackInvertsPack _ (by simp), getD_map_range,
    if_pos (Nat.mod_lt p (by decide)), Nat.div_add_mod]

/-- Settles O35: the buffer holds the stream of the encoded elements, so each element's trits come back, and the scalar
bounds say what they decode to. -/
theorem matrixRoundTrip : Obligations.MatrixRoundTrip := by
  intro n s t u ts hwf hfree hok hbus henc hexec hmem hfree' hrows hcols hsrc hok' hbus'
  obtain ⟨m, hmenc, hmwf, hbytes⟩ := mencWritesPackedMatrix n s ts hwf hfree hok hbus henc
  cases hexec.symm.trans hmenc
  rw [finish_mem] at hmem
  obtain ⟨m', hmdec, -, hfloat, -⟩ := mdecWritesDecodedMatrix n u (hmem ▸ hmwf) hfree' hok' hbus'
  refine ⟨_, hmdec, rfl, fun e he => ?_⟩
  obtain ⟨-, -, ⟨-, -, -, -, hn, hn'⟩, -⟩ := hok
  have harea : u.engine.lat.area = s.engine.lat.area := by rw [Latches.area, hrows, hcols, Latches.area]
  have hbase : u.engine.lat.src = s.engine.lat.dst := by rw [Latches.src, hsrc, Latches.dst]
  have hlen (e : Nat) (he : e < s.engine.lat.area) : (ts e).length = n := enc_length _ n _ (henc e he)
  have hmul : e * n + n ≤ s.engine.lat.area * n := Nat.succ_mul e n ▸ Nat.mul_le_mul_right n he
  have hdec : memFloat m' (u.engine.lat.dst + 4 * e) = dec (ts e) := by
    rw [hfloat e (harea ▸ he), ← map_streamTrit ts _ n hlen e he]
    refine congrArg dec (List.map_congr_left fun i hi => bufferTrit_of_packed _ _ _ _ _ _ ?_)
    have hin := List.mem_range.mp hi
    rw [hmem, hbase, hbytes, if_pos (by omega), Nat.add_sub_cancel_left, pack5_map_range]
  rw [finish_mem, hdec]
  exact ⟨rfl, fun z hz habs => dec_enc_near _ n _ hn (henc e he) hn' z hz habs,
    dec_enc_of_one_le _ n _ hn (henc e he), dec_enc_of_le_neg_one _ n _ hn (henc e he)⟩

end Sys2Proof.Machine
end

section
/-! Errors, the interrupt line and the end of a command (60_exceptions R184, R185, R195, 70_reset R240): an error writes no
result, no step stops the machine, and a command in flight is over within the inputs that are left (O37, O50, O55, O56). -/

namespace Sys2Proof.Machine

/-! ### The interrupt line (R195) -/

/-- CTRL bit 0 is IRQ_EN (10_state R28). -/
@[simp] theorem getLsbD_ctrlWord_zero (irqEn : Bool) : (ctrlWord irqEn).getLsbD 0 = irqEn := by
  cases irqEn <;> rfl

/-- STATUS bit 1 is DONE: one bit, BUSY, stands below it (10_state R26). -/
@[simp] theorem getLsbD_statusWord_one (st : Status) : st.word.getLsbD 1 = st.done := by
  rw [Status.word, BitVec.getLsbD_append, BitVec.getLsbD_append]
  simp

/-- Settles O50: the two bits that the host reads are the two that the line is the AND of. -/
theorem interruptLine : Obligations.InterruptLine := by
  intro s
  show (s.irqEn && s.status.done) = ((ctrlWord s.irqEn).getLsbD 0 && s.status.word.getLsbD 1)
  rw [getLsbD_ctrlWord_zero, getLsbD_statusWord_one]

/-! ### An error writes no result (R184) -/

/-- A completion that writes a result register is one with OK. -/
theorem Completion.results_eq {i : Instr} {s t : State} (h : Completion i s t) (herr : t.status.err ≠ 0#4) :
    t.toutLo = s.toutLo ∧ t.toutHi = s.toutHi ∧ t.result = s.result := by
  cases h with
  | verdict | memory => exact ⟨rfl, rfl, rfl⟩
  | trits | result => exact absurd rfl herr

/-- A matrix command fails a check or a read, or reaches its last phase (42_matrix R150, R160). -/
theorem exec_matrix_phases (i : Instr) (s : State) (hmem : usesMemory i) :
    (∃ v, exec i s = .next (s.conclude i v)) ∨ ∃ bytes, exec i s = .next (s.writeOut i bytes) := by
  obtain ⟨n, rfl⟩ | ⟨n, rfl⟩ := hmem
  · obtain ⟨_, -, h⟩ | ⟨v, -, -, h⟩ | ⟨_, -, -, h⟩ := execMenc_cases n s
    · exact .inl ⟨_, h⟩
    · exact .inl ⟨v, h⟩
    · exact .inr ⟨_, h⟩
  · obtain ⟨v, -, h⟩ | ⟨v, -, -, h⟩ | ⟨_, -, -, h⟩ := execMdec_cases n s
    · exact .inl ⟨v, h⟩
    · exact .inl ⟨v, h⟩
    · exact .inr ⟨_, h⟩

/-- The last phase of a matrix command fails with BUS_ERROR WRITE alone (42_matrix R158, R167). -/
theorem writeOut_busWrite_of_err (i : Instr) (bytes : List Byte) (s : State)
    (herr : (s.writeOut i bytes).status.err ≠ 0#4) :
    (s.writeOut i bytes).status.err = 3#4 ∧ (s.writeOut i bytes).status.detail = 2#8 := by
  obtain ⟨-, h⟩ | ⟨x, -, h⟩ := writeOut_cases i bytes s <;> rw [h] at herr ⊢
  · exact absurd rfl herr
  · exact ⟨rfl, rfl⟩

/-- Only the last phase of a matrix command writes memory, and where it fails the error is BUS_ERROR WRITE. -/
theorem exec_mem_of_err (i : Instr) (s t : State) (hexec : exec i s = .next t) (herr : t.status.err ≠ 0#4)
    (hfree : s.raceFree) (hbus : ¬(t.status.err = 3#4 ∧ t.status.detail = 2#8)) : t.mem = s.mem := by
  by_cases hmem : usesMemory i
  · obtain ⟨v, h⟩ | ⟨bytes, h⟩ := exec_matrix_phases i s hmem <;> cases h.symm.trans hexec
    · rw [conclude_of_raceFree s hfree, finish_mem]
    · exact absurd (writeOut_busWrite_of_err i bytes s herr) hbus
  · obtain ⟨t', ht, hcompl⟩ := exec_completion i s
    cases ht.symm.trans hexec
    exact hcompl.mem_eq hmem

/-- Settles O37: the result registers by the way the command completes, memory by its phases. -/
theorem errorsWriteNoResult : Obligations.ErrorsWriteNoResult := by
  intro i s t hexec herr
  obtain ⟨t', ht, hcompl⟩ := exec_completion i s
  cases ht.symm.trans hexec
  obtain ⟨hlo, hhi, hresult⟩ := hcompl.results_eq herr
  exact ⟨hlo, hhi, hresult, exec_mem_of_err i s t hexec herr⟩

/-! ### Every step has a next state (R185) -/

/-- However a command completes, BUSY is 0 and the inputs that are left stay (60_exceptions R181). -/
theorem Completion.idle {i : Instr} {s t : State} (h : Completion i s t) :
    t.status.busy = false ∧ t.inputs = s.inputs := by
  cases h <;> exact ⟨rfl, rfl⟩

/-- The engine's turn leaves no command in flight and takes no input. -/
theorem runEngine_next (s : State) : ∃ t, runEngine s = .next t ∧ t.status.busy = false ∧ t.inputs = s.inputs := by
  cases hbusy : s.status.busy with
  | false => exact ⟨s, runEngine_idle s hbusy, hbusy, rfl⟩
  | true =>
    cases hdec : decode s.engine.lat.cmd with
    | error why => exact ⟨_, runEngine_illegal s why hbusy hdec, rfl, rfl⟩
    | ok i =>
      obtain ⟨t, hexec, hcompl⟩ := exec_completion i s
      exact ⟨t, (runEngine_exec s i hbusy hdec).trans hexec, hcompl.idle⟩

theorem hostWrite_inputs (s : State) (addr : Word) (size : Nat) (v : Word) :
    (s.hostWrite addr size v).inputs = s.inputs := by
  obtain ⟨_, h⟩ | ⟨off, h⟩ := hostWrite_cases addr size v s <;> rw [h]
  obtain ⟨-, hinputs, -⟩ := writeReg_frame s off v
  exact hinputs

/-- Every input takes effect, and none takes another one (log 2, log 19). -/
theorem deliver_next (x : Input) (s : State) : ∃ t, deliver x s = .next t ∧ t.inputs = s.inputs := by
  cases x with
  | regRead addr size =>
    obtain ⟨_, h⟩ := hostRead_eq addr size s
    exact ⟨_, rfl, by rw [h]⟩
  | regWrite addr size v => exact ⟨_, rfl, hostWrite_inputs s addr size v⟩
  | memRead addr =>
    obtain ⟨_, _, h⟩ := hostLoad_eq addr s
    exact ⟨_, rfl, by rw [h]⟩
  | memWrite addr b => exact ⟨_, rfl, hostStore_inputs addr b s⟩
  | engine =>
    obtain ⟨t, h, -, hinputs⟩ := runEngine_next s
    exact ⟨t, h, hinputs⟩
  | reset => exact ⟨_, rfl, doReset_inputs s⟩
  | busMap holes =>
    obtain ⟨-, h⟩ | ⟨-, h⟩ := remap_cases holes s <;> exact ⟨_, rfl, by rw [h]⟩

theorem step_next (s : State) : ∃ t, step s = .next t := by
  cases hin : s.inputs with
  | nil =>
    obtain ⟨t, h, -⟩ := runEngine_next s
    exact ⟨t, (step_runEngine s hin).trans h⟩
  | cons x rest =>
    obtain ⟨t, h, -⟩ := deliver_next x { s with inputs := rest }
    exact ⟨t, (step_deliver s x rest hin).trans h⟩

/-! ### Runs (R185, R240) -/

theorem runsFor_zero (s : State) : s.runsFor 0 s := rfl

/-- A run of any machine goes on from the next state of its first step. -/
theorem coreRun_succ {M : Host.Core} {s u : M.State} (k : Nat) (h : M.step s = .next u) :
    M.run (k + 1) s = M.run k u := by
  rw [Host.Core.run, h]

theorem runsFor_succ {s u t : State} {k : Nat} (hstep : step s = .next u) (hrun : u.runsFor k t) :
    s.runsFor (k + 1) t :=
  (coreRun_succ (M := core) k hstep).trans hrun

/-- Settles O55: one more step is always possible. -/
theorem noRunStops : Obligations.NoRunStops := by
  intro s k
  induction k generalizing s with
  | zero => exact ⟨s, runsFor_zero s⟩
  | succ k ih =>
    obtain ⟨u, hstep⟩ := step_next s
    obtain ⟨t, hrun⟩ := ih u
    exact ⟨t, runsFor_succ hstep hrun⟩

/-- From every state, busy or not, some run within the inputs that are left and one turn more ends idle: each input is taken
in one step, and when none is left the engine's turn ends the command. -/
theorem exists_idle_run (inputs : List Input) (s : State) (hin : s.inputs = inputs) :
    ∃ k t, k ≤ inputs.length + 1 ∧ s.runsFor k t ∧ t.status.busy = false := by
  induction inputs generalizing s with
  | nil =>
    obtain ⟨t, h, hidle, -⟩ := runEngine_next s
    exact ⟨1, t, le_rfl, runsFor_succ ((step_runEngine s hin).trans h) (runsFor_zero t), hidle⟩
  | cons x rest ih =>
    obtain ⟨u, h, hrest⟩ := deliver_next x { s with inputs := rest }
    obtain ⟨k, t, hk, hrun, hidle⟩ := ih u hrest
    exact ⟨k + 1, t, Nat.succ_le_succ hk, runsFor_succ ((step_deliver s x rest hin).trans h) hrun, hidle⟩

/-- Settles O56: such a run, whose length the inputs of the busy state bound. -/
theorem commandInFlightEnds : Obligations.CommandInFlightEnds := fun s _ => exists_idle_run s.inputs s rfl

end Sys2Proof.Machine
end

section
/-! Memory across a reset (70_reset R221, R222): which bytes survive it, with and without a command in flight (O60). -/

namespace Sys2Proof.Machine

/-- A fill keeps every byte outside its range, and every byte for which it is given none. -/
theorem read_fill_kept (m : Memory) (base count : Nat) (f : Nat → Option Byte) (a : Nat) (h : m.wf = true)
    (ha : inRange (base, count) a = false ∨ f a = none) : (m.fill base count f).read a = m.read a := by
  rw [read_fill _ _ _ _ _ h]
  obtain hout | hnone := ha
  · simp only [inRange, decide_eq_false_iff_not] at hout
    rw [if_neg fun ⟨hlow, hhigh, _⟩ => hout ⟨hlow, hhigh⟩]
  · rw [hnone, Option.getD_none, ite_self]

/-- With an illegal word in flight there is no write footprint, and reset writes no memory (70_reset R222). -/
theorem resetMem_illegal (s : State) {why : IllegalWord} (h : decode s.engine.lat.cmd = .error why) : s.resetMem = s.mem := by
  rw [State.resetMem, h, ite_self]

/-- With a command in flight reset fills its write footprint where the write accesses complete (70_reset R221). -/
theorem resetMem_running (s : State) {i : Instr} (hbusy : s.status.busy = true) (h : decode s.engine.lat.cmd = .ok i) :
    s.resetMem = s.mem.fill (writeRange i s.engine.lat).1 (writeRange i s.engine.lat).2
      fun a => if writable s.platform i s.engine.lat a then some (Config.resetByte s.draws a) else none := by
  rw [State.resetMem, if_pos hbusy, h]

/-- Reset keeps a byte outside the abandoned command's write footprint, and one whose write access fails. -/
theorem read_resetMem_kept (s : State) {i : Instr} (a : Nat) (hwf : s.mem.wf = true)
    (h : decode s.engine.lat.cmd = .ok i)
    (ha : inRange (writeRange i s.engine.lat) a = false ∨ writable s.platform i s.engine.lat a = false) :
    s.resetMem.read a = s.mem.read a := by
  cases hbusy : s.status.busy with
  | false => rw [resetMem_idle s hbusy]
  | true =>
    rw [resetMem_running s hbusy h]
    exact read_fill_kept _ _ _ _ _ hwf (ha.imp_right fun hfails => by simp [hfails])

/-- Memory after the step that delivers a reset: `resetMem` does not read the inputs that are left. -/
theorem step_reset_mem {s t : State} {rest : List Input} (hin : s.inputs = .reset :: rest) (hstep : step s = .next t) :
    t.mem = s.resetMem := by
  have hdoes : step s = .next ({ s with inputs := rest } : State).doReset := step_deliver s .reset rest hin
  obtain rfl := Host.Outcome.next.inj (hstep.symm.trans hdoes)
  rfl

/-- Settles O60: by what is in flight, nothing, an illegal word or a command. -/
theorem resetKeepsOtherMemory : Obligations.ResetKeepsOtherMemory := by
  intro s t rest a hwf hin hstep hkept
  rw [step_reset_mem hin hstep]
  obtain hidle | ⟨why, hillegal⟩ | ⟨i, hdecode, ha⟩ := hkept
  · rw [resetMem_idle s hidle]
  · rw [resetMem_illegal s hillegal]
  · exact read_resetMem_kept s a hwf hdecode ha

end Sys2Proof.Machine
end
